-- ==== Sys2Proof/Word.lean ====
section
/-! DEFINITION. The word types of the Huffman Codec Engine (00_scope.md R5 to R7, 10_state.md R20). -/

namespace Sys2Proof

/-- A byte of a buffer, and a symbol (R5: `SYMW = 8`). -/
abbrev Byte := BitVec 8

/-- A register, a command word, a frequency count, a table word (R7: `FREQW = 32`; R21; R61). -/
abbrev Word := BitVec 32

/-- A node weight (R7: `WEIGHTW = 40`). -/
abbrev Weight := BitVec 40

/-- A node index, the width of ROOT and of NSYM (R28, R30, R34). -/
abbrev NodeIdx := BitVec 9

/-- A bit string: a finite list of bits, first element first (R10). -/
abbrev Bits := List Bool

end Sys2Proof
end

