-- ==== Sys2Proof/Syntax.lean ====
section
/-! DEFINITION. The commands of the engine: one constructor per row of spec/opcode_table.json (30_encoding.md R91), and the raw fields of format C (R90). -/

namespace Sys2Proof

/-- The seven commands (R91). ENCODE alone has an operand in its word: the append flag A (R92), so
`encode true` is what the notation spells `ENCODE.A`. Every other operand is a fixed register or memory (R95). -/
inductive Instr where
  /-- CLEAR (R240). -/
  | clear
  /-- COUNT (R120). -/
  | count
  /-- BUILD (R140). -/
  | build
  /-- ENCODE with `append = false`, ENCODE.A with `append = true` (R170). -/
  | encode (append : Bool)
  /-- DECODE (R190). -/
  | decode
  /-- FTSER (R221). -/
  | ftser
  /-- FTPARSE (R223). -/
  | ftparse
  deriving DecidableEq, Repr

/-- The fields of a command word in format C (R90): `op` is bits 7:0, `append` is bit 8, `reserved` is bits 31:9. -/
structure Command where
  op : Byte
  append : Bool
  reserved : BitVec 23
  deriving DecidableEq, Repr

end Sys2Proof
end

