-- ==== Sys2Proof/WellFormed.lean ====
section
/-! DEFINITION. When the fields of a command word are legal (30_encoding.md R92 to R94).
Every term of `Instr` is well formed as it stands: its one operand is a single bit, both of whose values are legal (R92).
What can be ill formed is a command word's fields, and the three checks below are the three ways R94 gives. -/

namespace Sys2Proof

/-- R93: bits 31:9 are 0. -/
def Command.reservedClear (c : Command) : Bool := c.reserved == 0

/-- R91: the opcode is one of 0x01 to 0x07. -/
def Command.knownOpcode (c : Command) : Bool := 1 ≤ c.op.toNat && c.op.toNat ≤ 7

/-- R92: the append flag is set on ENCODE only. -/
def Command.appendAllowed (c : Command) : Bool := !c.append || c.op == 0x04

/-- R94: the fields of a legal command word. -/
def Command.wellFormed (c : Command) : Bool :=
  c.reservedClear && c.knownOpcode && c.appendAllowed

end Sys2Proof
end

