-- ==== Sys2Proof/Decode.lean ====
section
/-! DEFINITION. The decoder of command words, total and rejecting by name, and the encoder (30_encoding.md R90 to R94). -/

namespace Sys2Proof

/-- Why a command word is illegal (R94). All three complete with IllegalCommandError (R241); the hardware does not tell them apart. -/
inductive IllegalWord where
  /-- A bit of 31:9 is set (R93). -/
  | reservedBits
  /-- The opcode is 0x00 or 0x08 to 0xFF (R91). -/
  | unknownOpcode
  /-- Bit 8 is set on a command other than ENCODE (R92). -/
  | appendFlag
  deriving DecidableEq, Repr

/-- The fields of a command word (R90). -/
def splitCommand (w : Word) : Command where
  op := w.extractLsb' 0 8
  append := w.getLsbD 8
  reserved := w.extractLsb' 9 23

/-- The command an opcode stands for, with the append flag of its word (R91). -/
def instrOfOpcode (op : Byte) (append : Bool) : Option Instr :=
  if op = 0x01 then some .clear
  else if op = 0x02 then some .count
  else if op = 0x03 then some .build
  else if op = 0x04 then some (.encode append)
  else if op = 0x05 then some .decode
  else if op = 0x06 then some .ftser
  else if op = 0x07 then some .ftparse
  else none

/-- Decoding the fields: the command, or the name of what is illegal (R94). -/
def decodeCommand (c : Command) : Except IllegalWord Instr :=
  if !c.reservedClear then .error .reservedBits
  else
    match instrOfOpcode c.op c.append with
    | none => .error .unknownOpcode
    | some i => if c.appendAllowed then .ok i else .error .appendFlag

/-- The decoder: total on 32-bit words (R94). -/
def decodeCmd (w : Word) : Except IllegalWord Instr :=
  decodeCommand (splitCommand w)

/-- The decoder on an instruction as spec/opcode_table.json numbers its bits. A command is one 32-bit number and
the port has no byte order (R61, R66), so the table's bit k is the word's bit k and there is nothing to lay out in
bytes; bits above `nbits` are 0, and more than 32 bits are no command. -/
def decodeTableWord (nbits w : Nat) : Option Instr :=
  if nbits ≤ 32 then
    match decodeCmd (BitVec.ofNat 32 (w % 2 ^ nbits)) with
    | .ok i => some i
    | .error _ => none
  else none

/-- The opcode of a command (R91). -/
def opcodeOf : Instr → Byte
  | .clear => 0x01
  | .count => 0x02
  | .build => 0x03
  | .encode _ => 0x04
  | .decode => 0x05
  | .ftser => 0x06
  | .ftparse => 0x07

/-- The append flag a command's word carries (R92). -/
def appendOf : Instr → Bool
  | .encode a => a
  | .clear | .count | .build | .decode | .ftser | .ftparse => false

/-- The fields of a command's word (R90). -/
def commandOf (i : Instr) : Command where
  op := opcodeOf i
  append := appendOf i
  reserved := 0

/-- The word with these fields (R90). -/
def joinCommand (c : Command) : Word :=
  c.reserved ++ BitVec.ofBool c.append ++ c.op

/-- The encoder: the word of a command (R91, R94). -/
def encodeCmd (i : Instr) : Word := joinCommand (commandOf i)

end Sys2Proof
end

