-- ==== Sys2Proof/Config.lean ====
section
/-! DEFINITION. What an instance of the engine fixes (00_scope.md R8, 20_memory.md R76), and the free values: the
values the spec leaves unspecified (93_implementation_defined.md U1), each an uninterpreted constant.

A free value is a function of the number of the draw it was taken at (`State.draws`) and, for a memory cell, of the
cell's index. None of them has a body, so a proof about one holds for every value it could have. -/

namespace Sys2Proof.Config

/-- The open parameters of an instance (R8, R76; U2.20, U2.21). They are constants: no step changes them (R43). -/
structure Params where
  /-- BUF_BYTES: the capacity of IBUF and of OBUF (R8). -/
  bufBytes : Nat
  /-- BASE: where a platform puts the block in the flat map (R76). No semantic rule depends on it. -/
  base : Nat
  /-- R8: the largest frequency section fits. -/
  sectionFits : 1282 ≤ bufBytes
  /-- R8: every length stays below 2^32 (R9). -/
  lengthsFit : bufBytes ≤ 2 ^ 24
  deriving DecidableEq, Repr

/-- The instance the spec's vectors use: BUF_BYTES = 65536 (R8). BASE = 0 is a DESIGN CHOICE (log 7). -/
def defaultParams : Params := ⟨65536, 0, by decide, by decide⟩

/-- NSYM_MAX (R6): the largest number of table entries and of leaves. -/
def nsymMax : Nat := 256

/-- NODE_MAX (R6): the largest number of tree nodes. -/
def nodeMax : Nat := 511

/-- CODELEN_MAX (R6): the longest codeword. -/
def codelenMax : Nat := 255

/-- Free value: the symbol field of an unspecified FT entry (U2.1, U2.3). -/
opaque freeFtSym : Nat → Nat → Byte

/-- Free value: the count field of an unspecified FT entry (U2.1, U2.3). -/
opaque freeFtCount : Nat → Nat → Word

/-- Free value: the leaf field of an unspecified NODE entry (U2.1, U2.4, U2.5). -/
opaque freeNodeLeaf : Nat → Nat → Bool

/-- Free value: the symbol field of an unspecified NODE entry. -/
opaque freeNodeSym : Nat → Nat → Byte

/-- Free value: the weight field of an unspecified NODE entry. -/
opaque freeNodeWeight : Nat → Nat → Weight

/-- Free value: the left field of an unspecified NODE entry. -/
opaque freeNodeLeft : Nat → Nat → NodeIdx

/-- Free value: the right field of an unspecified NODE entry. -/
opaque freeNodeRight : Nat → Nat → NodeIdx

/-- Free value: the valid field of an unspecified CT entry (U2.1, U2.5). -/
opaque freeCtValid : Nat → Nat → Bool

/-- Free value: the codeword of an unspecified CT entry, before it is cut to 255 bits. -/
opaque freeCtCode : Nat → Nat → Bits

/-- Free value: an unspecified byte of IBUF (U2.1). -/
opaque freeIbuf : Nat → Nat → Byte

/-- Free value: an unspecified byte of OBUF (U2.1, U2.6, U2.7). -/
opaque freeObuf : Nat → Nat → Byte

/-- Free value: ROOT after a failed BUILD (R154, U2.5). -/
opaque freeRoot : Nat → NodeIdx

/-- Free value: what a host read returns where the spec gives it no value (U2.5, U2.8, U2.10, U2.11); a new draw at each read. -/
opaque freeRead : Nat → Word

end Sys2Proof.Config
end

