-- ==== Sys2Proof/Machine/State.lean ====
section
/-! DEFINITION. The state of the engine: the tuple of 10_state.md R20 (`Arch`), and `State`, which adds the instance's
parameters and the host. Plain data throughout. -/

namespace Sys2Proof.Machine

/-- One memory of the engine, sparse and in one canonical form (`Memory.wf` in Ops).
`cells` lists the cells that hold a known value, by rising index. A cell that is not listed holds an unspecified value
(U1, R77, R291): it reads as a free value that depends on the cell and on the draw that `marks` gives its region.
A mark `(b, d)` says that the cells from index `b` up, as far as no earlier mark of the list covers them, became
unspecified at draw `d`; a cell below every mark has draw 0. -/
structure Memory (α : Type) where
  cells : List (Nat × α)
  marks : List (Nat × Nat)
  deriving DecidableEq, Repr

/-- A memory with no known value (R291). -/
def Memory.unknown (α : Type) : Memory α := ⟨[], []⟩

/-- An entry of the frequency table (R33). -/
structure FtEntry where
  sym : Byte
  count : Word
  deriving DecidableEq, Repr

/-- An entry of the tree node memory (R34). -/
structure Node where
  leaf : Bool
  sym : Byte
  weight : Weight
  left : NodeIdx
  right : NodeIdx
  deriving DecidableEq, Repr

/-- An entry of the code table (R35). `len` is the length of `code` and is not stored twice (log 14). -/
structure CtEntry where
  valid : Bool
  code : Bits
  deriving DecidableEq, Repr

/-- The sequencer's phase (R42). `STATUS.BUSY = 1` exactly when it is `run`. -/
inductive Phase where
  | idle
  | run
  deriving DecidableEq, Repr

/-- The eight error kinds (R101, R251). -/
inductive HceError where
  | emptyInput
  | unknownSymbol
  | malformedStream
  | formatVersion
  | badTable
  | range
  | noModel
  | illegalCommand
  deriving DecidableEq, Repr

/-- The six address spaces (R60). -/
inductive Space where
  | reg
  | ft
  | node
  | ct
  | ibuf
  | obuf
  deriving DecidableEq, Repr

/-- One coming event at the block's ports. -/
inductive HostEvent where
  /-- `MemWrite(space, idx, size, value)` (R60). -/
  | write (space : Space) (idx size : Nat) (value : Word)
  /-- `MemRead(space, idx, size)` (R60). -/
  | read (space : Space) (idx size : Nat)
  /-- A write at a byte address of the flat map (R76). -/
  | busWrite (addr size : Nat) (value : Word)
  /-- A read at a byte address of the flat map (R76). -/
  | busRead (addr size : Nat)
  /-- The host waits until the command has completed (R99 `wait`): if one is running this is the engine's turn.
  If the completed command ended with an error the next `skipOnErr` events are dropped: how a pseudo-command stops (R100). -/
  | wait (skipOnErr : Nat)
  /-- The `rst` input is asserted and released (R290, R293). -/
  | rst
  deriving DecidableEq, Repr

/-- The host as the model holds it: the model's own field, no component of the hardware (R43; log 8). -/
structure HostSide where
  /-- The coming events, oldest first. -/
  pending : List HostEvent
  /-- The data the host's reads returned so far, oldest first. -/
  readData : List Word
  deriving DecidableEq, Repr

/-- The architectural state, exactly the tuple of R20. BUSY is `phase = run` (R42) and DEGEN is `MV and ROOT = 0`
(R23), so neither is stored; CMD and BUFSZ hold no state (R22, R31). -/
structure Arch where
  /-- STATUS.DONE (R23). -/
  done : Bool
  /-- STATUS.ERR (R23). -/
  err : Bool
  /-- STATUS.MV (R23, R38). -/
  mv : Bool
  /-- STATUS.ERRCODE (R23, R251). -/
  errcode : Byte
  /-- ERRINFO (R24). -/
  errinfo : Word
  /-- IN_OFF (R25). -/
  inOff : Word
  /-- IN_LEN (R26). -/
  inLen : Word
  /-- OUT_LEN (R27). -/
  outLen : Word
  /-- NSYM (R28). -/
  nsym : NodeIdx
  /-- SEQ_LEN (R29). -/
  seqLen : Word
  /-- ROOT (R30). -/
  root : NodeIdx
  /-- The symbol fields of FT (R33). The host writes the two fields of an entry one at a time. -/
  ftSym : Memory Byte
  /-- The count fields of FT (R33). -/
  ftCount : Memory Word
  /-- NODE (R34). -/
  node : Memory Node
  /-- CT, indexed by symbol value (R35). -/
  ct : Memory CtEntry
  /-- IBUF (R36). -/
  ibuf : Memory Byte
  /-- OBUF (R37). -/
  obuf : Memory Byte
  /-- The sequencer's phase (R42). -/
  phase : Phase
  /-- The command word accepted last (R42). -/
  cmdlatch : Word
  deriving DecidableEq, Repr

/-- The machine: the block's state, its constants, and the host. -/
structure State extends Arch where
  /-- The instance's constants (R8, R43): no step changes them. -/
  params : Config.Params
  /-- The MODEL's own counter: how many free values have been drawn (log 4). -/
  draws : Nat
  /-- The MODEL's own field: the host (log 8). -/
  host : HostSide
  deriving DecidableEq, Repr

/-- Reasons to stop with a fault: there are none. No condition hangs or stops the engine (R304, and 'stuck: not used'
in 93_implementation_defined.md): every error of the spec is a completion, a next state (R250, R261). Safe. -/
inductive Fault where
  deriving DecidableEq, Repr

/-- Reasons to refuse. -/
inductive Refusal where
  /-- Raised by an arm of `exec` whose command has no meaning yet; every command has one, so nothing raises it. Safe. -/
  | notModelled (mnemonic : String)
  deriving DecidableEq, Repr

/-- The state after reset of an instance (R46): registers 0, IDLE, no memory cell known. cmdlatch is unspecified there
and is 0 here (DESIGN CHOICE, log 5). -/
def State.resetOf (p : Config.Params) : State where
  done := false
  err := false
  mv := false
  errcode := 0
  errinfo := 0
  inOff := 0
  inLen := 0
  outLen := 0
  nsym := 0
  seqLen := 0
  root := 0
  ftSym := Memory.unknown Byte
  ftCount := Memory.unknown Word
  node := Memory.unknown Node
  ct := Memory.unknown CtEntry
  ibuf := Memory.unknown Byte
  obuf := Memory.unknown Byte
  phase := .idle
  cmdlatch := 0
  params := p
  draws := 1
  host := ⟨[], []⟩

/-- The machine right after reset, for the instance of the spec's vectors (R8, R46). -/
def State.reset : State := State.resetOf Config.defaultParams

end Sys2Proof.Machine
end

