-- ==== Sys2Proof/Machine/Flags.lean ====
section
/-! DEFINITION. The flags of STATUS, its word, the error codes and the three outputs (10_state.md R23, R44; 60_exceptions.md R251, R265). -/

namespace Sys2Proof.Machine

/-- STATUS.BUSY: 1 exactly when the phase is RUN (R42). -/
def State.busy (s : State) : Bool := s.phase == .run

/-- STATUS.DEGEN: `MV and (ROOT = 0)` (R23). -/
def State.degen (s : State) : Bool := s.mv && s.root == 0

/-- The error codes (R251). -/
def HceError.code : HceError → Byte
  | .emptyInput => 1
  | .unknownSymbol => 2
  | .malformedStream => 3
  | .formatVersion => 4
  | .badTable => 5
  | .range => 6
  | .noModel => 7
  | .illegalCommand => 8

/-- The word a read of STATUS returns (R23): BUSY in bit 0, DONE 1, ERR 2, MV 3, DEGEN 4, ERRCODE in bits 15:8, the rest 0. -/
def State.statusWord (s : State) : Word :=
  (0 : BitVec 16) ++ s.errcode ++ (0 : BitVec 3) ++ BitVec.ofBool s.degen ++ BitVec.ofBool s.mv
    ++ BitVec.ofBool s.err ++ BitVec.ofBool s.done ++ BitVec.ofBool s.busy

/-- The output `busy` (R47, R265). -/
def State.busyOutput (s : State) : Bool := s.busy

/-- The output `done` (R47, R265). -/
def State.doneOutput (s : State) : Bool := s.done

/-- The output `err` (R47, R265). -/
def State.errOutput (s : State) : Bool := s.err

end Sys2Proof.Machine
end

