-- ==== Sys2Proof/Machine/Ops.lean ====
section
/-! DEFINITION. The shared operations: on memories (20_memory.md R60, R70, R77), acceptance, completion and error entry
(10_state.md R22, R42; 60_exceptions.md R261, R263), the writes of whole results, and reset (70_reset_and_hazards.md R290, R293). -/

namespace Sys2Proof.Machine

/-! ### Memories -/

/-- The known value of cell `k` in a list of cells, if it is listed. -/
def findCell {α : Type} (k : Nat) : List (Nat × α) → Option α
  | [] => none
  | (j, a) :: rest => if j = k then some a else findCell k rest

/-- The draw at which cell `k` became unspecified, were it not listed: the first mark that covers it. -/
def drawAt (k : Nat) : List (Nat × Nat) → Nat
  | [] => 0
  | (b, d) :: rest => if b ≤ k then d else drawAt k rest

/-- The known value of a cell, if it has one. -/
def Memory.known {α : Type} (m : Memory α) (k : Nat) : Option α := findCell k m.cells

/-- Reading a cell. What an unlisted cell reads as is this one definition: the free value of the cell at the draw of
its region (U1, R77), the same at each read until the cell is written or becomes unspecified anew (U2.1). -/
def Memory.read {α : Type} (free : Nat → Nat → α) (m : Memory α) (k : Nat) : α :=
  match m.known k with
  | some a => a
  | none => free (drawAt k m.marks) k

/-- A list of cells with cell `k` set, kept by rising index. -/
def putCell {α : Type} (k : Nat) (a : α) : List (Nat × α) → List (Nat × α)
  | [] => [(k, a)]
  | (j, b) :: rest =>
    if k < j then (k, a) :: (j, b) :: rest
    else if k = j then (k, a) :: rest
    else (j, b) :: putCell k a rest

/-- Writing one cell. -/
def Memory.write {α : Type} (m : Memory α) (k : Nat) (a : α) : Memory α :=
  ⟨putCell k a m.cells, m.marks⟩

/-- Values at consecutive indices. -/
def cellsFrom {α : Type} : Nat → List α → List (Nat × α)
  | _, [] => []
  | k, a :: rest => (k, a) :: cellsFrom (k + 1) rest

/-- Writing a block: the values stand at `base` and up, the cells below `base` are preserved, and every cell above the
block becomes unspecified at `draw` (R70, U2.3, U2.4, U2.6). -/
def Memory.store {α : Type} (m : Memory α) (base : Nat) (values : List α) (draw : Nat) : Memory α where
  cells := m.cells.filter (fun c => c.1 < base) ++ cellsFrom base values
  marks := (base + values.length, draw) :: m.marks.filter (fun p => p.1 < base + values.length)

/-- Every cell becomes unspecified at `draw` (U2.2, U2.5, U2.7). -/
def Memory.forget {α : Type} (m : Memory α) (draw : Nat) : Memory α := m.store 0 [] draw

/-- The canonical form of a memory of `size` cells: indices strictly rise and stay below `size`, mark bases strictly
fall. A listed value cannot equal what an unlisted cell reads as, since that is no known value. -/
def Memory.wf {α : Type} (size : Nat) (m : Memory α) : Prop :=
  (m.cells.map Prod.fst).Pairwise (· < ·) ∧ (∀ k ∈ m.cells.map Prod.fst, k < size) ∧
    (m.marks.map Prod.fst).Pairwise (· > ·)

/-! ### Reading the memories of a state -/

/-- An unspecified NODE entry, every field any value of its width (U1). -/
def freeNode (d k : Nat) : Node :=
  ⟨Config.freeNodeLeaf d k, Config.freeNodeSym d k, Config.freeNodeWeight d k, Config.freeNodeLeft d k,
    Config.freeNodeRight d k⟩

/-- An unspecified CT entry: a codeword is at most 255 bits long (R35, U1). -/
def freeCtEntry (d k : Nat) : CtEntry :=
  ⟨Config.freeCtValid d k, (Config.freeCtCode d k).take Config.codelenMax⟩

/-- `FT[i]` (R33). -/
def State.ftEntry (s : State) (i : Nat) : FtEntry :=
  ⟨s.ftSym.read Config.freeFtSym i, s.ftCount.read Config.freeFtCount i⟩

/-- `NODE[i]` (R34). -/
def State.nodeAt (s : State) (i : Nat) : Node := s.node.read freeNode i

/-- `CT[sym]` (R35). -/
def State.ctAt (s : State) (sym : Byte) : CtEntry := s.ct.read freeCtEntry sym.toNat

/-- `IBUF[k]` (R36). -/
def State.ibufAt (s : State) (k : Nat) : Byte := s.ibuf.read Config.freeIbuf k

/-- `OBUF[k]` (R37). -/
def State.obufAt (s : State) (k : Nat) : Byte := s.obuf.read Config.freeObuf k

/-! ### Acceptance, completion, error -/

/-- Acceptance of a command word (R22). It is also all there is of a return from an error: it clears the record of the
last one (R263). -/
def State.accept (s : State) (w : Word) : State :=
  { s with cmdlatch := w, phase := .run, done := false, err := false, errcode := 0, errinfo := 0 }

/-- Completion without error (R42, R261). -/
def State.complete (s : State) : State :=
  { s with phase := .idle, done := true, err := false, errcode := 0, errinfo := 0 }

/-- Error entry, what a `raise` does (R261). -/
def State.raise (s : State) (e : HceError) (info : Word) : State :=
  { s with phase := .idle, done := true, err := true, errcode := e.code, errinfo := info }

/-! ### Writing whole results -/

/-- The frequency table becomes `t` (R120, R223): `FT[0 .. |t|) = t`, the entries above unspecified, `NSYM = |t|`, and MV is cleared (R68). -/
def State.storeTable (s : State) (t : List FtEntry) : State :=
  { s with
    ftSym := s.ftSym.store 0 (t.map FtEntry.sym) s.draws
    ftCount := s.ftCount.store 0 (t.map FtEntry.count) s.draws
    nsym := BitVec.ofNat 9 t.length
    mv := false
    draws := s.draws + 1 }

/-- The model becomes these nodes, codes and root (R140): MV is set; NODE entries above the tree are unspecified (R34). -/
def State.storeModel (s : State) (nodes : List Node) (codes : List CtEntry) (root : Nat) : State :=
  { s with
    node := s.node.store 0 nodes s.draws
    ct := s.ct.store 0 codes s.draws
    root := BitVec.ofNat 9 root
    mv := true
    draws := s.draws + 1 }

/-- The model is discarded: MV is cleared and NODE, CT and ROOT are unspecified (R154, R262, U2.5). -/
def State.forgetModel (s : State) : State :=
  { s with
    node := s.node.forget s.draws
    ct := s.ct.forget s.draws
    root := Config.freeRoot s.draws
    mv := false
    draws := s.draws + 1 }

/-- The output becomes `y` at `base` (R70): the bytes below `base` are preserved, those above the output are unspecified,
`OUT_LEN = base + |y|`. With no bytes it is what a failed ENCODE or DECODE leaves (R262, U2.7). -/
def State.storeOutput (s : State) (base : Nat) (y : List Byte) : State :=
  { s with
    obuf := s.obuf.store base y s.draws
    outLen := BitVec.ofNat 32 (base + y.length)
    draws := s.draws + 1 }

/-! ### Reset -/

/-- The memories a command reads and does not write (R95). -/
def readsOnly : Instr → List Space
  | .clear => []
  | .count => [.ibuf]
  | .build => [.ft]
  | .encode _ => [.ibuf, .ct]
  | .decode => [.ibuf, .node]
  | .ftser => [.ft]
  | .ftparse => [.ibuf]

/-- Whether a memory keeps its contents across `rst`: only where R293 says so, when the reset abandons a command that
reads it and does not write it. Otherwise a memory is unspecified after reset (R290, R291; log 11). -/
def State.keptByReset (s : State) (sp : Space) : Bool :=
  s.busy &&
    match decodeCmd s.cmdlatch with
    | .ok i => (readsOnly i).contains sp
    | .error _ => false

/-- A memory across `rst`: kept, or every cell unspecified. -/
def Memory.afterReset {α : Type} (m : Memory α) (kept : Bool) (draw : Nat) : Memory α :=
  if kept then m else m.forget draw

/-- The state after `rst` (R46, R290, R293): the registers and the sequencer of `State.resetOf`, the memories as above.
The parameters are constants and the host is not reset. -/
def State.afterReset (s : State) : State :=
  { State.resetOf s.params with
    ftSym := s.ftSym.afterReset (s.keptByReset .ft) s.draws
    ftCount := s.ftCount.afterReset (s.keptByReset .ft) s.draws
    node := s.node.afterReset (s.keptByReset .node) s.draws
    ct := s.ct.afterReset (s.keptByReset .ct) s.draws
    ibuf := s.ibuf.afterReset (s.keptByReset .ibuf) s.draws
    obuf := s.obuf.afterReset (s.keptByReset .obuf) s.draws
    draws := s.draws + 1
    host := s.host }

end Sys2Proof.Machine
end

