-- ==== Sys2Proof/Machine/Operands.lean ====
section
/-! DEFINITION. How operands and data fields are assembled: bits and bytes (00_scope.md R10, 20_memory.md R64, R65),
the input window (R69), the frequency table in force (10_state.md R33), the detail word of BadTableError (60_exceptions.md R256). -/

namespace Sys2Proof.Machine

/-! ### Bits and bytes -/

/-- `bits8(b)`: the bits of a byte, most significant first (R10, R65). -/
def bits8 (b : Byte) : Bits :=
  [b.getLsbD 7, b.getLsbD 6, b.getLsbD 5, b.getLsbD 4, b.getLsbD 3, b.getLsbD 2, b.getLsbD 1, b.getLsbD 0]

/-- The number a bit string writes, most significant bit first. -/
def bitsToNat (s : Bits) : Nat := s.foldl (fun n b => 2 * n + b.toNat) 0

/-- `pack8(s)`: the byte with bit `7 - k` equal to `s[k]` (R10). -/
def pack8 (s : Bits) : Byte := BitVec.ofNat 8 (bitsToNat s)

/-- `bitsof(W)` (R10). -/
def bitsOf (w : List Byte) : Bits := w.flatMap bits8

/-- `bytesof(s)` of a bit string whose length is a multiple of 8 (R10, R176). -/
def bytesOf : Bits → List Byte
  | a :: b :: c :: d :: e :: f :: g :: h :: rest => pack8 [a, b, c, d, e, f, g, h] :: bytesOf rest
  | _ => []

/-- `zeros(n)` (R10). -/
def zeros (n : Nat) : Bits := List.replicate n false

/-- `W[i]`, for an index inside the byte string. -/
def byteAt (w : List Byte) (i : Nat) : Nat := (w.getD i 0).toNat

/-- `be16(W, i)` (R10, R64). -/
def be16 (w : List Byte) (i : Nat) : Nat := byteAt w i * 256 + byteAt w (i + 1)

/-- `be32(W, i)` (R10, R64). -/
def be32 (w : List Byte) (i : Nat) : Nat :=
  byteAt w i * 2 ^ 24 + byteAt w (i + 1) * 2 ^ 16 + byteAt w (i + 2) * 2 ^ 8 + byteAt w (i + 3)

/-- `tobe16(n)`: the inverse byte string (R10). -/
def toBe16 (n : Nat) : List Byte := [BitVec.ofNat 8 (n / 256), BitVec.ofNat 8 n]

/-- `tobe32(n)`: the inverse byte string (R10). -/
def toBe32 (n : Nat) : List Byte :=
  [BitVec.ofNat 8 (n / 2 ^ 24), BitVec.ofNat 8 (n / 2 ^ 16), BitVec.ofNat 8 (n / 2 ^ 8), BitVec.ofNat 8 n]

/-! ### The window and the table -/

/-- R69: the window is legal, `IN_OFF <= IN_LEN <= BUF_BYTES`. -/
def State.windowLegal (s : State) : Bool :=
  s.inOff.toNat ≤ s.inLen.toNat && s.inLen.toNat ≤ s.params.bufBytes

/-- The length of a legal window (R69). -/
def State.windowLength (s : State) : Nat := s.inLen.toNat - s.inOff.toNat

/-- The input window `IBUF[IN_OFF .. IN_LEN)` (R69). -/
def State.window (s : State) : List Byte :=
  (List.range' s.inOff.toNat s.windowLength).map s.ibufAt

/-- The frequency table in force, `FT[0 .. NSYM)` in order (R33). -/
def State.table (s : State) : List FtEntry :=
  (List.range s.nsym.toNat).map s.ftEntry

/-- The detail word of BadTableError: the kind in bits 17:16, the index in bits 15:0 (R256). -/
def badTableInfo (kind index : Nat) : Word := BitVec.ofNat 32 (kind * 2 ^ 16 + index)

end Sys2Proof.Machine
end

