-- ==== Sys2Proof/Machine/Builder.lean ====
section
/-! DEFINITION. BUILD: the priority-queue merge and codeword derivation (41_model_builder.md R140 to R156). -/

namespace Sys2Proof.Machine

/-! ### Input checks (R141) -/

/-- The first ill-formed entry of a table, given the symbols of the entries before and the index of the first of these:
its kind and index. A zero count is reported before a duplicate at the same index (R141 check 3). -/
def entryFault (seen : List Byte) (i : Nat) : List FtEntry → Option (Nat × Nat)
  | [] => none
  | e :: rest =>
    if e.count = 0 then some (1, i)
    else if seen.contains e.sym then some (2, i)
    else entryFault (e.sym :: seen) (i + 1) rest

/-- The checks of R141 on the table in force, in their order: the error and its detail word. -/
def tableFault (n : Nat) (t : List FtEntry) : Option (HceError × Word) :=
  if n = 0 then some (.emptyInput, 0)
  else if 256 < n then some (.badTable, badTableInfo 3 0)
  else
    match entryFault [] 0 t with
    | some (kind, i) => some (.badTable, badTableInfo kind i)
    | none => none

/-! ### The merge (R142 to R146) -/

/-- The leaf of a table entry (R142). -/
def leafOf (e : FtEntry) : Node := ⟨true, e.sym, e.count.setWidth 40, 0, 0⟩

/-- The weight of a node. -/
def weightAt (nodes : List Node) (i : Nat) : Nat :=
  match nodes[i]? with
  | some e => e.weight.toNat
  | none => 0

/-- The priority order: by weight, then by index (R143). -/
def keyBefore (nodes : List Node) (i j : Nat) : Bool :=
  weightAt nodes i < weightAt nodes j || (weightAt nodes i == weightAt nodes j && i < j)

/-- The member of least key among `m` and the members of a queue (R144). -/
def leastKey (nodes : List Node) : Nat → List Nat → Nat
  | m, [] => m
  | m, j :: q => leastKey nodes (if keyBefore nodes j m then j else m) q

/-- `extract_min(Q)` (R144): the least member and the queue without it; none on an empty queue. -/
def extractMin (nodes : List Node) : List Nat → Option (Nat × List Nat)
  | [] => none
  | i :: q => some (leastKey nodes i q, (i :: q).erase (leastKey nodes i q))

/-- The internal node over the nodes `a` (left) and `b` (right) (R145). -/
def internalOf (nodes : List Node) (a b : Nat) : Node :=
  ⟨false, 0, BitVec.ofNat 40 (weightAt nodes a + weightAt nodes b), BitVec.ofNat 9 a, BitVec.ofNat 9 b⟩

/-- The merge step on the nodes made so far and the queue (R145); none when fewer than two members remain. The new
node's index is the number of nodes made before it. -/
def mergeStep (nodes : List Node) (q : List Nat) : Option (List Node × List Nat) :=
  match extractMin nodes q with
  | none => none
  | some (a, q1) =>
    match extractMin nodes q1 with
    | none => none
    | some (b, q2) => some (nodes ++ [internalOf nodes a b], q2 ++ [nodes.length])

/-- The merge loop (R146), at most `fuel` merges. -/
def mergeLoop : Nat → List Node → List Nat → List Node
  | 0, nodes, _ => nodes
  | fuel + 1, nodes, q =>
    match mergeStep nodes q with
    | none => nodes
    | some (nodes', q') => mergeLoop fuel nodes' q'

/-- The nodes of the tree of a table: its leaves in table order, then the internal nodes in creation order (R140, R142,
R146). A table of N entries takes N - 1 merges, so N is enough fuel. -/
def buildNodes (t : List FtEntry) : List Node :=
  mergeLoop t.length (t.map leafOf) (List.range t.length)

/-- The root's index, `2N - 2` (R146). -/
def rootOf (t : List FtEntry) : Nat := 2 * t.length - 2

/-! ### Codewords (R148, R149) -/

/-- `derive(i, path)` (R148): the symbols of the leaves below node `i` with the path to each; `fuel` bounds the depth. -/
def derive (nodes : List Node) : Nat → Nat → Bits → List (Byte × Bits)
  | 0, _, _ => []
  | fuel + 1, i, path =>
    match nodes[i]? with
    | none => []
    | some e =>
      if e.leaf then [(e.sym, path)]
      else derive nodes fuel e.left.toNat (path ++ [false]) ++ derive nodes fuel e.right.toNat (path ++ [true])

/-- The codeword of a symbol in a derived list, if it has one. -/
def codeFor (codes : List (Byte × Bits)) (sym : Byte) : Option Bits :=
  match codes with
  | [] => none
  | (t, c) :: rest => if t = sym then some c else codeFor rest sym

/-- The CT entry of a symbol (R149). -/
def ctEntryFor (codes : List (Byte × Bits)) (sym : Byte) : CtEntry :=
  match codeFor codes sym with
  | some c => ⟨true, c⟩
  | none => ⟨false, []⟩

/-- The symbols with their codewords: `derive(root, "")` (R148). A path of the tree has fewer edges than the tree has
nodes, so the number of nodes is enough fuel. -/
def codesOf (nodes : List Node) (root : Nat) : List (Byte × Bits) :=
  derive nodes nodes.length root []

/-- The symbols of a table with their codewords (R148, R152). -/
def buildCodes (t : List FtEntry) : List (Byte × Bits) := codesOf (buildNodes t) (rootOf t)

/-- CT[0 .. 256) of a derived list (R149). -/
def ctOf (codes : List (Byte × Bits)) : List CtEntry :=
  (List.range 256).map (fun n => ctEntryFor codes (BitVec.ofNat 8 n))

/-- The completion of BUILD from its checks and the nodes of the table of `n` entries (R140, R154). On any error MV is
cleared and the model is unspecified. -/
def State.finishBuild (s : State) (fault : Option (HceError × Word)) (nodes : List Node) (root : Nat) : State :=
  match fault with
  | some (e, info) => s.forgetModel.raise e info
  | none => (s.storeModel nodes (ctOf (codesOf nodes root)) root).complete

/-- BUILD (R140). -/
def execBuild (s : State) : Host.Outcome State Fault Refusal :=
  .next (s.finishBuild (tableFault s.nsym.toNat s.table) (buildNodes s.table) (rootOf s.table))

end Sys2Proof.Machine
end

