-- ==== Sys2Proof/Machine/Decoder.lean ====
section
/-! DEFINITION. DECODE (43_decode.md R190 to R204). -/

namespace Sys2Proof.Machine

/-- The inverse code table (R150): the symbol whose codeword is `c`, if there is one. -/
def inverseCode (ct : Byte → CtEntry) (c : Bits) : Option Byte :=
  ((List.range 256).map (BitVec.ofNat 8)).find? (fun sym => (ct sym).valid && (ct sym).code == c)

/-- The scan as the document states it (R195): append one bit, look the accumulator up, emit and clear it on a match.
The result is the symbols and the accumulator left at the end (R197). This is the normative statement; DECODE runs `walk` (log 12). -/
def scan (inv : Bits → Option Byte) : Bits → Bits → List Byte × Bits
  | acc, [] => ([], acc)
  | acc, b :: rest =>
    match inv (acc ++ [b]) with
    | some sym => (sym :: (scan inv [] rest).1, (scan inv [] rest).2)
    | none => scan inv (acc ++ [b]) rest

/-- The tree walk (R196): the symbols emitted and the cursor at the end. -/
def walk (node : Nat → Node) (root : Nat) : Nat → Bits → List Byte × Nat
  | cur, [] => ([], cur)
  | cur, b :: rest =>
    let e := node cur
    let next := if b then e.right.toNat else e.left.toNat
    if (node next).leaf then
      let r := walk node root root rest
      ((node next).sym :: r.1, r.2)
    else walk node root next rest

/-- The data bits of a stream: what follows the header byte, less the last `p` bits (R192, R193). -/
def dataBits (body : List Byte) (p : Nat) : Bits :=
  (bitsOf body).take (8 * body.length - p)

/-- Completion of a DECODE that found its stream malformed or its output too long (R262). -/
def State.decodeFailed (s : State) (e : HceError) (info : Word) : Host.Outcome State Fault Refusal :=
  .next ((s.storeOutput 0 []).raise e info)

/-- Completion of a DECODE that delivers `out` (R199). -/
def State.decodeDone (s : State) (out : List Byte) : Host.Outcome State Fault Refusal :=
  .next (s.storeOutput 0 out).complete

/-- The degenerate path (R198): the data must be empty, and the one symbol is emitted SEQ_LEN times. -/
def State.decodeDegenerate (s : State) (data : Bits) : Host.Outcome State Fault Refusal :=
  if data ≠ [] then s.decodeFailed .malformedStream 4
  else if s.params.bufBytes < s.seqLen.toNat then s.decodeFailed .range 2
  else s.decodeDone (List.replicate s.seqLen.toNat (s.nodeAt 0).sym)

/-- The general path (R195 to R197, R203): the walk must end at the root, and the output must fit. -/
def State.decodeWalk (s : State) (data : Bits) : Host.Outcome State Fault Refusal :=
  let r := walk s.nodeAt s.root.toNat s.root.toNat data
  if r.2 ≠ s.root.toNat then s.decodeFailed .malformedStream 3
  else if s.params.bufBytes < r.1.length then s.decodeFailed .range 2
  else s.decodeDone r.1

/-- DECODE (R190), the checks in the order of R260. -/
def execDecode (s : State) : Host.Outcome State Fault Refusal :=
  if !s.mv then .next (s.raise .noModel 0)
  else if !s.windowLegal then .next (s.raise .range 1)
  else
    match s.window with
    | [] => s.decodeFailed .malformedStream 1
    | header :: body =>
      if 8 * body.length < header.toNat then s.decodeFailed .malformedStream 2
      else if s.degen then s.decodeDegenerate (dataBits body header.toNat)
      else s.decodeWalk (dataBits body header.toNat)

end Sys2Proof.Machine
end

