-- ==== Sys2Proof/Machine/Encoder.lean ====
section
/-! DEFINITION. ENCODE and ENCODE.A (42_encode.md R170 to R180). -/

namespace Sys2Proof.Machine

/-- The concatenated codewords of a window whose first symbol stands at IBUF index `k` (R172), or the IBUF index of the
first symbol absent from the code table (R173). -/
def concatCodes (ct : Byte → CtEntry) (k : Nat) : List Byte → Except Nat Bits
  | [] => .ok []
  | sym :: rest =>
    if (ct sym).valid then
      match concatCodes ct (k + 1) rest with
      | .ok d => .ok ((ct sym).code ++ d)
      | .error j => .error j
    else .error k

/-- The padding count of a bit string of length `l` (R174). -/
def padCount (l : Nat) : Nat := 8 - l % 8

/-- The packed stream of a bit string: the header byte, the bits, the padding (R174 to R176). -/
def packStream (d : Bits) : List Byte :=
  bytesOf (bits8 (BitVec.ofNat 8 (padCount d.length)) ++ d ++ zeros (padCount d.length))

/-- Where the output goes: at OUT_LEN with the append flag, else at 0 (R177). -/
def State.encodeBase (s : State) (append : Bool) : Nat := if append then s.outLen.toNat else 0

/-- ENCODE and ENCODE.A (R170), the checks in the order of R260. -/
def execEncode (append : Bool) (s : State) : Host.Outcome State Fault Refusal :=
  if !s.mv then .next (s.raise .noModel 0)
  else if !s.windowLegal then .next (s.raise .range 1)
  else
    match concatCodes s.ctAt s.inOff.toNat s.window with
    | .error k => .next ((s.storeOutput (s.encodeBase append) []).raise .unknownSymbol (BitVec.ofNat 32 k))
    | .ok d =>
      if s.params.bufBytes < s.encodeBase append + (packStream d).length then
        .next ((s.storeOutput (s.encodeBase append) []).raise .range 2)
      else
        .next ({ s.storeOutput (s.encodeBase append) (packStream d) with
          seqLen := BitVec.ofNat 32 s.windowLength } : State).complete

end Sys2Proof.Machine
end

