-- ==== Sys2Proof/Machine/Frequency.lean ====
section
/-! DEFINITION. COUNT (40_frequency_table.md R120, R121). -/

namespace Sys2Proof.Machine

/-- One more occurrence of a symbol: its entry counts one more, or a new entry stands at the end (R120). -/
def countSymbol (sym : Byte) : List FtEntry → List FtEntry
  | [] => [⟨sym, 1⟩]
  | e :: rest => if e.sym = sym then ⟨e.sym, e.count + 1⟩ :: rest else e :: countSymbol sym rest

/-- The table of a symbol sequence, read in ascending order (R120): entries stand in order of first occurrence (R121). -/
def countTable (w : List Byte) : List FtEntry :=
  w.foldl (fun t sym => countSymbol sym t) []

/-- COUNT (R120): the table of the window, or RangeError(1) with nothing changed (R257, R262). -/
def execCount (s : State) : Host.Outcome State Fault Refusal :=
  if !s.windowLegal then .next (s.raise .range 1)
  else .next (s.storeTable (countTable s.window)).complete

end Sys2Proof.Machine
end

