-- ==== Sys2Proof/Machine/Persist.lean ====
section
/-! DEFINITION. FTSER and FTPARSE: the frequency section of the persisted file (44_persisted_format.md R220 to R229). -/

namespace Sys2Proof.Machine

/-- The five bytes of an entry in the section (R220). -/
def entryBytes (e : FtEntry) : List Byte := e.sym :: toBe32 e.count.toNat

/-- The frequency section of a table (R220). -/
def sectionBytes (t : List FtEntry) : List Byte := toBe16 t.length ++ t.flatMap entryBytes

/-- FTSER (R221). More than 256 entries is BadTableError kind 3 with nothing changed (R262). -/
def execFtser (s : State) : Host.Outcome State Fault Refusal :=
  if 256 < s.nsym.toNat then .next (s.raise .badTable (badTableInfo 3 0))
  else .next (s.storeOutput 0 (sectionBytes s.table)).complete

/-- Entry `i` of the section at the start of a byte string (R220, R223). -/
def parsedEntry (w : List Byte) (i : Nat) : FtEntry :=
  ⟨w.getD (2 + 5 * i) 0, BitVec.ofNat 32 (be32 w (3 + 5 * i))⟩

/-- The `n` entries of the section at the start of a byte string (R223). -/
def parsedTable (w : List Byte) (n : Nat) : List FtEntry := (List.range n).map (parsedEntry w)

/-- FTPARSE (R223), its checks in the order of R224; all of them precede every write. -/
def execFtparse (s : State) : Host.Outcome State Fault Refusal :=
  if !s.windowLegal then .next (s.raise .range 1)
  else if s.window.length < 2 then .next (s.raise .formatVersion 1)
  else if 256 < be16 s.window 0 then .next (s.raise .formatVersion 2)
  else if s.window.length < 2 + 5 * be16 s.window 0 then .next (s.raise .formatVersion 3)
  else
    .next ({ s.storeTable (parsedTable s.window (be16 s.window 0)) with
      inOff := BitVec.ofNat 32 (s.inOff.toNat + 2 + 5 * be16 s.window 0) } : State).complete

end Sys2Proof.Machine
end

