-- ==== Sys2Proof/Machine/System.lean ====
section
/-! DEFINITION. CLEAR and illegal command words (45_system.md R240, R241). -/

namespace Sys2Proof.Machine

/-- CLEAR (R240): the operand registers, ROOT and MV become 0; the memories keep their contents. -/
def execClear (s : State) : Host.Outcome State Fault Refusal :=
  .next ({ s with
    inOff := 0, inLen := 0, outLen := 0, nsym := 0, seqLen := 0, root := 0, mv := false } : State).complete

/-- Completion of an illegal command word: IllegalCommandError with the word itself, and nothing else changes (R241, R259). -/
def illegalCommand (s : State) : Host.Outcome State Fault Refusal :=
  .next (s.raise .illegalCommand s.cmdlatch)

end Sys2Proof.Machine
end

