-- ==== Sys2Proof/Machine/Dispatch.lean ====
section
/-! DEFINITION. The meaning of each command: one arm per constructor (30_encoding.md R95). -/

namespace Sys2Proof.Machine

/-- The command function and the completion of one command (R42, R95). -/
def exec (i : Instr) (s : State) : Host.Outcome State Fault Refusal :=
  match i with
  | .clear => Sys2Proof.Machine.execClear s
  | .count => Sys2Proof.Machine.execCount s
  | .build => Sys2Proof.Machine.execBuild s
  | .encode append => Sys2Proof.Machine.execEncode append s
  | .decode => Sys2Proof.Machine.execDecode s
  | .ftser => Sys2Proof.Machine.execFtser s
  | .ftparse => Sys2Proof.Machine.execFtparse s

end Sys2Proof.Machine
end

