-- ==== Sys2Proof/Machine/HostPort.lean ====
section
/-! DEFINITION. The host port: which accesses are legal, what a read returns, what a write does (20_memory.md R60 to R63,
R66 to R68, R73, R76; 10_state.md R21 to R37), and the host's events other than `wait`. -/

namespace Sys2Proof.Machine

/-! ### The register space (R21) -/

/-- Byte offset of CMD (R22). -/
def offCmd : Nat := 0x00
/-- Byte offset of STATUS (R23). -/
def offStatus : Nat := 0x04
/-- Byte offset of ERRINFO (R24). -/
def offErrinfo : Nat := 0x08
/-- Byte offset of IN_OFF (R25). -/
def offInOff : Nat := 0x0C
/-- Byte offset of IN_LEN (R26). -/
def offInLen : Nat := 0x10
/-- Byte offset of OUT_LEN (R27). -/
def offOutLen : Nat := 0x14
/-- Byte offset of NSYM (R28). -/
def offNsym : Nat := 0x18
/-- Byte offset of SEQ_LEN (R29). -/
def offSeqLen : Nat := 0x1C
/-- Byte offset of ROOT (R30). -/
def offRoot : Nat := 0x20
/-- Byte offset of BUFSZ (R31). -/
def offBufsz : Nat := 0x24

/-- What a legal read of a register returns while not busy (R21): CMD and the reserved offsets read 0. -/
def State.readReg (s : State) (off : Nat) : Word :=
  if off = offStatus then s.statusWord
  else if off = offErrinfo then s.errinfo
  else if off = offInOff then s.inOff
  else if off = offInLen then s.inLen
  else if off = offOutLen then s.outLen
  else if off = offNsym then s.nsym.setWidth 32
  else if off = offSeqLen then s.seqLen
  else if off = offRoot then s.root.setWidth 32
  else if off = offBufsz then BitVec.ofNat 32 s.params.bufBytes
  else 0

/-- What a legal write of a register does while not busy: acceptance for CMD (R22), the store for the four read-write
registers (R25, R26, R28, R29), with MV cleared for NSYM (R68), and nothing for a read-only or reserved one (R21). -/
def State.writeReg (s : State) (off : Nat) (v : Word) : State :=
  if off = offCmd then s.accept v
  else if off = offInOff then { s with inOff := v }
  else if off = offInLen then { s with inLen := v }
  else if off = offNsym then { s with nsym := v.setWidth 9, mv := false }
  else if off = offSeqLen then { s with seqLen := v }
  else s

/-! ### The table spaces -/

/-- Word `j` of the host view of FT (R33). -/
def State.ftWord (s : State) (j : Nat) : Word :=
  if j % 2 = 0 then (s.ftEntry (j / 2)).sym.setWidth 32 else (s.ftEntry (j / 2)).count

/-- Writing word `j` of FT (R33): an even word keeps its bits 7:0. MV is cleared whatever is written (R68). -/
def State.writeFtWord (s : State) (j : Nat) (v : Word) : State :=
  if j % 2 = 0 then { s with ftSym := s.ftSym.write (j / 2) (v.setWidth 8), mv := false }
  else { s with ftCount := s.ftCount.write (j / 2) v, mv := false }

/-- Word `w` (0 to 3) of a NODE entry (R34). -/
def nodeWord (e : Node) (w : Nat) : Word :=
  if w = 0 then e.weight.extractLsb' 0 32
  else if w = 1 then (e.weight.extractLsb' 32 8).setWidth 32
  else if w = 2 then BitVec.ofBool e.leaf ++ (0 : BitVec 23) ++ e.sym
  else (0 : BitVec 7) ++ e.right ++ (0 : BitVec 7) ++ e.left

/-- The length field of a CT entry (R35). -/
def CtEntry.len (e : CtEntry) : Byte := BitVec.ofNat 8 e.code.length

/-- Thirty-two bits of a codeword from position `k` on, the first in bit 31, with 0 at and beyond its end (R35). -/
def codeWord (code : Bits) (k : Nat) : Word :=
  BitVec.ofNat 32 (bitsToNat (((code.drop k).take 32) ++ zeros (32 - ((code.drop k).take 32).length)))

/-- Word `w` (0 to 15) of a CT entry (R35); an entry that is not valid reads 0 throughout. -/
def ctWord (e : CtEntry) (w : Nat) : Word :=
  if !e.valid then 0
  else if w = 0 then (1 : BitVec 1) ++ (0 : BitVec 23) ++ e.len
  else if w ≤ 8 then codeWord e.code (32 * (w - 1))
  else 0

/-! ### Accesses -/

/-- The legal sizes and indices of R60: other accesses are protocol violations or out of range (R62, R63). -/
def accessLegal (p : Config.Params) (sp : Space) (idx size : Nat) : Bool :=
  match sp with
  | .reg => size == 4 && idx % 4 == 0 && idx ≤ 0xFFC
  | .ft => size == 4 && idx < 512
  | .node => size == 4 && idx < 2044
  | .ct => size == 4 && idx < 4096
  | .ibuf => size == 1 && idx < p.bufBytes
  | .obuf => size == 1 && idx < p.bufBytes

/-- The value of a host read where the spec gives it one. It gives none for an illegal access (R62, R63), for anything
but STATUS and BUFSZ while busy (R73), and for NODE and CT while MV is 0 (R34, R35). -/
def State.readValue (s : State) (sp : Space) (idx size : Nat) : Option Word :=
  if !accessLegal s.params sp idx size then none
  else if s.busy && !(sp == .reg && (idx == offStatus || idx == offBufsz)) then none
  else
    match sp with
    | .reg => some (s.readReg idx)
    | .ft => some (s.ftWord idx)
    | .node => if s.mv then some (nodeWord (s.nodeAt (idx / 4)) (idx % 4)) else none
    | .ct => if s.mv then some (ctWord (s.ctAt (BitVec.ofNat 8 (idx / 16))) (idx % 16)) else none
    | .ibuf => some ((s.ibufAt idx).setWidth 32)
    | .obuf => some ((s.obufAt idx).setWidth 32)

/-- What a host read returns: its value, or a fresh free value (U2.5, U2.8, U2.10, U2.11; log 15). -/
def State.hostReadData (s : State) (sp : Space) (idx size : Nat) : Word :=
  match s.readValue sp idx size with
  | some v => v
  | none => Config.freeRead s.draws

/-- `MemRead` (R60): no state of the block changes (R67); the host receives the data. -/
def State.hostRead (s : State) (sp : Space) (idx size : Nat) : State :=
  { s with
    draws := s.draws + 1
    host := { s.host with readData := s.host.readData ++ [s.hostReadData sp idx size] } }

/-- `MemWrite` (R60): ignored while busy (R73), when illegal (R62, R63), and for the read-only spaces. -/
def State.hostWrite (s : State) (sp : Space) (idx size : Nat) (v : Word) : State :=
  if s.busy || !accessLegal s.params sp idx size then s
  else
    match sp with
    | .reg => s.writeReg idx v
    | .ft => s.writeFtWord idx v
    | .ibuf => { s with ibuf := s.ibuf.write idx (v.setWidth 8) }
    | .node => s
    | .ct => s
    | .obuf => s

/-! ### The flat map (R76) -/

/-- The byte address of element `idx` of a space (R76). -/
def flatAddress (p : Config.Params) (sp : Space) (idx : Nat) : Nat :=
  p.base +
    match sp with
    | .reg => idx
    | .ft => 0x1000 + 4 * idx
    | .node => 0x2000 + 4 * idx
    | .ct => 0x4000 + 4 * idx
    | .ibuf => 0x1000000 + idx
    | .obuf => 0x2000000 + idx

/-- The word of a word space whose region starts at `start`, if the address is one of its elements'. -/
def flatWord (sp : Space) (start words off : Nat) : Option (Space × Nat) :=
  if start ≤ off ∧ off < start + 4 * words ∧ (off - start) % 4 = 0 then some (sp, (off - start) / 4) else none

/-- The element at an offset from BASE (R76); none for the reserved addresses between the regions, and for an address
inside a word space that is no element's. -/
def locateOffset (p : Config.Params) (off : Nat) : Option (Space × Nat) :=
  if off < 0x1000 then some (.reg, off)
  else if off < 0x2000 then flatWord .ft 0x1000 512 off
  else if off < 0x4000 then flatWord .node 0x2000 2044 off
  else if off < 0x1000000 then flatWord .ct 0x4000 4096 off
  else if off < 0x1000000 + p.bufBytes then some (.ibuf, off - 0x1000000)
  else if 0x2000000 ≤ off ∧ off < 0x2000000 + p.bufBytes then some (.obuf, off - 0x2000000)
  else none

/-- The element at a byte address of the flat map (R76). -/
def locate (p : Config.Params) (addr : Nat) : Option (Space × Nat) :=
  if p.base ≤ addr then locateOffset p (addr - p.base) else none

/-- A write at a flat address: the access of the element there; a reserved address ignores it (R76). -/
def State.busWrite (s : State) (addr size : Nat) (v : Word) : State :=
  match locate s.params addr with
  | some (sp, idx) => s.hostWrite sp idx size v
  | none => s

/-- A read at a flat address: the access of the element there; a reserved address gives any value (R76), except that
STATUS and BUFSZ alone are readable while busy (R73). -/
def State.busRead (s : State) (addr size : Nat) : State :=
  match locate s.params addr with
  | some (sp, idx) => s.hostRead sp idx size
  | none =>
    { s with
      draws := s.draws + 1
      host := { s.host with readData := s.host.readData ++ [Config.freeRead s.draws] } }

/-! ### The list of coming events -/

/-- The state with another list of coming events. -/
def State.withPending (s : State) (rest : List HostEvent) : State :=
  { s with host := { s.host with pending := rest } }

/-- After a `wait`: the next `n` events are dropped if the completed command ended with an error (R100). -/
def State.skipIfErr (n : Nat) (s : State) : State :=
  if s.err then s.withPending (s.host.pending.drop n) else s

/-! ### Host notation (R99) and pseudo-commands (R100) -/

/-- `wr <REG>, <value>` (R99). -/
def lineWr (off : Nat) (v : Word) : List HostEvent := [.write .reg off 4 v]

/-- `rd <REG>` (R99). -/
def lineRd (off : Nat) : List HostEvent := [.read .reg off 4]

/-- `wrft <i>, <sym>, <count>` (R99). -/
def lineWrft (i : Nat) (sym count : Word) : List HostEvent :=
  [.write .ft (2 * i) 4 sym, .write .ft (2 * i + 1) 4 count]

/-- `ld <k>, <bytes>` (R99). -/
def lineLd : Nat → List Byte → List HostEvent
  | _, [] => []
  | k, b :: rest => .write .ibuf k 1 (b.setWidth 32) :: lineLd (k + 1) rest

/-- `st <k>, <n>` (R99). -/
def lineSt (k n : Nat) : List HostEvent := (List.range' k n).map (fun j => .read .obuf j 1)

/-- `cmd <MNEMONIC>` (R99). -/
def lineCmd (i : Instr) : List HostEvent := lineWr offCmd (encodeCmd i)

/-- `cmd <MNEMONIC>; wait` for each of some commands, stopping at the first that completes with an error (R100): each
wait skips the two events of every command after it. -/
def pseudo : List Instr → List HostEvent
  | [] => []
  | i :: rest => lineCmd i ++ .wait (2 * rest.length) :: pseudo rest

/-- COMPRESS (R100). -/
def compress : List HostEvent := pseudo [.count, .build, .ftser, .encode true]

/-- EXPAND (R100). -/
def expand : List HostEvent := pseudo [.ftparse, .build, .decode]

/-- MODEL (R100). -/
def model : List HostEvent := pseudo [.count, .build]

end Sys2Proof.Machine
end

