-- ==== Sys2Proof/Machine/Sequencer.lean ====
section
/-! DEFINITION. The sequencer: the engine's completion step and the turn of each event (10_state.md R42, 20_memory.md R71). -/

namespace Sys2Proof.Machine

/-- The completion step (R42): the command function of the latched word, which is illegal or a command (R94). -/
def runCommand (s : State) : Host.Outcome State Fault Refusal :=
  match decodeCmd s.cmdlatch with
  | .ok i => exec i s
  | .error _ => illegalCommand s

/-- The engine's turn: its completion if a command is running, and nothing in IDLE, which holds its state (R269, R292). -/
def engineTurn (s : State) : Host.Outcome State Fault Refusal :=
  if s.busy then runCommand s else .next s

/-- A `wait`: the engine's turn, then what R100 says of an error. -/
def waitTurn (skipOnErr : Nat) (s : State) : Host.Outcome State Fault Refusal :=
  match engineTurn s with
  | .next t => .next (t.skipIfErr skipOnErr)
  | .fault r => .fault r
  | .refused r => .refused r

/-- The turn of one event that has left the list (R71). -/
def eventTurn (e : HostEvent) (s : State) : Host.Outcome State Fault Refusal :=
  match e with
  | .write sp idx size v => .next (s.hostWrite sp idx size v)
  | .read sp idx size => .next (s.hostRead sp idx size)
  | .busWrite addr size v => .next (s.busWrite addr size v)
  | .busRead addr size => .next (s.busRead addr size)
  | .wait n => waitTurn n s
  | .rst => .next s.afterReset

/-- The host issues a command word and then waits: the acceptance of the word (R22), with the engine's turn next. -/
def State.issue (s : State) (w : Word) : State :=
  (s.accept w).withPending (.wait 0 :: s.host.pending)

end Sys2Proof.Machine
end

