-- ==== Sys2Proof/Machine/Step.lean ====
section
/-! DEFINITION. One step of the machine: one host access, one completion or one reset, in the total order of 20_memory.md R71. -/

namespace Sys2Proof.Machine

/-- One step. The next of the coming events takes its turn; when none is left the engine completes a running command,
and in IDLE holds its state (R42, R71, R292). -/
def step (s : State) : Host.Outcome State Fault Refusal :=
  match s.host.pending with
  | [] => engineTurn s
  | e :: rest => eventTurn e (s.withPending rest)

/-- `s` with a command word in the latch and the engine's turn next (log 10): the acceptance of R22, as a write of the
word to CMD makes it. Bits above `nbits` are 0. -/
def State.withFetchWord (s : State) (nbits w : Nat) : State :=
  s.issue (BitVec.ofNat 32 (w % 2 ^ nbits))

end Sys2Proof.Machine
end

