-- ==== Sys2Proof/Safety.lean ====
section
/-! DEFINITION. What holds of the engine between any two steps, in the terms the claims use: the model invariant of
10_state.md R38 and what goes with it. -/

namespace Sys2Proof.Machine

/-- Every memory is in its canonical form, within its size (R33 to R37). -/
def State.MemoriesWf (s : State) : Prop :=
  s.ftSym.wf 256 ∧ s.ftCount.wf 256 ∧ s.node.wf Config.nodeMax ∧ s.ct.wf 256 ∧
    s.ibuf.wf s.params.bufBytes ∧ s.obuf.wf s.params.bufBytes

/-- `0 <= OUT_LEN <= BUF_BYTES`, and the output `OBUF[0 .. OUT_LEN)` holds known values (R27, R37). -/
def State.OutputHeld (s : State) : Prop :=
  s.outLen.toNat ≤ s.params.bufBytes ∧ ∀ k, k < s.outLen.toNat → (s.obuf.known k).isSome

/-- The record of the last command (R22 to R24, R251, R261): without ERR there is no code and no detail word, with ERR
the code is one of the eight, and while BUSY neither DONE nor ERR is set. -/
def State.RecordConsistent (s : State) : Prop :=
  (s.err = false → s.errcode = 0 ∧ s.errinfo = 0) ∧
    (s.err = true → ∃ e : HceError, s.errcode = e.code) ∧
    (s.phase = .run → s.done = false ∧ s.err = false)

/-- A frequency table BUILD accepts: 1 to 256 entries, every count positive, no symbol twice (R33, R141). -/
def TableOk (t : List FtEntry) : Prop :=
  1 ≤ t.length ∧ t.length ≤ 256 ∧ (∀ e ∈ t, e.count ≠ 0) ∧ (t.map FtEntry.sym).Nodup

/-- The child indices of the internal nodes of a list, left before right (R34, R153). -/
def childIndices (nodes : List Node) : List Nat :=
  nodes.flatMap (fun e => if e.leaf then [] else [e.left.toNat, e.right.toNat])

/-- NODE, CT and ROOT hold the model of the table in force (R38): the tree of R142 to R146 and the codes of R149. -/
def State.HoldsModel (s : State) : Prop :=
  TableOk s.table ∧
    s.root.toNat = 2 * s.nsym.toNat - 2 ∧
    (∀ i, i < 2 * s.nsym.toNat - 1 → (buildNodes s.table)[i]? = some (s.nodeAt i)) ∧
    (∀ sym, s.ctAt sym = ctEntryFor (buildCodes s.table) sym)

/-- Every draw recorded in a memory lies before the next one: a free value taken from now on is a new one (log 4). -/
def State.DrawsPast (s : State) : Prop :=
  0 < s.draws ∧
    (∀ p ∈ s.ftSym.marks, p.2 < s.draws) ∧ (∀ p ∈ s.ftCount.marks, p.2 < s.draws) ∧
    (∀ p ∈ s.node.marks, p.2 < s.draws) ∧ (∀ p ∈ s.ct.marks, p.2 < s.draws) ∧
    (∀ p ∈ s.ibuf.marks, p.2 < s.draws) ∧ (∀ p ∈ s.obuf.marks, p.2 < s.draws)

/-- The invariant of the machine. -/
structure State.Inv (s : State) : Prop where
  /-- Memories are canonical. -/
  memories : s.MemoriesWf
  /-- The output region (R27). -/
  output : s.OutputHeld
  /-- The record of the last command (R22 to R24). -/
  record : s.RecordConsistent
  /-- The model invariant (R38). -/
  model : s.mv = true → s.HoldsModel
  /-- Free values are fresh. -/
  draws : s.DrawsPast

/-! ### What a command leaves alone, as a reader of the state sees it -/

/-- FT and NSYM read as before. -/
def SameTable (s t : State) : Prop :=
  t.nsym = s.nsym ∧ ∀ i, t.ftEntry i = s.ftEntry i

/-- MV, ROOT, NODE and CT read as before. -/
def SameModel (s t : State) : Prop :=
  t.mv = s.mv ∧ t.root = s.root ∧ (∀ i, t.nodeAt i = s.nodeAt i) ∧ ∀ sym, t.ctAt sym = s.ctAt sym

/-- IBUF reads as before at every index. -/
def SameInput (s t : State) : Prop := ∀ k, t.ibufAt k = s.ibufAt k

/-- IN_OFF and IN_LEN are as before. -/
def SameWindow (s t : State) : Prop := t.inOff = s.inOff ∧ t.inLen = s.inLen

/-- OUT_LEN is as before and OBUF reads as before at every index. -/
def SameOutput (s t : State) : Prop := t.outLen = s.outLen ∧ ∀ k, t.obufAt k = s.obufAt k

/-- The latch, the parameters and the host are as before. -/
def SameSurroundings (s t : State) : Prop :=
  t.cmdlatch = s.cmdlatch ∧ t.params = s.params ∧ t.host = s.host

/-- The registers and the memories, all but the record of the command (STATUS's BUSY, DONE, ERR, ERRCODE, and ERRINFO),
read as before. -/
def SameData (s t : State) : Prop :=
  SameTable s t ∧ SameModel s t ∧ SameInput s t ∧ SameWindow s t ∧ SameOutput s t ∧ t.seqLen = s.seqLen

/-- Everything but the record of the command is as before: what R262 calls 'everything unchanged'. -/
def Unchanged (s t : State) : Prop := SameData s t ∧ SameSurroundings s t

/-- The record of a command that completed without error (R42, R261). -/
def CompletedOk (t : State) : Prop :=
  t.phase = .idle ∧ t.done = true ∧ t.err = false ∧ t.errcode = 0 ∧ t.errinfo = 0

/-- The record of a command that completed with an error (R261). -/
def CompletedWith (e : HceError) (info : Word) (t : State) : Prop :=
  t.phase = .idle ∧ t.done = true ∧ t.err = true ∧ t.errcode = e.code ∧ t.errinfo = info

/-- What R141's check 3 asks of entry `j`: a positive count and a symbol no earlier entry has. -/
def State.EntryAccepted (s : State) (j : Nat) : Prop :=
  (s.ftEntry j).count ≠ 0 ∧ ∀ m, m < j → (s.ftEntry m).sym ≠ (s.ftEntry j).sym

/-- BUILD completes with this error, discards the model and changes nothing else (R154, R262). -/
def BuildRejects (s : State) (e : HceError) (info : Word) : Prop :=
  ∃ t, exec .build s = .next t ∧ CompletedWith e info t ∧ t.mv = false ∧ SameTable s t ∧ SameInput s t ∧
    SameWindow s t ∧ SameOutput s t ∧ t.seqLen = s.seqLen ∧ SameSurroundings s t

/-- ENCODE completes with this error after its window check: the output ends at the base, what lies below the base is
preserved, and nothing else changes (R170, R262). -/
def EncodeFails (append : Bool) (s : State) (e : HceError) (info : Word) : Prop :=
  ∃ t, exec (.encode append) s = .next t ∧ CompletedWith e info t ∧ t.outLen = BitVec.ofNat 32 (s.encodeBase append) ∧
    (∀ k, k < s.encodeBase append → t.obufAt k = s.obufAt k) ∧ SameTable s t ∧ SameModel s t ∧ SameInput s t ∧
    SameWindow s t ∧ t.seqLen = s.seqLen ∧ SameSurroundings s t

/-- DECODE completes with this error after its window check: no output, and nothing else changes (R190, R262). -/
def DecodeFails (s : State) (e : HceError) (info : Word) : Prop :=
  ∃ t, exec .decode s = .next t ∧ CompletedWith e info t ∧ t.outLen = 0 ∧ SameTable s t ∧ SameModel s t ∧
    SameInput s t ∧ SameWindow s t ∧ t.seqLen = s.seqLen ∧ SameSurroundings s t

/-- The output `OBUF[0 .. OUT_LEN)` (R27). -/
def State.outputBytes (s : State) : List Byte := (List.range s.outLen.toNat).map s.obufAt

/-- The node reached from node `i` along a bit string: 0 goes left, 1 goes right (R148, R196). -/
def follow (node : Nat → Node) : Nat → Bits → Nat
  | i, [] => i
  | i, b :: c => follow node (if b then (node i).right.toNat else (node i).left.toNat) c

end Sys2Proof.Machine
end

