-- ==== Sys2Proof/Certificates/Slice0/Obligations.lean ====
section
/-! DEFINITION. The statements about the engine that the provers are asked to prove. -/

open Sys2Proof Sys2Proof.Machine

/-! ### Command words -/

/-- R94: the encoder's word decodes to the command it was made from, the append flag at both values. -/
def Obligations.EncodeThenDecodeIsIdentity : Prop :=
  ∀ i : Instr, decodeCmd (encodeCmd i) = .ok i ∧ decodeTableWord 32 (encodeCmd i).toNat = some i

/-- R93, R94: a word that decodes is the word of the command it decodes to, so no bit of it is dropped. -/
def Obligations.DecodeThenEncodeGivesWord : Prop :=
  ∀ (w : Word) (i : Instr), decodeCmd w = .ok i → encodeCmd i = w

/-- R94: which words are legal, that they are the eight listed, and what every other word does. -/
def Obligations.LegalWordsAreTheEight : Prop :=
  ∀ w : Word,
    ((∃ i, decodeCmd w = .ok i) ↔
      w.extractLsb' 9 23 = 0 ∧
        ((w.extractLsb' 0 8 ∈ ([0x01, 0x02, 0x03, 0x05, 0x06, 0x07] : List Byte) ∧ w.getLsbD 8 = false) ∨
          w.extractLsb' 0 8 = 0x04)) ∧
    ((∃ i, decodeCmd w = .ok i) ↔ w ∈ ([0x001, 0x002, 0x003, 0x004, 0x104, 0x005, 0x006, 0x007] : List Word)) ∧
    ((splitCommand w).wellFormed = true ↔ ∃ i, decodeCmd w = .ok i) ∧
    (¬ (∃ i, decodeCmd w = .ok i) → ∀ s : State, s.phase = .idle →
      s.hostWrite .reg offCmd 4 w = s.accept w ∧
        ∃ t, runCommand (s.accept w) = .next t ∧ CompletedWith .illegalCommand w t ∧ SameData s t ∧
          t.params = s.params ∧ t.host = s.host)

/-- R91, R93, R94: words written out bit by bit, and what the decoder reads in them. -/
def Obligations.WrittenOutWordsDecodeAsTabled : Prop :=
  decodeCmd 0b00000000000000000000000000000001 = .ok .clear ∧
  decodeCmd 0b00000000000000000000000000000010 = .ok .count ∧
  decodeCmd 0b00000000000000000000000000000011 = .ok .build ∧
  decodeCmd 0b00000000000000000000000000000100 = .ok (.encode false) ∧
  decodeCmd 0b00000000000000000000000100000100 = .ok (.encode true) ∧
  decodeCmd 0b00000000000000000000000000000101 = .ok .decode ∧
  decodeCmd 0b00000000000000000000000000000110 = .ok .ftser ∧
  decodeCmd 0b00000000000000000000000000000111 = .ok .ftparse ∧
  decodeCmd 0b00000000000000000000000000000000 = .error .unknownOpcode ∧
  decodeCmd 0b00000000000000000000000000001000 = .error .unknownOpcode ∧
  decodeCmd 0b00000000000000000000000100000101 = .error .appendFlag ∧
  decodeCmd 0b00000000000000000000001000000100 = .error .reservedBits

/-! ### The step -/

/-- R42, R95: with a legal word in the latch of a running engine, the engine's turn is `exec` of the command the word
decodes to, and `withFetchWord` makes that the very next step. -/
def Obligations.StepRunsTheDecodedCommand : Prop :=
  ∀ (s : State) (i : Instr),
    (decodeCmd s.cmdlatch = .ok i → s.phase = .run →
      (s.host.pending = [] → step s = exec i s) ∧
      (∀ k rest t, s.host.pending = .wait k :: rest → exec i (s.withPending rest) = .next t →
        step s = .next (t.skipIfErr k))) ∧
    step (s.withFetchWord 32 (encodeCmd i).toNat) = exec i (s.accept (encodeCmd i))

/-- R71, R99: an event that is next takes its turn, and a `wait` in IDLE changes the list of events only. -/
def Obligations.StepTakesTheNextHostEvent : Prop :=
  ∀ (s : State) (rest : List HostEvent),
    (∀ sp idx size v, s.host.pending = .write sp idx size v :: rest →
      step s = .next ((s.withPending rest).hostWrite sp idx size v)) ∧
    (∀ sp idx size, s.host.pending = .read sp idx size :: rest →
      step s = .next ((s.withPending rest).hostRead sp idx size)) ∧
    (∀ addr size v, s.host.pending = .busWrite addr size v :: rest →
      step s = .next ((s.withPending rest).busWrite addr size v)) ∧
    (∀ addr size, s.host.pending = .busRead addr size :: rest →
      step s = .next ((s.withPending rest).busRead addr size)) ∧
    (s.host.pending = .rst :: rest → step s = .next (s.withPending rest).afterReset) ∧
    (∀ k, s.phase = .idle → s.host.pending = .wait k :: rest →
      step s = .next (s.withPending (if s.err then rest.drop k else rest)))

/-- R269, R292: an idle engine with nothing to come holds its state, and so does the machine after reset. -/
def Obligations.IdleEngineHoldsItsState : Prop :=
  (∀ s : State, s.phase = .idle → s.host.pending = [] → step s = .next s) ∧ step State.reset = .next State.reset

/-- R241, R259: an illegal word reports IllegalCommandError with the word itself and changes nothing else. STATUS then
reads 0x806, with MV in bit 3 and DEGEN in bit 4. -/
def Obligations.IllegalWordReportsAndChangesNothing : Prop :=
  ∀ (s : State) (w : Word), (∀ i, decodeCmd w ≠ .ok i) →
    ∃ t, step (s.issue w) = .next t ∧ CompletedWith .illegalCommand w t ∧ t.errcode = 8 ∧ SameData s t ∧
      t.cmdlatch = w ∧ t.params = s.params ∧ t.host = s.host ∧
      t.statusWord = if s.mv then (if s.root = 0 then 0x81E else 0x80E) else 0x806

/-- R250, R261, R304: no state stops the machine: every step and every command answers a next state. -/
def Obligations.EveryStepAnswersNext : Prop :=
  ∀ s : State, (∃ t, step s = .next t) ∧ ∀ i, ∃ t, exec i s = .next t

/-- R42, R303: a running engine reaches IDLE within one step more than there are events to come, and if none of them is
a reset its command has completed then. -/
def Obligations.AcceptedCommandCompletes : Prop :=
  ∀ s : State, s.phase = .run →
    ∃ k t, k ≤ s.host.pending.length + 1 ∧ Sys2Proof.core.run k s = .next t ∧ t.phase = .idle ∧
      (HostEvent.rst ∉ s.host.pending → t.done = true)

/-- R251: which command can complete with which code; the codes are the eight of the table, and a legal command never
reports IllegalCommandError. -/
def Obligations.ErrorCodesMatchTheirCommands : Prop :=
  ([HceError.emptyInput, .unknownSymbol, .malformedStream, .formatVersion, .badTable, .range, .noModel,
      .illegalCommand].map HceError.code = [1, 2, 3, 4, 5, 6, 7, 8]) ∧
  (∀ (i : Instr) (s t : State), exec i s = .next t →
    (t.err = false → t.errcode = 0) ∧
    (t.err = true → ∃ e : HceError, t.errcode = e.code ∧
      match e with
      | .emptyInput => i = .build
      | .unknownSymbol => ∃ a, i = .encode a
      | .malformedStream => i = .decode
      | .formatVersion => i = .ftparse
      | .badTable => i = .build ∨ i = .ftser
      | .range => i = .count ∨ (∃ a, i = .encode a) ∨ i = .decode ∨ i = .ftparse
      | .noModel => (∃ a, i = .encode a) ∨ i = .decode
      | .illegalCommand => False)) ∧
  (∀ s t : State, (∀ i, decodeCmd s.cmdlatch ≠ .ok i) → runCommand s = .next t → t.err = true ∧ t.errcode = 8)

/-- R24, R42, R261: every command that ends leaves the engine idle with DONE set, and without an error there is neither a
code nor a detail word. -/
def Obligations.EveryCompletionLeavesItsRecord : Prop :=
  ∀ s t : State, runCommand s = .next t →
    t.phase = .idle ∧ t.busy = false ∧ t.done = true ∧ (t.err = false → t.errcode = 0 ∧ t.errinfo = 0) ∧
      (t.err = true → ∃ e info, CompletedWith e info t)

/-! ### The host port -/

/-- R22: a write to CMD while not busy is the acceptance of the word and changes nothing else; while busy it is ignored;
a read of CMD returns 0. -/
def Obligations.CommandWriteIsAcceptance : Prop :=
  ∀ (s : State) (w : Word),
    (s.phase = .idle →
      (s.hostWrite .reg offCmd 4 w).cmdlatch = w ∧ (s.hostWrite .reg offCmd 4 w).phase = .run ∧
      (s.hostWrite .reg offCmd 4 w).busy = true ∧ (s.hostWrite .reg offCmd 4 w).done = false ∧
      (s.hostWrite .reg offCmd 4 w).err = false ∧ (s.hostWrite .reg offCmd 4 w).errcode = 0 ∧
      (s.hostWrite .reg offCmd 4 w).errinfo = 0 ∧ SameData s (s.hostWrite .reg offCmd 4 w) ∧
      (s.hostWrite .reg offCmd 4 w).params = s.params ∧ (s.hostWrite .reg offCmd 4 w).host = s.host) ∧
    (s.phase = .run → s.hostWrite .reg offCmd 4 w = s) ∧
    (s.phase = .idle → s.readValue .reg offCmd 4 = some 0)

/-- R23, R265: the places of the fields of STATUS, its reserved bits, and the three outputs; STATUS is readable in
either phase. -/
def Obligations.StatusWordLayout : Prop :=
  ∀ s : State,
    s.readValue .reg offStatus 4 = some s.statusWord ∧
    s.statusWord.getLsbD 0 = decide (s.phase = .run) ∧ s.statusWord.getLsbD 1 = s.done ∧
    s.statusWord.getLsbD 2 = s.err ∧ s.statusWord.getLsbD 3 = s.mv ∧
    s.statusWord.getLsbD 4 = (s.mv && decide (s.root = 0)) ∧ s.statusWord.extractLsb' 8 8 = s.errcode ∧
    (∀ k, k = 5 ∨ k = 6 ∨ k = 7 ∨ 16 ≤ k → s.statusWord.getLsbD k = false) ∧
    s.busyOutput = s.statusWord.getLsbD 0 ∧ s.doneOutput = s.statusWord.getLsbD 1 ∧
    s.errOutput = s.statusWord.getLsbD 2

/-- R73: what the host's accesses do while busy. -/
def Obligations.BusyHostAccesses : Prop :=
  ∀ s : State, s.phase = .run →
    s.readValue .reg offStatus 4 = some s.statusWord ∧
    s.readValue .reg offBufsz 4 = some (BitVec.ofNat 32 s.params.bufBytes) ∧
    (∀ sp idx size v, s.hostWrite sp idx size v = s) ∧ (∀ addr size v, s.busWrite addr size v = s) ∧
    (∀ sp idx size, ¬ (sp = .reg ∧ (idx = offStatus ∨ idx = offBufsz) ∧ size = 4) →
      s.readValue sp idx size = none ∧ s.hostReadData sp idx size = Config.freeRead s.draws) ∧
    (∀ sp idx size, (s.hostRead sp idx size).toArch = s.toArch) ∧
    (∀ addr size, (s.busRead addr size).toArch = s.toArch)

/-- R67: no host read changes the block's state, and every later read that has a value returns what it would have returned
before. -/
def Obligations.HostReadsHaveNoSideEffect : Prop :=
  ∀ (s : State) (sp : Space) (idx size : Nat),
    (s.hostRead sp idx size).toArch = s.toArch ∧ (s.hostRead sp idx size).params = s.params ∧
    (s.hostRead sp idx size).host.pending = s.host.pending ∧
    (s.hostRead sp idx size).host.readData = s.host.readData ++ [s.hostReadData sp idx size] ∧
    (∀ v, s.readValue sp idx size = some v → s.hostReadData sp idx size = v) ∧
    (∀ sp' idx' size', (s.hostRead sp idx size).readValue sp' idx' size' = s.readValue sp' idx' size') ∧
    (∀ addr, (s.busRead addr size).toArch = s.toArch ∧
      ∀ sp' idx' size', (s.busRead addr size).readValue sp' idx' size' = s.readValue sp' idx' size')

/-- R25, R26, R28, R29: what a write of an operand register stores, what it reads back as, and that it changes nothing
else but MV on NSYM. The other registers read as their state. -/
def Obligations.OperandRegisterAccess : Prop :=
  ∀ (s : State) (v : Word), s.phase = .idle →
    s.hostWrite .reg offInOff 4 v = { s with inOff := v } ∧
    s.hostWrite .reg offInLen 4 v = { s with inLen := v } ∧
    s.hostWrite .reg offSeqLen 4 v = { s with seqLen := v } ∧
    s.hostWrite .reg offNsym 4 v = { s with nsym := v.extractLsb' 0 9, mv := false } ∧
    (s.hostWrite .reg offInOff 4 v).readValue .reg offInOff 4 = some v ∧
    (s.hostWrite .reg offInLen 4 v).readValue .reg offInLen 4 = some v ∧
    (s.hostWrite .reg offSeqLen 4 v).readValue .reg offSeqLen 4 = some v ∧
    (s.hostWrite .reg offNsym 4 v).readValue .reg offNsym 4 = some (v &&& 0x1FF) ∧
    s.readValue .reg offErrinfo 4 = some s.errinfo ∧ s.readValue .reg offOutLen 4 = some s.outLen ∧
    s.readValue .reg offRoot 4 = some (s.root.setWidth 32) ∧
    s.readValue .reg offBufsz 4 = some (BitVec.ofNat 32 s.params.bufBytes)

/-- R33: the host view of FT: which word is which field, that a write changes that field alone and clears MV, and that
the bits above the symbol are ignored. -/
def Obligations.FrequencyTableHostView : Prop :=
  ∀ (s : State) (i : Nat) (v : Word), s.phase = .idle → i < 256 →
    s.readValue .ft (2 * i) 4 = some ((s.ftEntry i).sym.setWidth 32) ∧
    s.readValue .ft (2 * i + 1) 4 = some (s.ftEntry i).count ∧
    (s.hostWrite .ft (2 * i) 4 v).ftEntry i = ⟨v.extractLsb' 0 8, (s.ftEntry i).count⟩ ∧
    (s.hostWrite .ft (2 * i + 1) 4 v).ftEntry i = ⟨(s.ftEntry i).sym, v⟩ ∧
    ∀ t, t = s.hostWrite .ft (2 * i) 4 v ∨ t = s.hostWrite .ft (2 * i + 1) 4 v →
      t.mv = false ∧ t.nsym = s.nsym ∧ t.root = s.root ∧ (∀ j, j ≠ i → t.ftEntry j = s.ftEntry j) ∧
      (∀ j, t.nodeAt j = s.nodeAt j) ∧ (∀ x, t.ctAt x = s.ctAt x) ∧ SameInput s t ∧ SameWindow s t ∧
      SameOutput s t ∧ t.seqLen = s.seqLen ∧ t.statusWord = s.statusWord &&& ~~~(0x18 : Word) ∧
      t.errinfo = s.errinfo ∧ SameSurroundings s t

/-- R68: the host writes with side effects, and that every other write stores its value and does nothing else. -/
def Obligations.WritesThatClearModelValid : Prop :=
  (∀ (s : State) (v : Word), s.phase = .idle →
    s.hostWrite .reg offCmd 4 v = s.accept v ∧
    (s.hostWrite .reg offNsym 4 v).mv = false ∧
    (∀ j, j < 512 → (s.hostWrite .ft j 4 v).mv = false) ∧
    s.hostWrite .reg offInOff 4 v = { s with inOff := v } ∧
    s.hostWrite .reg offInLen 4 v = { s with inLen := v } ∧
    s.hostWrite .reg offSeqLen 4 v = { s with seqLen := v } ∧
    (∀ k, k < s.params.bufBytes →
      (s.hostWrite .ibuf k 1 v).ibufAt k = v.extractLsb' 0 8 ∧
      (∀ m, m ≠ k → (s.hostWrite .ibuf k 1 v).ibufAt m = s.ibufAt m) ∧
      { s.hostWrite .ibuf k 1 v with ibuf := s.ibuf } = s)) ∧
  (∀ (i : Instr) (s t : State), i = .count ∨ i = .ftparse → exec i s = .next t → t.err = false → t.mv = false)

/-- R21, R60, R62, R63: the legal accesses, that any other access writes nothing and reads no value, that the read-only
spaces and registers ignore writes, and that the reserved offsets read 0. -/
def Obligations.IgnoredHostAccesses : Prop :=
  ∀ (s : State) (sp : Space) (idx size : Nat) (v : Word),
    (accessLegal s.params sp idx size = true ↔
      match sp with
      | .reg => size = 4 ∧ idx % 4 = 0 ∧ idx ≤ 0xFFC
      | .ft => size = 4 ∧ idx ≤ 511
      | .node => size = 4 ∧ idx ≤ 2043
      | .ct => size = 4 ∧ idx ≤ 4095
      | .ibuf => size = 1 ∧ idx < s.params.bufBytes
      | .obuf => size = 1 ∧ idx < s.params.bufBytes) ∧
    (accessLegal s.params sp idx size = false →
      s.hostWrite sp idx size v = s ∧ s.readValue sp idx size = none) ∧
    (sp = .node ∨ sp = .ct ∨ sp = .obuf → s.hostWrite sp idx size v = s) ∧
    (idx ∉ [0x00, 0x0C, 0x10, 0x18, 0x1C] → s.hostWrite .reg idx size v = s) ∧
    (s.phase = .idle → 0x28 ≤ idx → idx ≤ 0xFFC → idx % 4 = 0 → s.readValue .reg idx 4 = some 0)

/-- R34: the four words of a NODE entry as the host reads them, while a model is valid; otherwise they have no value. -/
def Obligations.NodeHostViewLayout : Prop :=
  ∀ (s : State) (i : Nat), s.phase = .idle → i < 511 →
    (s.mv = true →
      ∃ w0 w1 w2 w3 : Word,
        s.readValue .node (4 * i) 4 = some w0 ∧ s.readValue .node (4 * i + 1) 4 = some w1 ∧
        s.readValue .node (4 * i + 2) 4 = some w2 ∧ s.readValue .node (4 * i + 3) 4 = some w3 ∧
        w0.toNat = (s.nodeAt i).weight.toNat % 2 ^ 32 ∧ w1.toNat = (s.nodeAt i).weight.toNat / 2 ^ 32 ∧
        w2.getLsbD 31 = (s.nodeAt i).leaf ∧ w2.extractLsb' 0 8 = (s.nodeAt i).sym ∧
        w2.extractLsb' 8 23 = 0 ∧ w3.extractLsb' 0 9 = (s.nodeAt i).left ∧ w3.extractLsb' 9 7 = 0 ∧
        w3.extractLsb' 16 9 = (s.nodeAt i).right ∧ w3.extractLsb' 25 7 = 0) ∧
    (s.mv = false → ∀ k, k < 4 → s.readValue .node (4 * i + k) 4 = none)

/-- R35: the sixteen words of a CT entry as the host reads them, while a model is valid; otherwise they have no value. -/
def Obligations.CodeHostViewLayout : Prop :=
  ∀ (s : State) (x : Byte), s.phase = .idle →
    (s.mv = false → ∀ w, w < 16 → s.readValue .ct (16 * x.toNat + w) 4 = none) ∧
    (s.mv = true →
      ((s.ctAt x).valid = false → ∀ w, w < 16 → s.readValue .ct (16 * x.toNat + w) 4 = some 0) ∧
      ((s.ctAt x).valid = true → (s.ctAt x).code.length ≤ 255 →
        s.readValue .ct (16 * x.toNat) 4 = some (0x80000000 + BitVec.ofNat 32 (s.ctAt x).code.length) ∧
        (∀ k, k < 256 → ∃ v, s.readValue .ct (16 * x.toNat + (1 + k / 32)) 4 = some v ∧
          v.getLsbD (31 - k % 32) = (s.ctAt x).code.getD k false) ∧
        (∀ w, 9 ≤ w → w < 16 → s.readValue .ct (16 * x.toNat + w) 4 = some 0)))

/-- R76: the flat map reaches every element of every space at its address and at no other, and the addresses between the
regions are reserved. -/
def Obligations.FlatMapLocatesTheElements : Prop :=
  ∀ s : State,
    (∀ sp idx size, accessLegal s.params sp idx size = true →
      locate s.params (flatAddress s.params sp idx) = some (sp, idx) ∧
      (∀ v, s.busWrite (flatAddress s.params sp idx) size v = s.hostWrite sp idx size v) ∧
      s.busRead (flatAddress s.params sp idx) size = s.hostRead sp idx size) ∧
    (∀ addr sp idx, locate s.params addr = some (sp, idx) → flatAddress s.params sp idx = addr) ∧
    (∀ off size v,
      (0x1800 ≤ off ∧ off < 0x2000) ∨ (0x2000 + 8176 ≤ off ∧ off < 0x4000) ∨ (0x8000 ≤ off ∧ off < 0x1000000) ∨
        (0x1000000 + s.params.bufBytes ≤ off ∧ off < 0x2000000) ∨ 0x2000000 + s.params.bufBytes ≤ off →
      s.busWrite (s.params.base + off) size v = s ∧
        (s.busRead (s.params.base + off) size).host.readData = s.host.readData ++ [Config.freeRead s.draws])

/-! ### Reset and the invariant -/

/-- R46: the values after reset, of the reset state and of every instance. The latch is left open there, and the
statement says nothing of it. -/
def Obligations.ResetGivesTheRegisterValues : Prop :=
  ∀ s : State, (s = State.reset ∨ ∃ p, s = State.resetOf p) →
    s.statusWord = 0 ∧ s.busy = false ∧ s.done = false ∧ s.err = false ∧ s.mv = false ∧ s.degen = false ∧
    s.errcode = 0 ∧ s.errinfo = 0 ∧ s.inOff = 0 ∧ s.inLen = 0 ∧ s.outLen = 0 ∧ s.nsym = 0 ∧ s.seqLen = 0 ∧
    s.root = 0 ∧ s.readValue .reg offBufsz 4 = some (BitVec.ofNat 32 s.params.bufBytes) ∧ s.phase = .idle ∧
    ∀ k, s.ftSym.known k = none ∧ s.ftCount.known k = none ∧ s.node.known k = none ∧ s.ct.known k = none ∧
      s.ibuf.known k = none ∧ s.obuf.known k = none

/-- R290, R293, with the model's reading of the two together (log 11): `rst` gives every register its reset value and
leaves no memory cell known, but for the memories an abandoned command reads and does not write, which keep their
contents. -/
def Obligations.ResetInputForgetsAndKeeps : Prop :=
  ∀ s : State,
    (s.afterReset.statusWord = 0 ∧ s.afterReset.phase = .idle ∧ s.afterReset.errinfo = 0 ∧ s.afterReset.inOff = 0 ∧
      s.afterReset.inLen = 0 ∧ s.afterReset.outLen = 0 ∧ s.afterReset.nsym = 0 ∧ s.afterReset.seqLen = 0 ∧
      s.afterReset.root = 0 ∧ s.afterReset.params = s.params ∧ s.afterReset.host = s.host) ∧
    (s.phase = .idle → ∀ k, s.afterReset.ftSym.known k = none ∧ s.afterReset.ftCount.known k = none ∧
      s.afterReset.node.known k = none ∧ s.afterReset.ct.known k = none ∧ s.afterReset.ibuf.known k = none ∧
      s.afterReset.obuf.known k = none) ∧
    (s.phase = .run → ∀ i, decodeCmd s.cmdlatch = .ok i →
      (i = .count ∨ i = .ftparse → SameInput s s.afterReset ∧
        ∀ k, s.afterReset.ftSym.known k = none ∧ s.afterReset.ftCount.known k = none) ∧
      (i = .build → (∀ k, s.afterReset.ftEntry k = s.ftEntry k) ∧
        ∀ k, s.afterReset.node.known k = none ∧ s.afterReset.ct.known k = none) ∧
      (∀ a, i = .encode a → SameInput s s.afterReset ∧ (∀ x, s.afterReset.ctAt x = s.ctAt x) ∧
        ∀ k, s.afterReset.obuf.known k = none) ∧
      (i = .decode → SameInput s s.afterReset ∧ (∀ k, s.afterReset.nodeAt k = s.nodeAt k) ∧
        ∀ k, s.afterReset.obuf.known k = none) ∧
      (i = .ftser → (∀ k, s.afterReset.ftEntry k = s.ftEntry k) ∧ ∀ k, s.afterReset.obuf.known k = none))

/-- The state after reset meets the invariant, at every instance. -/
def Obligations.ResetMeetsTheInvariant : Prop :=
  ∀ p : Config.Params, (State.resetOf p).Inv

/-- R27, R38 and the canonical form of the memories: every step keeps the invariant, whatever the state and whatever the
host does. -/
def Obligations.StepKeepsTheInvariant : Prop :=
  ∀ s t : State, s.Inv → step s = .next t → t.Inv

/-- R43: the parameters are constants. -/
def Obligations.ParametersAreConstant : Prop :=
  ∀ s t : State, step s = .next t → t.params = s.params

/-! ### CLEAR and COUNT -/

/-- R240: CLEAR. -/
def Obligations.ClearResetsTheRegisters : Prop :=
  ∀ s : State,
    (∃ t, exec .clear s = .next t ∧ CompletedOk t ∧ t.statusWord = 0x00000002 ∧ t.inOff = 0 ∧ t.inLen = 0 ∧
      t.outLen = 0 ∧ t.nsym = 0 ∧ t.seqLen = 0 ∧ t.root = 0 ∧ t.mv = false ∧ t.degen = false ∧
      (∀ i, t.ftEntry i = s.ftEntry i) ∧ (∀ i, t.nodeAt i = s.nodeAt i) ∧ (∀ x, t.ctAt x = s.ctAt x) ∧
      SameInput s t ∧ (∀ k, t.obufAt k = s.obufAt k) ∧ SameSurroundings s t) ∧
    (s.phase = .run → s.hostWrite .reg offCmd 4 0x001 = s)

/-- R120, R121: COUNT: the table lists each symbol of the window once, in order of first occurrence, with the number of
its occurrences; an illegal window is RangeError(1) with nothing changed. -/
def Obligations.CountBuildsTheFirstOccurrenceTable : Prop :=
  ∀ s : State,
    (s.windowLegal = true → ∃ t, exec .count s = .next t ∧ CompletedOk t ∧ t.mv = false ∧
      (t.table.map FtEntry.sym).Pairwise (fun a b => s.window.idxOf a < s.window.idxOf b) ∧
      (∀ x, x ∈ t.table.map FtEntry.sym ↔ x ∈ s.window) ∧
      (∀ e ∈ t.table, e.count.toNat = s.window.count e.sym) ∧
      t.root = s.root ∧ (∀ i, t.nodeAt i = s.nodeAt i) ∧ (∀ x, t.ctAt x = s.ctAt x) ∧ SameInput s t ∧
      SameWindow s t ∧ SameOutput s t ∧ t.seqLen = s.seqLen ∧ SameSurroundings s t) ∧
    (s.windowLegal = false → ∃ t, exec .count s = .next t ∧ CompletedWith .range 1 t ∧ Unchanged s t)

/-- R69: the window's legality and bytes, RangeError(1) by all four commands, and that no command reads IBUF outside a
legal window nor at all when it is illegal. -/
def Obligations.WindowIsCheckedAndIsAllThatIsRead : Prop :=
  (∀ s : State,
    (s.windowLegal = true ↔ s.inOff.toNat ≤ s.inLen.toNat ∧ s.inLen.toNat ≤ s.params.bufBytes) ∧
    (s.windowLegal = true → s.window.length = s.inLen.toNat - s.inOff.toNat ∧
      ∀ i, i < s.inLen.toNat - s.inOff.toNat → s.window[i]? = some (s.ibufAt (s.inOff.toNat + i))) ∧
    (s.windowLegal = false → ∀ i, i = .count ∨ i = .ftparse ∨ (s.mv = true ∧ (i = .decode ∨ ∃ a, i = .encode a)) →
      ∃ t, exec i s = .next t ∧ CompletedWith .range 1 t ∧ Unchanged s t)) ∧
  (∀ (i : Instr) (s t : State) (m : Memory Byte),
    (s.windowLegal = true → ∀ k, s.inOff.toNat ≤ k → k < s.inLen.toNat →
      m.read Config.freeIbuf k = s.ibuf.read Config.freeIbuf k) →
    exec i s = .next t → exec i { s with ibuf := m } = .next { t with ibuf := m })

/-- R122: a table counted from a non-empty window has the five properties, passes BUILD, and lets the same window be
encoded without UnknownSymbolError. -/
def Obligations.CountedTablePassesBuild : Prop :=
  ∀ s : State, s.windowLegal = true → s.window ≠ [] →
    ∃ t, exec .count s = .next t ∧ CompletedOk t ∧ 1 ≤ t.nsym.toNat ∧ t.nsym.toNat ≤ min s.window.length 256 ∧
      (t.table.map FtEntry.sym).Nodup ∧ (∀ e ∈ t.table, 1 ≤ e.count.toNat) ∧
      (t.table.map (fun e => e.count.toNat)).sum = s.window.length ∧
      (∀ x, x ∈ s.window ↔ ∃ e ∈ t.table, e.sym = x) ∧
      ∃ u, exec .build t = .next u ∧ CompletedOk u ∧ u.mv = true ∧ (∀ x ∈ s.window, (u.ctAt x).valid = true) ∧
        ∀ a v, exec (.encode a) u = .next v → v.errcode ≠ HceError.unknownSymbol.code

/-! ### BUILD -/

/-- R140, R154: on a well-formed table BUILD completes, sets MV and leaves the model of that table (R38); it changes
nothing but NODE, CT, ROOT and MV. -/
def Obligations.BuildStoresTheModelOfItsTable : Prop :=
  ∀ s : State, TableOk s.table →
    ∃ t, exec .build s = .next t ∧ CompletedOk t ∧ t.mv = true ∧ t.HoldsModel ∧
      (t.degen = true ↔ s.nsym.toNat = 1) ∧ SameTable s t ∧ SameInput s t ∧ SameWindow s t ∧ SameOutput s t ∧
      t.seqLen = s.seqLen ∧ SameSurroundings s t

/-- R141, R252, R256: the checks of BUILD in their order with the detail word of each, and that BUILD succeeds when all
pass. -/
def Obligations.BuildRejectsIllFormedTables : Prop :=
  ∀ s : State,
    (s.nsym.toNat = 0 → BuildRejects s .emptyInput 0) ∧
    (256 < s.nsym.toNat → BuildRejects s .badTable 0x30000) ∧
    (1 ≤ s.nsym.toNat → s.nsym.toNat ≤ 256 →
      (∀ i, i < s.nsym.toNat → (∀ j, j < i → s.EntryAccepted j) →
        ((s.ftEntry i).count = 0 → BuildRejects s .badTable (BitVec.ofNat 32 (0x10000 + i))) ∧
        ((s.ftEntry i).count ≠ 0 → (∃ j, j < i ∧ (s.ftEntry j).sym = (s.ftEntry i).sym) →
          BuildRejects s .badTable (BitVec.ofNat 32 (0x20000 + i)))) ∧
      ((∀ i, i < s.nsym.toNat → s.EntryAccepted i) → ∃ t, exec .build s = .next t ∧ CompletedOk t ∧ t.mv = true))

/-- R152: BUILD is a function of the table alone: two BUILDs from equal tables end alike and leave equal models. -/
def Obligations.BuildIsDeterminedByTheTable : Prop :=
  ∀ s1 s2 t1 t2 : State, s1.table = s2.table → exec .build s1 = .next t1 → exec .build s2 = .next t2 →
    t1.mv = t2.mv ∧ t1.err = t2.err ∧ t1.errcode = t2.errcode ∧ t1.errinfo = t2.errinfo ∧
    (t1.mv = true → t1.root = t2.root ∧
      (∀ i, i < 2 * s1.nsym.toNat - 1 → t1.nodeAt i = t2.nodeAt i) ∧ ∀ x, t1.ctAt x = t2.ctAt x)

/-- R143, R144: on a non-empty queue extract-min removes the one member whose weight is least, and among those of that
weight the one of least index. -/
def Obligations.ExtractMinTakesTheLeastKey : Prop :=
  ∀ (nodes : List Node) (q : List Nat), q ≠ [] →
    ∃ m q', extractMin nodes q = some (m, q') ∧ m ∈ q ∧ q' = q.erase m ∧
      ∀ j ∈ q, j ≠ m → weightAt nodes m < weightAt nodes j ∨ (weightAt nodes m = weightAt nodes j ∧ m < j)

/-- R145, R146: with two or more members the merge step joins the least and then the least of the rest, first popped to
the left, and puts the new node in their place; with fewer there is no step. -/
def Obligations.MergeStepJoinsTheTwoLeast : Prop :=
  ∀ (nodes : List Node) (q : List Nat), q.Nodup →
    (q.length < 2 → mergeStep nodes q = none) ∧
    (2 ≤ q.length → ∃ a b q', a ∈ q ∧ b ∈ q ∧ a ≠ b ∧
      (∀ j ∈ q, j ≠ a → weightAt nodes a < weightAt nodes j ∨ (weightAt nodes a = weightAt nodes j ∧ a < j)) ∧
      (∀ j ∈ q, j ≠ a → j ≠ b → weightAt nodes b < weightAt nodes j ∨ (weightAt nodes b = weightAt nodes j ∧ b < j)) ∧
      mergeStep nodes q = some (nodes ++ [⟨false, 0, BitVec.ofNat 40 (weightAt nodes a + weightAt nodes b),
        BitVec.ofNat 9 a, BitVec.ofNat 9 b⟩], q') ∧
      q'.length + 1 = q.length ∧ ∀ j, j ∈ q' ↔ j = nodes.length ∨ (j ∈ q ∧ j ≠ a ∧ j ≠ b))

/-- R142, R145, R146, R153: the tree after BUILD: its leaves in table order, its internal nodes with both children below
them and the lighter to the left, every node but the root the child of exactly one, and the root's weight the sum of the
counts. -/
def Obligations.BuiltTreeIsFull : Prop :=
  ∀ s : State, TableOk s.table →
    ∃ t, exec .build s = .next t ∧ CompletedOk t ∧ t.root.toNat = 2 * s.nsym.toNat - 2 ∧
      (∀ i, i < s.nsym.toNat →
        t.nodeAt i = ⟨true, (s.ftEntry i).sym, (s.ftEntry i).count.setWidth 40, 0, 0⟩) ∧
      (∀ i, s.nsym.toNat ≤ i → i < 2 * s.nsym.toNat - 1 →
        (t.nodeAt i).leaf = false ∧ (t.nodeAt i).sym = 0 ∧
        (t.nodeAt i).left.toNat < i ∧ (t.nodeAt i).right.toNat < i ∧
        (t.nodeAt i).weight.toNat = (t.nodeAt (t.nodeAt i).left.toNat).weight.toNat +
          (t.nodeAt (t.nodeAt i).right.toNat).weight.toNat ∧
        ((t.nodeAt (t.nodeAt i).left.toNat).weight.toNat < (t.nodeAt (t.nodeAt i).right.toNat).weight.toNat ∨
          ((t.nodeAt (t.nodeAt i).left.toNat).weight.toNat = (t.nodeAt (t.nodeAt i).right.toNat).weight.toNat ∧
            (t.nodeAt i).left.toNat < (t.nodeAt i).right.toNat))) ∧
      (childIndices ((List.range (2 * s.nsym.toNat - 1)).map t.nodeAt)).Perm (List.range (2 * s.nsym.toNat - 2)) ∧
      (t.nodeAt t.root.toNat).weight.toNat = (s.table.map (fun e => e.count.toNat)).sum

/-- R151: after BUILD no codeword is a prefix of another; with one entry the codeword is empty, with two or more none is. -/
def Obligations.BuiltCodeIsPrefixFree : Prop :=
  ∀ s : State, TableOk s.table →
    ∃ t, exec .build s = .next t ∧ CompletedOk t ∧ t.mv = true ∧
      (∀ x y : Byte, x ≠ y → (t.ctAt x).valid = true → (t.ctAt y).valid = true →
        ¬ (t.ctAt x).code <+: (t.ctAt y).code) ∧
      (s.nsym.toNat = 1 → ∀ x, (t.ctAt x).valid = true → (t.ctAt x).code = []) ∧
      (2 ≤ s.nsym.toNat → ∀ x, (t.ctAt x).valid = true → 1 ≤ (t.ctAt x).code.length)

/-- R148, R149: the code table after BUILD: the symbols of the table and no others have codewords, N of them, each at most
N - 1 bits long and each the path from the root to the leaf of its symbol, on which no node before the last is a leaf. -/
def Obligations.CodeTableIsTheLeafPaths : Prop :=
  ∀ s : State, TableOk s.table →
    ∃ t, exec .build s = .next t ∧ CompletedOk t ∧
      (∀ x, (t.ctAt x).valid = true ↔ x ∈ s.table.map FtEntry.sym) ∧
      (∀ x, (t.ctAt x).valid = false → (t.ctAt x).code = []) ∧
      ((List.range 256).filter (fun n => (t.ctAt (BitVec.ofNat 8 n)).valid)).length = s.nsym.toNat ∧
      (∀ x, (t.ctAt x).valid = true →
        (t.ctAt x).code.length ≤ s.nsym.toNat - 1 ∧
        (t.nodeAt (follow t.nodeAt t.root.toNat (t.ctAt x).code)).leaf = true ∧
        (t.nodeAt (follow t.nodeAt t.root.toNat (t.ctAt x).code)).sym = x ∧
        ∀ k, k < (t.ctAt x).code.length →
          (t.nodeAt (follow t.nodeAt t.root.toNat ((t.ctAt x).code.take k))).leaf = false)

/-- R150: under a held model the inverse code table gives the one symbol whose codeword the bit string is, and in terms of
the tree it is defined exactly when the string leads from the root to a leaf and meets no leaf before. -/
def Obligations.InverseCodeFollowsTheTree : Prop :=
  ∀ s : State, s.HoldsModel → ∀ (c : Bits) (x : Byte),
    (inverseCode s.ctAt c = some x ↔ (s.ctAt x).valid = true ∧ (s.ctAt x).code = c) ∧
    (inverseCode s.ctAt c = some x ↔
      (s.nodeAt (follow s.nodeAt s.root.toNat c)).leaf = true ∧
      (s.nodeAt (follow s.nodeAt s.root.toNat c)).sym = x ∧
      ∀ k, k < c.length → (s.nodeAt (follow s.nodeAt s.root.toNat (c.take k))).leaf = false)

/-- R147: a table of one entry gives a single leaf, which is the root, and the empty codeword. -/
def Obligations.SingleEntryModelIsDegenerate : Prop :=
  ∀ s : State, s.nsym.toNat = 1 → (s.ftEntry 0).count ≠ 0 →
    ∃ t, exec .build s = .next t ∧ CompletedOk t ∧ t.mv = true ∧ t.root = 0 ∧ t.degen = true ∧
      t.statusWord.getLsbD 4 = true ∧
      t.nodeAt 0 = ⟨true, (s.ftEntry 0).sym, (s.ftEntry 0).count.setWidth 40, 0, 0⟩ ∧
      t.ctAt (s.ftEntry 0).sym = ⟨true, []⟩ ∧ (t.ctAt (s.ftEntry 0).sym).len = 0 ∧
      ∀ x, x ≠ (s.ftEntry 0).sym → t.ctAt x = ⟨false, []⟩

/-! ### ENCODE -/

/-- R170, R172, R174 to R177: ENCODE and ENCODE.A of a window whose symbols all have codewords, where the stream fits:
the padding count at the base, then the codewords in order and the padding, most significant bit first; OUT_LEN and
SEQ_LEN; and what stays. -/
def Obligations.EncodeWritesThePackedStream : Prop :=
  ∀ (s : State) (a : Bool) (D : Bits), s.mv = true → s.windowLegal = true →
    (∀ x ∈ s.window, (s.ctAt x).valid = true) → D = s.window.flatMap (fun x => (s.ctAt x).code) →
    s.encodeBase a + 2 + D.length / 8 ≤ s.params.bufBytes →
    s.encodeBase a = (if a then s.outLen.toNat else 0) ∧
    ∃ t, exec (.encode a) s = .next t ∧ CompletedOk t ∧ t.outLen.toNat = s.encodeBase a + 2 + D.length / 8 ∧
      (t.obufAt (s.encodeBase a)).toNat = 8 - D.length % 8 ∧
      bitsOf ((List.range' (s.encodeBase a + 1) (1 + D.length / 8)).map t.obufAt) =
        D ++ List.replicate (8 - D.length % 8) false ∧
      (∀ k, k < s.encodeBase a → t.obufAt k = s.obufAt k) ∧
      t.seqLen.toNat = s.inLen.toNat - s.inOff.toNat ∧ SameTable s t ∧ SameModel s t ∧ SameInput s t ∧
      SameWindow s t ∧ SameSurroundings s t

/-- R173, R253: ENCODE reports the IBUF index of the first symbol of the window without a codeword, before it looks at the
length of the output. -/
def Obligations.EncodeReportsTheFirstUnknownSymbol : Prop :=
  ∀ (s : State) (a : Bool) (k : Nat), s.mv = true → s.windowLegal = true → s.inOff.toNat ≤ k → k < s.inLen.toNat →
    (s.ctAt (s.ibufAt k)).valid = false →
    (∀ j, s.inOff.toNat ≤ j → j < k → (s.ctAt (s.ibufAt j)).valid = true) →
    EncodeFails a s .unknownSymbol (BitVec.ofNat 32 k)

/-- R70, R170, R257: ENCODE of a stream that passes the end of OBUF is RangeError(2). -/
def Obligations.EncodeOverflowIsRangeError : Prop :=
  ∀ (s : State) (a : Bool), s.mv = true → s.windowLegal = true → (∀ x ∈ s.window, (s.ctAt x).valid = true) →
    s.params.bufBytes < s.encodeBase a + 2 + (s.window.flatMap (fun x => (s.ctAt x).code)).length / 8 →
    EncodeFails a s .range 2

/-- R258: without a valid model ENCODE and DECODE raise NoModelError, whatever else holds, and change nothing. -/
def Obligations.EncodeAndDecodeNeedAModel : Prop :=
  ∀ (s : State) (i : Instr), i = .decode ∨ (∃ a, i = .encode a) → s.mv = false →
    ∃ t, exec i s = .next t ∧ CompletedWith .noModel 0 t ∧ t.errcode = 7 ∧ Unchanged s t

/-- R174 to R176, R178: the length law of the stream, its header, its zero padding, and that removing both restores the
bits. -/
def Obligations.PackedStreamLaw : Prop :=
  ∀ d : Bits, (packStream d).length = 2 + d.length / 8 ∧ 8 * (packStream d).length = 8 + d.length + (8 - d.length % 8) ∧
    ∃ h body, packStream d = h :: body ∧ h.toNat = 8 - d.length % 8 ∧
      bitsOf body = d ++ List.replicate (8 - d.length % 8) false ∧ dataBits body h.toNat = d ∧
      ∃ last, (packStream d).getLast? = some last ∧ (∀ k, k < 8 - d.length % 8 → last.getLsbD k = false) ∧
        (d.length % 8 = 0 → last = 0)

/-! ### DECODE -/

/-- R195 to R197: in a non-degenerate model the tree walk that DECODE runs computes the scan: the same symbols, the cursor
at the node the accumulator leads to, at the root exactly when the accumulator is empty; and the accumulator is always a
proper prefix of some codeword, shorter than 255 bits. -/
def Obligations.TreeWalkComputesTheScan : Prop :=
  ∀ (s : State) (data acc : Bits) (out : List Byte), s.HoldsModel → 2 ≤ s.nsym.toNat →
    scan (inverseCode s.ctAt) [] data = (out, acc) →
    walk s.nodeAt s.root.toNat s.root.toNat data = (out, follow s.nodeAt s.root.toNat acc) ∧
      (acc = [] ↔ follow s.nodeAt s.root.toNat acc = s.root.toNat) ∧ acc.length < 255 ∧
      ∃ x, (s.ctAt x).valid = true ∧ acc <+: (s.ctAt x).code ∧ acc ≠ (s.ctAt x).code

/-- R190, R192, R193, R195, R199: DECODE of a well-formed stream under a non-degenerate model delivers the symbols of the
scan, and nothing else changes. -/
def Obligations.DecodeDeliversTheScannedSymbols : Prop :=
  ∀ (s : State) (header : Byte) (body : List Byte), s.mv = true → s.HoldsModel → 2 ≤ s.nsym.toNat →
    s.windowLegal = true → s.window = header :: body → header.toNat ≤ 8 * body.length →
    (scan (inverseCode s.ctAt) [] ((bitsOf body).take (8 * body.length - header.toNat))).2 = [] →
    (scan (inverseCode s.ctAt) [] ((bitsOf body).take (8 * body.length - header.toNat))).1.length ≤ s.params.bufBytes →
    ∃ t, exec .decode s = .next t ∧ CompletedOk t ∧
      t.outputBytes = (scan (inverseCode s.ctAt) [] ((bitsOf body).take (8 * body.length - header.toNat))).1 ∧
      SameTable s t ∧ SameModel s t ∧ SameInput s t ∧ SameWindow s t ∧ t.seqLen = s.seqLen ∧ SameSurroundings s t

/-- R254: the four causes of MalformedStreamError, each with its detail word, and what it leaves. -/
def Obligations.DecodeRejectsMalformedStreams : Prop :=
  ∀ s : State, s.mv = true → s.windowLegal = true →
    (s.window = [] → DecodeFails s .malformedStream 1) ∧
    ∀ (header : Byte) (body : List Byte), s.window = header :: body →
      (8 * body.length < header.toNat → DecodeFails s .malformedStream 2) ∧
      (header.toNat ≤ 8 * body.length → s.HoldsModel → 2 ≤ s.nsym.toNat →
        (scan (inverseCode s.ctAt) [] ((bitsOf body).take (8 * body.length - header.toNat))).2 ≠ [] →
        DecodeFails s .malformedStream 3) ∧
      (header.toNat < 8 * body.length → s.degen = true → DecodeFails s .malformedStream 4)

/-- R198: a degenerate model with no data bits gives SEQ_LEN copies of the one symbol, and SEQ_LEN = 0 gives the empty
output. -/
def Obligations.DegenerateDecodeRepeatsTheSymbol : Prop :=
  ∀ (s : State) (header : Byte) (body : List Byte), s.mv = true → s.root = 0 → s.windowLegal = true →
    s.window = header :: body → header.toNat = 8 * body.length → s.seqLen.toNat ≤ s.params.bufBytes →
    ∃ t, exec .decode s = .next t ∧ CompletedOk t ∧
      t.outputBytes = List.replicate s.seqLen.toNat (s.nodeAt 0).sym ∧ t.outLen = s.seqLen ∧
      SameTable s t ∧ SameModel s t ∧ SameInput s t ∧ SameWindow s t ∧ t.seqLen = s.seqLen ∧ SameSurroundings s t

/-- R203: an output longer than OBUF is RangeError(2), after the malformed-stream checks have passed: in the general scan
and in the degenerate path. -/
def Obligations.DecodeOverflowIsRangeError : Prop :=
  ∀ (s : State) (header : Byte) (body : List Byte), s.mv = true → s.windowLegal = true → s.window = header :: body →
    (header.toNat ≤ 8 * body.length → s.HoldsModel → 2 ≤ s.nsym.toNat →
      (scan (inverseCode s.ctAt) [] ((bitsOf body).take (8 * body.length - header.toNat))).2 = [] →
      s.params.bufBytes <
        (scan (inverseCode s.ctAt) [] ((bitsOf body).take (8 * body.length - header.toNat))).1.length →
      DecodeFails s .range 2) ∧
    (header.toNat = 8 * body.length → s.degen = true → s.params.bufBytes < s.seqLen.toNat → DecodeFails s .range 2)

/-- R204: what ENCODE wrote without error, DECODE reads back under the same model with SEQ_LEN as ENCODE left it,
degenerate or not, empty or not. -/
def Obligations.EncodeThenDecodeRoundTrip : Prop :=
  ∀ (s t u : State) (a : Bool), s.mv = true → s.HoldsModel → exec (.encode a) s = .next t → t.err = false →
    SameTable s u → SameModel s u → u.params = s.params → u.windowLegal = true →
    u.window = t.outputBytes.drop (s.encodeBase a) → u.seqLen = t.seqLen →
    ∃ v, exec .decode u = .next v ∧ CompletedOk v ∧ v.outputBytes = s.window

/-! ### FTSER and FTPARSE -/

/-- R220, R221, R256: FTSER writes the section byte by byte at OBUF index 0; more than 256 entries is BadTableError kind 3
with nothing changed. -/
def Obligations.FtserWritesTheSection : Prop :=
  ∀ s : State,
    (s.nsym.toNat ≤ 256 → ∃ t, exec .ftser s = .next t ∧ CompletedOk t ∧
      t.outLen.toNat = 2 + 5 * s.nsym.toNat ∧ (t.obufAt 0).toNat = s.nsym.toNat / 256 ∧
      (t.obufAt 1).toNat = s.nsym.toNat % 256 ∧
      (∀ i, i < s.nsym.toNat → t.obufAt (2 + 5 * i) = (s.ftEntry i).sym ∧
        t.obufAt (3 + 5 * i) = (s.ftEntry i).count.extractLsb' 24 8 ∧
        t.obufAt (4 + 5 * i) = (s.ftEntry i).count.extractLsb' 16 8 ∧
        t.obufAt (5 + 5 * i) = (s.ftEntry i).count.extractLsb' 8 8 ∧
        t.obufAt (6 + 5 * i) = (s.ftEntry i).count.extractLsb' 0 8) ∧
      SameTable s t ∧ SameModel s t ∧ SameInput s t ∧ SameWindow s t ∧ t.seqLen = s.seqLen ∧ SameSurroundings s t) ∧
    (256 < s.nsym.toNat → ∃ t, exec .ftser s = .next t ∧ CompletedWith .badTable 0x30000 t ∧ Unchanged s t)

/-- R223, R225: FTPARSE of a section that fits its window: the table read, IN_OFF past the section, and what stays. -/
def Obligations.FtparseReadsTheSection : Prop :=
  ∀ (s : State) (N : Nat), s.windowLegal = true → s.inOff.toNat + 2 ≤ s.inLen.toNat →
    N = (s.ibufAt s.inOff.toNat).toNat * 256 + (s.ibufAt (s.inOff.toNat + 1)).toNat → N ≤ 256 →
    s.inOff.toNat + 2 + 5 * N ≤ s.inLen.toNat →
    ∃ t, exec .ftparse s = .next t ∧ CompletedOk t ∧ t.nsym.toNat = N ∧ t.mv = false ∧
      (∀ i, i < N → (t.ftEntry i).sym = s.ibufAt (s.inOff.toNat + 2 + 5 * i) ∧
        (t.ftEntry i).count = s.ibufAt (s.inOff.toNat + 3 + 5 * i) ++ s.ibufAt (s.inOff.toNat + 4 + 5 * i) ++
          s.ibufAt (s.inOff.toNat + 5 + 5 * i) ++ s.ibufAt (s.inOff.toNat + 6 + 5 * i)) ∧
      t.inOff.toNat = s.inOff.toNat + 2 + 5 * N ∧ t.inOff.toNat ≤ t.inLen.toNat ∧ t.inLen = s.inLen ∧
      t.root = s.root ∧ (∀ i, t.nodeAt i = s.nodeAt i) ∧ (∀ x, t.ctAt x = s.ctAt x) ∧ SameInput s t ∧
      SameOutput s t ∧ t.seqLen = s.seqLen ∧ SameSurroundings s t

/-- R224, R255: the three causes of FormatVersionError in their order, with their detail words and nothing changed. -/
def Obligations.FtparseRejectsTruncatedSections : Prop :=
  ∀ (s : State) (N : Nat), s.windowLegal = true →
    N = (s.ibufAt s.inOff.toNat).toNat * 256 + (s.ibufAt (s.inOff.toNat + 1)).toNat →
    (s.inLen.toNat < s.inOff.toNat + 2 →
      ∃ t, exec .ftparse s = .next t ∧ CompletedWith .formatVersion 1 t ∧ Unchanged s t) ∧
    (s.inOff.toNat + 2 ≤ s.inLen.toNat → 256 < N →
      ∃ t, exec .ftparse s = .next t ∧ CompletedWith .formatVersion 2 t ∧ Unchanged s t) ∧
    (s.inOff.toNat + 2 ≤ s.inLen.toNat → N ≤ 256 → s.inLen.toNat < s.inOff.toNat + 2 + 5 * N →
      ∃ t, exec .ftparse s = .next t ∧ CompletedWith .formatVersion 3 t ∧ Unchanged s t)

/-- R228: FTPARSE of what FTSER wrote, with a stream behind it, restores the table and leaves the window on the stream;
BUILD then makes the identical model. -/
def Obligations.SectionRoundTrip : Prop :=
  ∀ (s t u : State) (stream : List Byte), s.nsym.toNat ≤ 256 → exec .ftser s = .next t → u.windowLegal = true →
    u.window = t.outputBytes ++ stream →
    ∃ v, exec .ftparse u = .next v ∧ CompletedOk v ∧ v.nsym = s.nsym ∧ v.table = s.table ∧ v.window = stream ∧
      ∀ b1 b2, exec .build s = .next b1 → exec .build v = .next b2 →
        b1.mv = b2.mv ∧ (b1.mv = true → b1.root = b2.root ∧
          (∀ i, i < 2 * s.nsym.toNat - 1 → b1.nodeAt i = b2.nodeAt i) ∧ ∀ x, b1.ctAt x = b2.ctAt x)

/-! ### The whole machine -/

/-- R26, R36, R43: no command writes IBUF, the latch, the parameters or the host's side, and CLEAR alone writes IN_LEN. -/
def Obligations.CommandsNeverWriteTheInput : Prop :=
  ∀ (i : Instr) (s t : State), exec i s = .next t →
    SameInput s t ∧ SameSurroundings s t ∧ (i ≠ .clear → t.inLen = s.inLen) ∧
      (i ≠ .clear → i ≠ .ftparse → t.inOff = s.inOff)

/-- R23, R38: MV is set by a successful BUILD and by nothing else the machine does; and while it stays set, FT and NSYM
read as before. -/
def Obligations.OnlyBuildSetsModelValid : Prop :=
  ∀ s t : State, step s = .next t → t.mv = true →
    (s.mv = true ∨ (s.phase = .run ∧ decodeCmd s.cmdlatch = .ok .build ∧ t.err = false)) ∧ SameTable s t

/-- R262: the state after an error, command by command. -/
def Obligations.StateAfterAnError : Prop :=
  (∀ s t : State, (∀ i, decodeCmd s.cmdlatch ≠ .ok i) → runCommand s = .next t → Unchanged s t) ∧
  (∀ (i : Instr) (s t : State), exec i s = .next t → t.err = true →
    SameTable s t ∧ SameInput s t ∧ SameWindow s t ∧ t.seqLen = s.seqLen ∧ SameSurroundings s t ∧
    match i with
    | .clear => False
    | .count => Unchanged s t
    | .build => t.mv = false ∧ SameOutput s t
    | .encode a => SameModel s t ∧
        ((t.errcode = 7 ∨ (t.errcode = 6 ∧ t.errinfo = 1) → Unchanged s t) ∧
          (t.errcode = 2 ∨ (t.errcode = 6 ∧ t.errinfo = 2) →
            t.outLen = (if a then s.outLen else 0) ∧
              ∀ k, k < (if a then s.outLen.toNat else 0) → t.obufAt k = s.obufAt k))
    | .decode => SameModel s t ∧
        ((t.errcode = 7 ∨ (t.errcode = 6 ∧ t.errinfo = 1) → Unchanged s t) ∧
          (t.errcode = 3 ∨ (t.errcode = 6 ∧ t.errinfo = 2) → t.outLen = 0))
    | .ftser => Unchanged s t
    | .ftparse => Unchanged s t)
end

