-- ==== Sys2Proof/Laws/Bits.lean ====
section
/-! SUPPORT. The laws of bits and bytes: packing and unpacking are inverse, and so are the big-endian fields. -/

namespace Sys2Proof.Machine

@[simp] theorem length_bits8 (b : Byte) : (bits8 b).length = 8 := rfl

@[simp] theorem length_zeros (n : Nat) : (zeros n).length = n := by simp [zeros]

/-- `pack8` inverts `bits8` (R10). -/
@[simp] theorem pack8_bits8 (b : Byte) : pack8 (bits8 b) = b := by
  revert b; decide +kernel

/-- `bits8` inverts `pack8` on eight bits (R10). -/
theorem bits8_pack8 (a b c d e f g h : Bool) :
    bits8 (pack8 [a, b, c, d, e, f, g, h]) = [a, b, c, d, e, f, g, h] := by
  revert a b c d e f g h; decide +kernel

@[simp] theorem bitsOf_nil : bitsOf [] = [] := rfl

@[simp] theorem bitsOf_cons (b : Byte) (w : List Byte) : bitsOf (b :: w) = bits8 b ++ bitsOf w := rfl

@[simp] theorem length_bitsOf (w : List Byte) : (bitsOf w).length = 8 * w.length := by
  induction w with
  | nil => rfl
  | cons b w ih => simp [ih]; omega

@[simp] theorem bytesOf_nil : bytesOf [] = [] := rfl

/-- The first eight bits make the first byte. -/
theorem bytesOf_bits8_append (b : Byte) (s : Bits) : bytesOf (bits8 b ++ s) = b :: bytesOf s := by
  have h := pack8_bits8 b
  simp only [bits8] at h ⊢
  simp only [List.cons_append, List.nil_append, bytesOf, h]

/-- Packing the bits of bytes gives the bytes back. -/
@[simp] theorem bytesOf_bitsOf (w : List Byte) : bytesOf (bitsOf w) = w := by
  induction w with
  | nil => rfl
  | cons b w ih => rw [bitsOf_cons, bytesOf_bits8_append, ih]

/-- Whole bytes: packing loses nothing and makes one byte of every eight bits (R176). -/
theorem bytesOf_spec (n : Nat) (s : Bits) (h : s.length = 8 * n) :
    (bytesOf s).length = n ∧ bitsOf (bytesOf s) = s := by
  induction n generalizing s with
  | zero =>
    obtain rfl : s = [] := List.length_eq_zero_iff.1 (by simpa using h)
    exact ⟨rfl, rfl⟩
  | succ n ih =>
    match s, h with
    | a :: b :: c :: d :: e :: f :: g :: i :: rest, h =>
      have hr : rest.length = 8 * n := by simp only [List.length_cons] at h; omega
      obtain ⟨h1, h2⟩ := ih rest hr
      refine ⟨by simp [bytesOf, h1], ?_⟩
      simp only [bytesOf, bitsOf_cons, bits8_pack8, h2]
      rfl

/-! ### Big-endian fields -/

/-- `be16` inverts `tobe16` (R10, R64). -/
theorem be16_toBe16 (n : Nat) (h : n < 65536) (rest : List Byte) : be16 (toBe16 n ++ rest) 0 = n := by
  simp only [be16, toBe16, byteAt, List.cons_append, List.nil_append, List.getD_cons_zero, List.getD_cons_succ,
    BitVec.toNat_ofNat]
  omega

/-- The four bytes of a big-endian field number what was written (R10, R64). -/
theorem toBe32_value (n : Nat) (h : n < 2 ^ 32) :
    (BitVec.ofNat 8 (n / 2 ^ 24)).toNat * 2 ^ 24 + (BitVec.ofNat 8 (n / 2 ^ 16)).toNat * 2 ^ 16
      + (BitVec.ofNat 8 (n / 2 ^ 8)).toNat * 2 ^ 8 + (BitVec.ofNat 8 n).toNat = n := by
  simp only [BitVec.toNat_ofNat]
  omega

@[simp] theorem length_toBe16 (n : Nat) : (toBe16 n).length = 2 := rfl

@[simp] theorem length_toBe32 (n : Nat) : (toBe32 n).length = 4 := rfl

end Sys2Proof.Machine
end

