-- ==== Sys2Proof/Laws/Queue.lean ====
section
/-! SUPPORT. The laws of the priority order and of extract-min (41_model_builder.md R143, R144). -/

namespace Sys2Proof.Machine

/-- The order of R143 as a proposition. -/
theorem keyBefore_iff (nodes : List Node) (i j : Nat) :
    keyBefore nodes i j = true ↔
      weightAt nodes i < weightAt nodes j ∨ (weightAt nodes i = weightAt nodes j ∧ i < j) := by
  simp [keyBefore]

/-- The order is total on distinct indices. -/
theorem keyBefore_total {nodes : List Node} {i j : Nat} (h : i ≠ j) :
    keyBefore nodes i j = true ∨ keyBefore nodes j i = true := by
  simp only [keyBefore_iff]; omega

/-- The order is transitive. -/
theorem keyBefore_trans {nodes : List Node} {i j k : Nat} (h1 : keyBefore nodes i j = true)
    (h2 : keyBefore nodes j k = true) : keyBefore nodes i k = true := by
  simp only [keyBefore_iff] at *; omega

/-- No node comes before itself. -/
theorem keyBefore_irrefl (nodes : List Node) (i : Nat) : keyBefore nodes i i = false := by
  simp [keyBefore]

theorem leastKey_mem (nodes : List Node) (m : Nat) (q : List Nat) : leastKey nodes m q ∈ m :: q := by
  induction q generalizing m with
  | nil => simp [leastKey]
  | cons j q ih =>
    simp only [leastKey]
    by_cases hk : keyBefore nodes j m
    · have h := ih j
      simp only [hk, if_true, List.mem_cons] at h ⊢; tauto
    · have h := ih m
      simp only [hk, Bool.false_eq_true, if_false, List.mem_cons] at h ⊢; tauto

/-- `leastKey` comes before every other candidate. -/
theorem leastKey_before (nodes : List Node) (m : Nat) (q : List Nat) :
    ∀ j ∈ m :: q, j ≠ leastKey nodes m q → keyBefore nodes (leastKey nodes m q) j = true := by
  induction q generalizing m with
  | nil => intro j hj hne; simp [leastKey] at hj hne; omega
  | cons k q ih =>
    intro j hj hne
    simp only [leastKey] at hne ⊢
    by_cases hk : keyBefore nodes k m
    · simp only [hk, if_true] at hne ⊢
      rcases List.mem_cons.1 hj with rfl | hj'
      · by_cases e : k = leastKey nodes k q
        · rw [← e]; exact hk
        · exact keyBefore_trans (ih k k (by simp) e) hk
      · exact ih k j hj' hne
    · simp only [hk, Bool.false_eq_true, if_false] at hne ⊢
      rcases List.mem_cons.1 hj with rfl | hj'
      · exact ih j j (by simp) hne
      · rcases List.mem_cons.1 hj' with rfl | hj''
        · by_cases e : m = leastKey nodes m q
          · have hmj : m ≠ j := fun h => hne (h ▸ e)
            rcases keyBefore_total (nodes := nodes) hmj with h | h
            · rw [← e]; exact h
            · exact absurd h hk
          · have h1 := ih m m (by simp) e
            by_cases hmj : m = j
            · subst hmj; exact h1
            · rcases keyBefore_total (nodes := nodes) hmj with h | h
              · exact keyBefore_trans h1 h
              · exact absurd h hk
        · exact ih m j (by simp [hj'']) hne

/-- All that extract-min does (R144). -/
theorem extractMin_spec {nodes : List Node} {q q' : List Nat} {m : Nat}
    (h : extractMin nodes q = some (m, q')) :
    m ∈ q ∧ q' = q.erase m ∧ ∀ j ∈ q, j ≠ m → keyBefore nodes m j = true := by
  cases q with
  | nil => simp [extractMin] at h
  | cons i q =>
    simp only [extractMin, Option.some.injEq, Prod.mk.injEq] at h
    obtain ⟨rfl, rfl⟩ := h
    exact ⟨leastKey_mem nodes i q, rfl, leastKey_before nodes i q⟩

theorem extractMin_none {nodes : List Node} {q : List Nat} : extractMin nodes q = none ↔ q = [] := by
  cases q <;> simp [extractMin]

/-- A non-empty queue has its least member extracted. -/
theorem extractMin_isSome {nodes : List Node} {q : List Nat} (h : q ≠ []) :
    ∃ m q', extractMin nodes q = some (m, q') := by
  cases q with
  | nil => exact absurd rfl h
  | cons i q => exact ⟨_, _, rfl⟩

/-- All that a merge step does (R145). -/
theorem mergeStep_spec {nodes nodes' : List Node} {q q' : List Nat} (h : mergeStep nodes q = some (nodes', q')) :
    ∃ a b, a ∈ q ∧ b ∈ q.erase a ∧ nodes' = nodes ++ [internalOf nodes a b] ∧
      q' = (q.erase a).erase b ++ [nodes.length] ∧
      (∀ j ∈ q, j ≠ a → keyBefore nodes a j = true) ∧
      (∀ j ∈ q.erase a, j ≠ b → keyBefore nodes b j = true) := by
  unfold mergeStep at h
  cases h1 : extractMin nodes q with
  | none => simp [h1] at h
  | some p =>
    obtain ⟨a, q1⟩ := p
    simp only [h1] at h
    cases h2 : extractMin nodes q1 with
    | none => simp [h2] at h
    | some p =>
      obtain ⟨b, q2⟩ := p
      simp only [h2, Option.some.injEq, Prod.mk.injEq] at h
      obtain ⟨ha, rfl, hamin⟩ := extractMin_spec h1
      obtain ⟨hb, rfl, hbmin⟩ := extractMin_spec h2
      exact ⟨a, b, ha, hb, h.1.symm, h.2.symm, hamin, hbmin⟩

/-- A merge step happens exactly while two members remain (R145, R146). -/
theorem mergeStep_none_iff {nodes : List Node} {q : List Nat} : mergeStep nodes q = none ↔ q.length ≤ 1 := by
  unfold mergeStep
  cases h1 : extractMin nodes q with
  | none => simp [extractMin_none.1 h1]
  | some p =>
    obtain ⟨a, q1⟩ := p
    obtain ⟨ha, rfl, -⟩ := extractMin_spec h1
    have hl := List.length_erase_of_mem ha
    have hpos := List.length_pos_of_mem ha
    cases h2 : extractMin nodes (q.erase a) with
    | none =>
      have h3 := extractMin_none.1 h2
      rw [h3] at hl
      simp only [List.length_nil] at hl
      exact iff_of_true (by simp only [h2]) (by omega)
    | some p =>
      obtain ⟨hb, -, -⟩ := extractMin_spec h2
      have hb2 := List.length_pos_of_mem hb
      exact iff_of_false (by simp [h2]) (by omega)

end Sys2Proof.Machine
end

