-- ==== Sys2Proof/Laws/Tree.lean ====
section
/-! SUPPORT. The laws of the tree BUILD makes and of the codewords derived from it (41_model_builder.md R145 to R153). -/

namespace Sys2Proof.Machine

/-! ### Deriving codewords -/

/-- The children of every internal node have lower indices (R153). -/
def Closed (nodes : List Node) : Prop :=
  ∀ (i : Nat) (e : Node), nodes[i]? = some e → e.leaf = false → e.left.toNat < i ∧ e.right.toNat < i

/-- The leaves below a node with the path to each. -/
def codesAt (nodes : List Node) (i : Nat) : List (Byte × Bits) := derive nodes (i + 1) i []

/-- A path in front goes in front of every codeword. -/
theorem derive_path (nodes : List Node) (f i : Nat) (path : Bits) :
    derive nodes f i path = (derive nodes f i []).map (fun p => (p.1, path ++ p.2)) := by
  induction f generalizing i path with
  | zero => rfl
  | succ f ih =>
    simp only [derive]
    cases nodes[i]? with
    | none => rfl
    | some e =>
      cases hl : e.leaf with
      | true => simp [hl]
      | false =>
        simp only [hl, Bool.false_eq_true, if_false, List.nil_append]
        rw [ih e.left.toNat (path ++ [false]), ih e.right.toNat (path ++ [true]), ih e.left.toNat [false],
          ih e.right.toNat [true]]
        simp [Function.comp_def]

/-- Fuel above the index is enough. -/
theorem derive_fuel {nodes : List Node} (hc : Closed nodes) (f i : Nat) (path : Bits) (h : i < f) :
    derive nodes f i path = derive nodes (i + 1) i path := by
  induction f using Nat.strong_induction_on generalizing i path with
  | _ f ih =>
    cases f with
    | zero => omega
    | succ f =>
      simp only [derive]
      cases hn : nodes[i]? with
      | none => rfl
      | some e =>
        cases hl : e.leaf with
        | true => simp [hl]
        | false =>
          obtain ⟨h1, h2⟩ := hc i e hn hl
          simp only [hl, Bool.false_eq_true, if_false]
          by_cases hfi : f = i
          · rw [hfi]
          · have hi : i < f := by omega
            rw [ih f (by omega) _ _ (show e.left.toNat < f by omega), ih f (by omega) _ _ (show e.right.toNat < f by omega),
              ih i (by omega) _ (path ++ [false]) h1, ih i (by omega) _ (path ++ [true]) h2]

theorem codesAt_leaf {nodes : List Node} {i : Nat} {e : Node} (hn : nodes[i]? = some e) (hl : e.leaf = true) :
    codesAt nodes i = [(e.sym, [])] := by
  simp [codesAt, derive, hn, hl]

/-- The codewords below an internal node: 0 before those of the left child, 1 before those of the right (R148). -/
theorem codesAt_internal {nodes : List Node} (hc : Closed nodes) {i : Nat} {e : Node} (hn : nodes[i]? = some e)
    (hl : e.leaf = false) :
    codesAt nodes i = (codesAt nodes e.left.toNat).map (fun p => (p.1, false :: p.2)) ++
      (codesAt nodes e.right.toNat).map (fun p => (p.1, true :: p.2)) := by
  obtain ⟨h1, h2⟩ := hc i e hn hl
  unfold codesAt
  conv_lhs => simp only [derive, hn, hl, Bool.false_eq_true, if_false, List.nil_append]
  rw [derive_fuel hc i _ [false] h1, derive_fuel hc i _ [true] h2, derive_path _ _ _ [false], derive_path _ _ _ [true]]
  rfl

theorem codesOf_eq_codesAt {nodes : List Node} (hc : Closed nodes) {root : Nat} (h : root < nodes.length) :
    codesOf nodes root = codesAt nodes root := derive_fuel hc _ _ _ h

/-- Nodes added above change no codeword below. -/
theorem codesAt_append {nodes : List Node} (hc : Closed nodes) (extra : List Node) (i : Nat) (h : i < nodes.length)
    (hc' : Closed (nodes ++ extra)) : codesAt (nodes ++ extra) i = codesAt nodes i := by
  induction i using Nat.strong_induction_on with
  | _ i ih =>
    have hn : (nodes ++ extra)[i]? = nodes[i]? := List.getElem?_append_left h
    obtain ⟨e, he⟩ : ∃ e, nodes[i]? = some e := ⟨nodes[i], by simp [h]⟩
    cases hl : e.leaf with
    | true => rw [codesAt_leaf he hl, codesAt_leaf (hn.trans he) hl]
    | false =>
      obtain ⟨h1, h2⟩ := hc i e he hl
      rw [codesAt_internal hc he hl, codesAt_internal hc' (hn.trans he) hl, ih _ h1 (by omega), ih _ h2 (by omega)]

/-- Two bit strings neither of which is a prefix of the other. -/
def Unrelated (c d : Bits) : Prop := ¬ c <+: d ∧ ¬ d <+: c

/-- The codewords below a node are prefix-free (R151). -/
theorem codesAt_prefix_free {nodes : List Node} (hc : Closed nodes) (i : Nat) :
    (codesAt nodes i).Pairwise (fun p q => Unrelated p.2 q.2) := by
  induction i using Nat.strong_induction_on with
  | _ i ih =>
    cases hn : nodes[i]? with
    | none => simp [codesAt, derive, hn]
    | some e =>
      cases hl : e.leaf with
      | true => simp [codesAt_leaf hn hl]
      | false =>
        obtain ⟨h1, h2⟩ := hc i e hn hl
        rw [codesAt_internal hc hn hl, List.pairwise_append]
        refine ⟨?_, ?_, ?_⟩
        · rw [List.pairwise_map]
          exact (ih _ h1).imp (fun h => by simpa [Unrelated] using h)
        · rw [List.pairwise_map]
          exact (ih _ h2).imp (fun h => by simpa [Unrelated] using h)
        · intro p hp q hq
          obtain ⟨p', -, rfl⟩ := List.mem_map.1 hp
          obtain ⟨q', -, rfl⟩ := List.mem_map.1 hq
          simp [Unrelated]

/-- A codeword has fewer bits than there are leaves below its node (R156). -/
theorem codesAt_length {nodes : List Node} (hc : Closed nodes) (i : Nat) {p : Byte × Bits} (hp : p ∈ codesAt nodes i)
    (hne : ∀ j < nodes.length, codesAt nodes j ≠ []) (hbound : ∀ (j : Nat) (e : Node), nodes[j]? = some e → e.leaf = false →
      e.left.toNat < nodes.length ∧ e.right.toNat < nodes.length) :
    p.2.length + 1 ≤ (codesAt nodes i).length := by
  induction i using Nat.strong_induction_on generalizing p with
  | _ i ih =>
    cases hn : nodes[i]? with
    | none => simp [codesAt, derive, hn] at hp
    | some e =>
      cases hl : e.leaf with
      | true =>
        rw [codesAt_leaf hn hl] at hp ⊢
        simp only [List.mem_singleton] at hp
        simp [hp]
      | false =>
        obtain ⟨h1, h2⟩ := hc i e hn hl
        obtain ⟨b1, b2⟩ := hbound i e hn hl
        have l1 := List.length_pos_iff.2 (hne _ b1)
        have l2 := List.length_pos_iff.2 (hne _ b2)
        rw [codesAt_internal hc hn hl] at hp ⊢
        simp only [List.length_append, List.length_map]
        rcases List.mem_append.1 hp with hp | hp
        · obtain ⟨q, hq, rfl⟩ := List.mem_map.1 hp
          have := ih _ h1 hq
          simp only [List.length_cons]; omega
        · obtain ⟨q, hq, rfl⟩ := List.mem_map.1 hp
          have := ih _ h2 hq
          simp only [List.length_cons]; omega

/-! ### The merge -/

/-- What holds of the nodes and the queue at every turn of the merge loop on a table. -/
structure Grown (t : List FtEntry) (nodes : List Node) (q : List Nat) : Prop where
  /-- Each merge adds a node and takes one from the queue (R146). -/
  size : nodes.length + q.length = 2 * t.length
  /-- The first nodes are the leaves in table order (R142). -/
  leaves : ∀ i, (h : i < t.length) → nodes[i]? = some (leafOf t[i])
  /-- Every other node is internal: its children lie below it, the left one first in the order (R145). -/
  internals : ∀ i, t.length ≤ i → i < nodes.length → ∃ a b, a < i ∧ b < i ∧ keyBefore nodes a b = true ∧
    nodes[i]? = some (internalOf nodes a b) ∧ weightAt nodes i = weightAt nodes a + weightAt nodes b
  /-- Every node is a child exactly once or stands in the queue (R153). -/
  parents : (childIndices nodes ++ q).Perm (List.range nodes.length)
  /-- The weights in the queue add up to the counts (R153). -/
  weights : (q.map (weightAt nodes)).sum = (t.map (fun e => e.count.toNat)).sum
  /-- The leaves below the queue are those of the table. -/
  symbols : (q.flatMap (fun i => (codesAt nodes i).map Prod.fst)).Perm (t.map FtEntry.sym)

theorem weightAt_append_left {nodes : List Node} (extra : List Node) {i : Nat} (h : i < nodes.length) :
    weightAt (nodes ++ extra) i = weightAt nodes i := by
  simp [weightAt, List.getElem?_append_left h]

theorem keyBefore_append_left {nodes : List Node} (extra : List Node) {i j : Nat} (hi : i < nodes.length)
    (hj : j < nodes.length) : keyBefore (nodes ++ extra) i j = keyBefore nodes i j := by
  simp only [keyBefore, weightAt_append_left extra hi, weightAt_append_left extra hj]

theorem internalOf_append_left {nodes : List Node} (extra : List Node) {a b : Nat} (ha : a < nodes.length)
    (hb : b < nodes.length) : internalOf (nodes ++ extra) a b = internalOf nodes a b := by
  simp only [internalOf, weightAt_append_left extra ha, weightAt_append_left extra hb]

theorem sum_counts_lt {t : List FtEntry} (h : t.length ≤ 256) :
    (t.map (fun e => e.count.toNat)).sum < 2 ^ 40 := by
  have h1 : (t.map (fun e => e.count.toNat)).sum ≤ t.length * (2 ^ 32 - 1) := by
    clear h
    induction t with
    | nil => simp
    | cons e t ih =>
      simp only [List.map_cons, List.sum_cons, List.length_cons]
      have := e.count.isLt
      omega
  omega

theorem childIndices_append (xs ys : List Node) : childIndices (xs ++ ys) = childIndices xs ++ childIndices ys := by
  simp [childIndices]

variable {t : List FtEntry} {nodes : List Node} {q : List Nat}

theorem Grown.inQueue (h : Grown t nodes q) : ∀ i ∈ q, i < nodes.length := by
  intro i hi
  have : i ∈ List.range nodes.length := h.parents.subset (List.mem_append_right _ hi)
  simpa using this

theorem Grown.nodup (h : Grown t nodes q) : q.Nodup :=
  (List.nodup_append.1 (h.parents.nodup_iff.2 List.nodup_range)).2.1

theorem Grown.tableShort (h : Grown t nodes q) : t.length ≤ nodes.length := by
  by_contra hlt
  have hl := h.leaves nodes.length (by omega)
  simp at hl

/-- Children lie below their parents. -/
theorem Grown.closed (h : Grown t nodes q) : Closed nodes := by
  intro i e hn hl
  have hi : i < nodes.length := (List.getElem?_eq_some_iff.1 hn).1
  have hsz := h.size
  by_cases hit : i < t.length
  · rw [h.leaves i hit] at hn
    obtain rfl := Option.some.inj hn
    simp [leafOf] at hl
  · obtain ⟨a, b, ha, hb, -, he, -⟩ := h.internals i (by omega) hi
    rw [he] at hn
    obtain rfl := Option.some.inj hn
    simp only [internalOf, BitVec.toNat_ofNat]
    have h1 : a % 2 ^ 9 ≤ a := Nat.mod_le _ _
    have h2 : b % 2 ^ 9 ≤ b := Nat.mod_le _ _
    omega

/-- The leaves alone, before the first merge. -/
theorem grown_start (t : List FtEntry) : Grown t (t.map leafOf) (List.range t.length) where
  size := by simp; omega
  leaves := by intro i h; simp [h]
  internals := by intro i h1 h2; simp at h2; omega
  parents := by
    have : childIndices (t.map leafOf) = [] := by
      simp [childIndices, leafOf]
    simp [this]
  weights := by
    congr 1
    apply List.ext_getElem
    · simp
    · intro i h1 h2
      simp only [List.getElem_map, List.getElem_range]
      simp only [List.length_map] at h2
      have hb := (t[i]).count.isLt
      simp only [weightAt, List.getElem?_map, List.getElem?_eq_getElem h2, Option.map_some, leafOf, BitVec.toNat_setWidth]
      omega
  symbols := by
    have h1 : ∀ i ∈ List.range t.length, (codesAt (t.map leafOf) i).map Prod.fst =
        [((t[i]?).map FtEntry.sym).getD 0] := by
      intro i hi
      have hi : i < t.length := by simpa using hi
      have hn : (t.map leafOf)[i]? = some (leafOf t[i]) := by simp [hi]
      rw [codesAt_leaf hn rfl]
      simp [hi, leafOf]
    have h2 : (List.range t.length).flatMap (fun i => (codesAt (t.map leafOf) i).map Prod.fst) =
        t.map FtEntry.sym := by
      rw [List.flatMap_congr h1, ← List.map_eq_flatMap]
      apply List.ext_getElem
      · simp
      · intro i h1 h2
        simp only [List.length_map] at h2
        simp [h2]
    rw [h2]

theorem closed_append {e : Node} (hc : Closed nodes)
    (he : e.leaf = false → e.left.toNat < nodes.length ∧ e.right.toNat < nodes.length) : Closed (nodes ++ [e]) := by
  intro i x hx hl
  rcases lt_or_ge i nodes.length with hi | hi
  · rw [List.getElem?_append_left hi] at hx
    exact hc i x hx hl
  · rw [List.getElem?_append_right hi] at hx
    have : i - nodes.length = 0 := by
      by_contra hne
      rw [List.getElem?_eq_none (by simp; omega)] at hx
      cases hx
    rw [this] at hx
    obtain rfl : e = x := by simpa using hx
    have := he hl
    omega

/-- One merge keeps all of it (R145). -/
theorem Grown.step (h : Grown t nodes q) (ht : t.length ≤ 256) {nodes' : List Node} {q' : List Nat}
    (hs : mergeStep nodes q = some (nodes', q')) : Grown t nodes' q' := by
  obtain ⟨a, b, ha, hb, rfl, rfl, hamin, hbmin⟩ := mergeStep_spec hs
  have hnd := h.nodup
  have hb' : b ≠ a ∧ b ∈ q := (hnd.mem_erase_iff).1 hb
  have hperm : q.Perm (a :: b :: (q.erase a).erase b) :=
    (List.perm_cons_erase ha).trans ((List.perm_cons_erase hb).cons a)
  have hal := h.inQueue a ha
  have hbl := h.inQueue b hb'.2
  have hrest : ∀ i ∈ (q.erase a).erase b, i < nodes.length := fun i hi =>
    h.inQueue i (List.mem_of_mem_erase (List.mem_of_mem_erase hi))
  have hsz := h.size
  have hql : q.length = (q.erase a |>.erase b).length + 2 := by simpa using hperm.length_eq
  have h512 : nodes.length < 512 := by omega
  have ea : (internalOf nodes a b).left.toNat = a := by
    simp only [internalOf, BitVec.toNat_ofNat]; omega
  have eb : (internalOf nodes a b).right.toNat = b := by
    simp only [internalOf, BitVec.toNat_ofNat]; omega
  have hsum := h.weights
  rw [(hperm.map (weightAt nodes)).sum_eq] at hsum
  simp only [List.map_cons, List.sum_cons] at hsum
  have hlt := sum_counts_lt ht
  have hnew : weightAt (nodes ++ [internalOf nodes a b]) nodes.length = weightAt nodes a + weightAt nodes b := by
    simp only [weightAt, List.getElem?_concat_length, internalOf, BitVec.toNat_ofNat]
    exact Nat.mod_eq_of_lt (by simp only [weightAt] at hsum; omega)
  have hrestw : ((q.erase a).erase b).map (weightAt (nodes ++ [internalOf nodes a b])) =
      ((q.erase a).erase b).map (weightAt nodes) :=
    List.map_congr_left (fun i hi => weightAt_append_left _ (hrest i hi))
  have hc := h.closed
  have hc' : Closed (nodes ++ [internalOf nodes a b]) := closed_append hc (fun _ => by rw [ea, eb]; exact ⟨hal, hbl⟩)
  constructor
  · simp only [List.length_append, List.length_cons, List.length_nil]; omega
  · intro i hi
    have := h.tableShort
    rw [List.getElem?_append_left (by omega)]
    exact h.leaves i hi
  · intro i h1 h2
    simp only [List.length_append, List.length_cons, List.length_nil] at h2
    by_cases hi : i < nodes.length
    · obtain ⟨c, d, hc1, hd1, hk, he, hw⟩ := h.internals i h1 hi
      refine ⟨c, d, hc1, hd1, ?_, ?_, ?_⟩
      · rw [keyBefore_append_left _ (by omega) (by omega)]; exact hk
      · rw [List.getElem?_append_left hi, internalOf_append_left _ (by omega) (by omega)]; exact he
      · rw [weightAt_append_left _ hi, weightAt_append_left _ (by omega), weightAt_append_left _ (by omega)]; exact hw
    · obtain rfl : i = nodes.length := by omega
      refine ⟨a, b, hal, hbl, ?_, ?_, ?_⟩
      · rw [keyBefore_append_left _ hal hbl]; exact hamin b hb'.2 hb'.1
      · rw [internalOf_append_left _ hal hbl]; simp
      · rw [hnew, weightAt_append_left _ hal, weightAt_append_left _ hbl]
  · have e1 : childIndices [internalOf nodes a b] = [a, b] := by
      simp only [childIndices, List.flatMap_cons, List.flatMap_nil, List.append_nil, ea, eb]
      simp [internalOf]
    rw [childIndices_append, e1, List.length_append, List.length_singleton, List.range_succ]
    have p1 : (childIndices nodes ++ [a, b] ++ ((q.erase a).erase b ++ [nodes.length])).Perm
        ((childIndices nodes ++ q) ++ [nodes.length]) := by
      simp only [List.append_assoc]
      refine List.Perm.append_left _ ?_
      simpa using (hperm.symm.append_right [nodes.length])
    exact p1.trans (h.parents.append_right _)
  · rw [List.map_append, List.sum_append, hrestw]
    simp only [List.map_cons, List.map_nil, List.sum_cons, List.sum_nil, hnew]
    omega
  · have e1 : ((q.erase a).erase b).flatMap (fun i => (codesAt (nodes ++ [internalOf nodes a b]) i).map Prod.fst) =
        ((q.erase a).erase b).flatMap (fun i => (codesAt nodes i).map Prod.fst) :=
      List.flatMap_congr (fun i hi => by rw [codesAt_append hc _ i (hrest i hi) hc'])
    have e2 : codesAt (nodes ++ [internalOf nodes a b]) nodes.length =
        (codesAt nodes a).map (fun p => (p.1, false :: p.2)) ++ (codesAt nodes b).map (fun p => (p.1, true :: p.2)) := by
      rw [codesAt_internal hc' (List.getElem?_concat_length ..) rfl, ea, eb, codesAt_append hc _ a hal hc',
        codesAt_append hc _ b hbl hc']
    have e3 : (codesAt (nodes ++ [internalOf nodes a b]) nodes.length).map Prod.fst =
        (codesAt nodes a).map Prod.fst ++ (codesAt nodes b).map Prod.fst := by
      rw [e2]; simp [Function.comp_def]
    rw [List.flatMap_append, e1]
    simp only [List.flatMap_cons, List.flatMap_nil, List.append_nil, e3]
    refine List.Perm.trans ?_ h.symbols
    refine List.Perm.trans ?_ (hperm.symm.flatMap_right _)
    simp only [List.flatMap_cons]
    rw [← List.append_assoc (List.map Prod.fst (codesAt nodes a))]
    exact List.perm_append_comm

/-- The loop ends with the root alone in the queue (R146). -/
theorem Grown.loop (h : Grown t nodes q) (ht : t.length ≤ 256) (hq : q ≠ []) (fuel : Nat) (hf : q.length ≤ fuel + 1) :
    ∃ r, Grown t (mergeLoop fuel nodes q) [r] := by
  induction fuel generalizing nodes q with
  | zero =>
    obtain ⟨r, rfl⟩ : ∃ r, q = [r] := List.length_eq_one_iff.1 (by
      have := List.length_pos_iff.2 hq; omega)
    exact ⟨r, h⟩
  | succ fuel ih =>
    simp only [mergeLoop]
    cases hs : mergeStep nodes q with
    | none =>
      have h1 := mergeStep_none_iff.1 hs
      obtain ⟨r, rfl⟩ : ∃ r, q = [r] := List.length_eq_one_iff.1 (by
        have := List.length_pos_iff.2 hq; omega)
      exact ⟨r, h⟩
    | some p =>
      obtain ⟨nodes', q'⟩ := p
      have h' := h.step ht hs
      obtain ⟨a, b, ha, hb, hn, hq', -, -⟩ := mergeStep_spec hs
      refine ih h' (by rw [hq']; simp) ?_
      have e1 := List.length_erase_of_mem hb
      have e2 := List.length_erase_of_mem ha
      have e3 := List.length_pos_of_mem hb
      rw [hq']; simp only [List.length_append, List.length_singleton]; omega

theorem mem_childIndices {nodes : List Node} {j : Nat} (h : j ∈ childIndices nodes) :
    ∃ (i : Nat) (e : Node), nodes[i]? = some e ∧ e.leaf = false ∧ (j = e.left.toNat ∨ j = e.right.toNat) := by
  simp only [childIndices, List.mem_flatMap] at h
  obtain ⟨e, he, hj⟩ := h
  obtain ⟨i, hi⟩ := List.getElem?_of_mem he
  cases hl : e.leaf with
  | true => simp [hl] at hj
  | false => exact ⟨i, e, hi, hl, by simpa [hl] using hj⟩

/-- When one node is left in the queue it is the last one, the root `2N - 2` (R146). -/
theorem Grown.root {r : Nat} (h : Grown t nodes [r]) : nodes.length = 2 * t.length - 1 ∧ r = 2 * t.length - 2 ∧ 1 ≤ t.length := by
  have hsz := h.size
  have hr := h.inQueue r (by simp)
  simp only [List.length_singleton] at hsz
  refine ⟨by omega, ?_, by omega⟩
  have hlast : nodes.length - 1 ∈ childIndices nodes ++ [r] := h.parents.symm.subset (by simp; omega)
  rcases List.mem_append.1 hlast with hc | hc
  · obtain ⟨i, e, hi, hl, hj⟩ := mem_childIndices hc
    have hil : i < nodes.length := (List.getElem?_eq_some_iff.1 hi).1
    have := h.closed i e hi hl
    omega
  · simp only [List.mem_singleton] at hc; omega

/-- The tree of a table of 1 to 256 entries (R146, R153). -/
theorem buildNodes_grown (t : List FtEntry) (h1 : 1 ≤ t.length) (h2 : t.length ≤ 256) :
    Grown t (buildNodes t) [rootOf t] := by
  obtain ⟨r, hr⟩ := (grown_start t).loop h2 (fun h => by
    have e := congrArg List.length h
    rw [List.length_range, List.length_nil] at e; omega) t.length (by simp)
  have := hr.root
  have e : r = rootOf t := this.2.1
  rw [e] at hr
  exact hr

end Sys2Proof.Machine
end

