-- ==== Sys2Proof/Laws/Codes.lean ====
section
/-! SUPPORT. The laws of the code table of a well-formed frequency table (41_model_builder.md R148 to R151, R156). -/

namespace Sys2Proof.Machine

variable {nodes : List Node}

/-- A leaf is below itself by the empty path, and nothing else is (R148). -/
theorem mem_codesAt_nil {nodes : List Node} (hc : Closed nodes) {i : Nat} {e : Node} (hn : nodes[i]? = some e) (s : Byte) :
    (s, []) ∈ codesAt nodes i ↔ e.leaf = true ∧ e.sym = s := by
  cases hl : e.leaf with
  | true => rw [codesAt_leaf hn hl]; simp [eq_comm]
  | false => rw [codesAt_internal hc hn hl]; simp

/-- A longer path goes through an internal node into the child its first bit selects (R148). -/
theorem mem_codesAt_cons {nodes : List Node} (hc : Closed nodes) {i : Nat} {e : Node} (hn : nodes[i]? = some e) (s : Byte)
    (b : Bool) (c : Bits) :
    (s, b :: c) ∈ codesAt nodes i ↔
      e.leaf = false ∧ (s, c) ∈ codesAt nodes (if b then e.right.toNat else e.left.toNat) := by
  cases hl : e.leaf with
  | true => rw [codesAt_leaf hn hl]; simp
  | false => rw [codesAt_internal hc hn hl]; cases b <;> simp

variable {t : List FtEntry}

/-- Some leaf is below every node. -/
theorem Grown.codesAt_ne_nil {q : List Nat} (h : Grown t nodes q) : ∀ j < nodes.length, codesAt nodes j ≠ [] := by
  intro j
  induction j using Nat.strong_induction_on with
  | _ j ih =>
    intro hj
    obtain ⟨e, he⟩ : ∃ e, nodes[j]? = some e := ⟨nodes[j], by simp [hj]⟩
    cases hl : e.leaf with
    | true => rw [codesAt_leaf he hl]; simp
    | false =>
      obtain ⟨h1, -⟩ := h.closed j e he hl
      rw [codesAt_internal h.closed he hl]
      simp [ih _ h1 (by omega)]

/-! ### Looking a symbol up -/

theorem codeFor_some {codes : List (Byte × Bits)} {s : Byte} {c : Bits} (h : codeFor codes s = some c) :
    (s, c) ∈ codes := by
  induction codes with
  | nil => simp [codeFor] at h
  | cons p rest ih =>
    obtain ⟨x, d⟩ := p
    by_cases hx : x = s
    · simp only [codeFor, hx, if_true, Option.some.injEq] at h
      simp [hx, h]
    · simp only [codeFor, hx, if_false] at h
      exact List.mem_cons_of_mem _ (ih h)

theorem codeFor_none {codes : List (Byte × Bits)} {s : Byte} : codeFor codes s = none ↔ s ∉ codes.map Prod.fst := by
  induction codes with
  | nil => simp [codeFor]
  | cons p rest ih =>
    obtain ⟨x, d⟩ := p
    by_cases hx : x = s
    · simp [codeFor, hx]
    · simp [codeFor, hx, Ne.symm hx, ih]

/-- With no symbol twice, looking up finds exactly the pairs of the list. -/
theorem codeFor_iff {codes : List (Byte × Bits)} (hnd : (codes.map Prod.fst).Nodup) (s : Byte) (c : Bits) :
    codeFor codes s = some c ↔ (s, c) ∈ codes := by
  refine ⟨codeFor_some, fun h => ?_⟩
  cases hf : codeFor codes s with
  | none => exact absurd (List.mem_map_of_mem (f := Prod.fst) h) (codeFor_none.1 hf)
  | some d =>
    have hd := codeFor_some hf
    have := List.inj_on_of_nodup_map hnd hd h rfl
    rw [Prod.mk.injEq] at this
    rw [this.2]

/-! ### The code table of a well-formed frequency table -/

theorem buildCodes_eq (ht : TableOk t) : buildCodes t = codesAt (buildNodes t) (rootOf t) := by
  have h := buildNodes_grown t ht.1 ht.2.1
  exact codesOf_eq_codesAt h.closed (h.inQueue _ (by simp))

/-- The symbols with a codeword are those of the table (R149). -/
theorem buildCodes_symbols (ht : TableOk t) : ((buildCodes t).map Prod.fst).Perm (t.map FtEntry.sym) := by
  have h := (buildNodes_grown t ht.1 ht.2.1).symbols
  simpa [buildCodes_eq ht] using h

theorem buildCodes_nodup (ht : TableOk t) : ((buildCodes t).map Prod.fst).Nodup :=
  (buildCodes_symbols ht).nodup_iff.2 ht.2.2.2

/-- Exactly one codeword per entry (R149). -/
theorem length_buildCodes (ht : TableOk t) : (buildCodes t).length = t.length := by
  simpa using (buildCodes_symbols ht).length_eq

/-- The code table has a symbol exactly when the frequency table has it (R149). -/
theorem ctEntryFor_valid (ht : TableOk t) (s : Byte) :
    (ctEntryFor (buildCodes t) s).valid = true ↔ s ∈ t.map FtEntry.sym := by
  rw [← (buildCodes_symbols ht).mem_iff]
  cases h : codeFor (buildCodes t) s with
  | none => simpa [ctEntryFor, h] using codeFor_none.1 h
  | some c => simpa [ctEntryFor, h] using List.mem_map_of_mem (f := Prod.fst) (codeFor_some h)

/-- The valid entries are the derived codewords (R148, R149). -/
theorem ctEntryFor_iff (ht : TableOk t) (s : Byte) (c : Bits) :
    ((ctEntryFor (buildCodes t) s).valid = true ∧ (ctEntryFor (buildCodes t) s).code = c) ↔ (s, c) ∈ buildCodes t := by
  rw [← codeFor_iff (buildCodes_nodup ht)]
  cases h : codeFor (buildCodes t) s <;> simp [ctEntryFor, h]

/-- Codewords of different symbols are no prefixes of one another (R151). -/
theorem buildCodes_prefix_free (ht : TableOk t) {s u : Byte} {c d : Bits} (hne : s ≠ u) (hs : (s, c) ∈ buildCodes t)
    (hu : (u, d) ∈ buildCodes t) : ¬ c <+: d := by
  have h := codesAt_prefix_free (buildNodes_grown t ht.1 ht.2.1).closed (rootOf t)
  rw [← buildCodes_eq ht] at h
  have : Std.Symm (fun p q : Byte × Bits => Unrelated p.2 q.2) := ⟨fun _ _ h => ⟨h.2, h.1⟩⟩
  exact (h.forall hs hu (fun e => hne (congrArg Prod.fst e))).1

/-- No codeword is longer than `N - 1` bits (R156). -/
theorem buildCodes_length (ht : TableOk t) {p : Byte × Bits} (hp : p ∈ buildCodes t) : p.2.length + 1 ≤ t.length := by
  have h := buildNodes_grown t ht.1 ht.2.1
  have hp' := hp
  rw [buildCodes_eq ht] at hp'
  have := codesAt_length h.closed (rootOf t) hp' h.codesAt_ne_nil (fun j e hj hl => by
    have h1 := h.closed j e hj hl
    have h2 : j < (buildNodes t).length := (List.getElem?_eq_some_iff.1 hj).1
    omega)
  rwa [← buildCodes_eq ht, length_buildCodes ht] at this

/-- The root of a table of two or more entries is internal (R151). -/
theorem root_internal (ht : TableOk t) (h2 : 2 ≤ t.length) :
    ∃ e, (buildNodes t)[rootOf t]? = some e ∧ e.leaf = false := by
  have h := buildNodes_grown t ht.1 ht.2.1
  have hl := h.inQueue (rootOf t) (by simp)
  obtain ⟨a, b, -, -, -, he, -⟩ := h.internals (rootOf t) (by simp only [rootOf]; omega) hl
  exact ⟨_, he, rfl⟩

end Sys2Proof.Machine
end

