-- ==== Sys2Proof/Laws/State.lean ====
section
/-! SUPPORT. One lemma per field per update of State, and per accessor an update leaves alone, so that no proof unfolds a record update. -/

namespace Sys2Proof.Machine

variable (s : State)


/-! ### complete -/

@[simp] theorem complete_done : s.complete.done = true := rfl
@[simp] theorem complete_err : s.complete.err = false := rfl
@[simp] theorem complete_mv : s.complete.mv = s.mv := rfl
@[simp] theorem complete_errcode : s.complete.errcode = 0 := rfl
@[simp] theorem complete_errinfo : s.complete.errinfo = 0 := rfl
@[simp] theorem complete_inOff : s.complete.inOff = s.inOff := rfl
@[simp] theorem complete_inLen : s.complete.inLen = s.inLen := rfl
@[simp] theorem complete_outLen : s.complete.outLen = s.outLen := rfl
@[simp] theorem complete_nsym : s.complete.nsym = s.nsym := rfl
@[simp] theorem complete_seqLen : s.complete.seqLen = s.seqLen := rfl
@[simp] theorem complete_root : s.complete.root = s.root := rfl
@[simp] theorem complete_ftSym : s.complete.ftSym = s.ftSym := rfl
@[simp] theorem complete_ftCount : s.complete.ftCount = s.ftCount := rfl
@[simp] theorem complete_node : s.complete.node = s.node := rfl
@[simp] theorem complete_ct : s.complete.ct = s.ct := rfl
@[simp] theorem complete_ibuf : s.complete.ibuf = s.ibuf := rfl
@[simp] theorem complete_obuf : s.complete.obuf = s.obuf := rfl
@[simp] theorem complete_phase : s.complete.phase = .idle := rfl
@[simp] theorem complete_cmdlatch : s.complete.cmdlatch = s.cmdlatch := rfl
@[simp] theorem complete_params : s.complete.params = s.params := rfl
@[simp] theorem complete_draws : s.complete.draws = s.draws := rfl
@[simp] theorem complete_host : s.complete.host = s.host := rfl
@[simp] theorem complete_ftEntry (i : Nat) : s.complete.ftEntry i = s.ftEntry i := rfl
@[simp] theorem complete_nodeAt (i : Nat) : s.complete.nodeAt i = s.nodeAt i := rfl
@[simp] theorem complete_ctAt (sym : Byte) : s.complete.ctAt sym = s.ctAt sym := rfl
@[simp] theorem complete_ibufAt (k : Nat) : s.complete.ibufAt k = s.ibufAt k := rfl
@[simp] theorem complete_obufAt (k : Nat) : s.complete.obufAt k = s.obufAt k := rfl
@[simp] theorem complete_table : s.complete.table = s.table := rfl
@[simp] theorem complete_window : s.complete.window = s.window := rfl
@[simp] theorem complete_windowLegal : s.complete.windowLegal = s.windowLegal := rfl

/-! ### raise -/

@[simp] theorem raise_done (e : HceError) (info : Word) : (s.raise e info).done = true := rfl
@[simp] theorem raise_err (e : HceError) (info : Word) : (s.raise e info).err = true := rfl
@[simp] theorem raise_mv (e : HceError) (info : Word) : (s.raise e info).mv = s.mv := rfl
@[simp] theorem raise_errcode (e : HceError) (info : Word) : (s.raise e info).errcode = e.code := rfl
@[simp] theorem raise_errinfo (e : HceError) (info : Word) : (s.raise e info).errinfo = info := rfl
@[simp] theorem raise_inOff (e : HceError) (info : Word) : (s.raise e info).inOff = s.inOff := rfl
@[simp] theorem raise_inLen (e : HceError) (info : Word) : (s.raise e info).inLen = s.inLen := rfl
@[simp] theorem raise_outLen (e : HceError) (info : Word) : (s.raise e info).outLen = s.outLen := rfl
@[simp] theorem raise_nsym (e : HceError) (info : Word) : (s.raise e info).nsym = s.nsym := rfl
@[simp] theorem raise_seqLen (e : HceError) (info : Word) : (s.raise e info).seqLen = s.seqLen := rfl
@[simp] theorem raise_root (e : HceError) (info : Word) : (s.raise e info).root = s.root := rfl
@[simp] theorem raise_ftSym (e : HceError) (info : Word) : (s.raise e info).ftSym = s.ftSym := rfl
@[simp] theorem raise_ftCount (e : HceError) (info : Word) : (s.raise e info).ftCount = s.ftCount := rfl
@[simp] theorem raise_node (e : HceError) (info : Word) : (s.raise e info).node = s.node := rfl
@[simp] theorem raise_ct (e : HceError) (info : Word) : (s.raise e info).ct = s.ct := rfl
@[simp] theorem raise_ibuf (e : HceError) (info : Word) : (s.raise e info).ibuf = s.ibuf := rfl
@[simp] theorem raise_obuf (e : HceError) (info : Word) : (s.raise e info).obuf = s.obuf := rfl
@[simp] theorem raise_phase (e : HceError) (info : Word) : (s.raise e info).phase = .idle := rfl
@[simp] theorem raise_cmdlatch (e : HceError) (info : Word) : (s.raise e info).cmdlatch = s.cmdlatch := rfl
@[simp] theorem raise_params (e : HceError) (info : Word) : (s.raise e info).params = s.params := rfl
@[simp] theorem raise_draws (e : HceError) (info : Word) : (s.raise e info).draws = s.draws := rfl
@[simp] theorem raise_host (e : HceError) (info : Word) : (s.raise e info).host = s.host := rfl
@[simp] theorem raise_ftEntry (e : HceError) (info : Word) (i : Nat) : (s.raise e info).ftEntry i = s.ftEntry i := rfl
@[simp] theorem raise_nodeAt (e : HceError) (info : Word) (i : Nat) : (s.raise e info).nodeAt i = s.nodeAt i := rfl
@[simp] theorem raise_ctAt (e : HceError) (info : Word) (sym : Byte) : (s.raise e info).ctAt sym = s.ctAt sym := rfl
@[simp] theorem raise_ibufAt (e : HceError) (info : Word) (k : Nat) : (s.raise e info).ibufAt k = s.ibufAt k := rfl
@[simp] theorem raise_obufAt (e : HceError) (info : Word) (k : Nat) : (s.raise e info).obufAt k = s.obufAt k := rfl
@[simp] theorem raise_table (e : HceError) (info : Word) : (s.raise e info).table = s.table := rfl
@[simp] theorem raise_window (e : HceError) (info : Word) : (s.raise e info).window = s.window := rfl
@[simp] theorem raise_windowLegal (e : HceError) (info : Word) : (s.raise e info).windowLegal = s.windowLegal := rfl

/-! ### accept -/

@[simp] theorem accept_done (w : Word) : (s.accept w).done = false := rfl
@[simp] theorem accept_err (w : Word) : (s.accept w).err = false := rfl
@[simp] theorem accept_mv (w : Word) : (s.accept w).mv = s.mv := rfl
@[simp] theorem accept_errcode (w : Word) : (s.accept w).errcode = 0 := rfl
@[simp] theorem accept_errinfo (w : Word) : (s.accept w).errinfo = 0 := rfl
@[simp] theorem accept_inOff (w : Word) : (s.accept w).inOff = s.inOff := rfl
@[simp] theorem accept_inLen (w : Word) : (s.accept w).inLen = s.inLen := rfl
@[simp] theorem accept_outLen (w : Word) : (s.accept w).outLen = s.outLen := rfl
@[simp] theorem accept_nsym (w : Word) : (s.accept w).nsym = s.nsym := rfl
@[simp] theorem accept_seqLen (w : Word) : (s.accept w).seqLen = s.seqLen := rfl
@[simp] theorem accept_root (w : Word) : (s.accept w).root = s.root := rfl
@[simp] theorem accept_ftSym (w : Word) : (s.accept w).ftSym = s.ftSym := rfl
@[simp] theorem accept_ftCount (w : Word) : (s.accept w).ftCount = s.ftCount := rfl
@[simp] theorem accept_node (w : Word) : (s.accept w).node = s.node := rfl
@[simp] theorem accept_ct (w : Word) : (s.accept w).ct = s.ct := rfl
@[simp] theorem accept_ibuf (w : Word) : (s.accept w).ibuf = s.ibuf := rfl
@[simp] theorem accept_obuf (w : Word) : (s.accept w).obuf = s.obuf := rfl
@[simp] theorem accept_phase (w : Word) : (s.accept w).phase = .run := rfl
@[simp] theorem accept_cmdlatch (w : Word) : (s.accept w).cmdlatch = w := rfl
@[simp] theorem accept_params (w : Word) : (s.accept w).params = s.params := rfl
@[simp] theorem accept_draws (w : Word) : (s.accept w).draws = s.draws := rfl
@[simp] theorem accept_host (w : Word) : (s.accept w).host = s.host := rfl
@[simp] theorem accept_ftEntry (w : Word) (i : Nat) : (s.accept w).ftEntry i = s.ftEntry i := rfl
@[simp] theorem accept_nodeAt (w : Word) (i : Nat) : (s.accept w).nodeAt i = s.nodeAt i := rfl
@[simp] theorem accept_ctAt (w : Word) (sym : Byte) : (s.accept w).ctAt sym = s.ctAt sym := rfl
@[simp] theorem accept_ibufAt (w : Word) (k : Nat) : (s.accept w).ibufAt k = s.ibufAt k := rfl
@[simp] theorem accept_obufAt (w : Word) (k : Nat) : (s.accept w).obufAt k = s.obufAt k := rfl
@[simp] theorem accept_table (w : Word) : (s.accept w).table = s.table := rfl
@[simp] theorem accept_window (w : Word) : (s.accept w).window = s.window := rfl
@[simp] theorem accept_windowLegal (w : Word) : (s.accept w).windowLegal = s.windowLegal := rfl

/-! ### storeTable -/

@[simp] theorem storeTable_done (t : List FtEntry) : (s.storeTable t).done = s.done := rfl
@[simp] theorem storeTable_err (t : List FtEntry) : (s.storeTable t).err = s.err := rfl
@[simp] theorem storeTable_mv (t : List FtEntry) : (s.storeTable t).mv = false := rfl
@[simp] theorem storeTable_errcode (t : List FtEntry) : (s.storeTable t).errcode = s.errcode := rfl
@[simp] theorem storeTable_errinfo (t : List FtEntry) : (s.storeTable t).errinfo = s.errinfo := rfl
@[simp] theorem storeTable_inOff (t : List FtEntry) : (s.storeTable t).inOff = s.inOff := rfl
@[simp] theorem storeTable_inLen (t : List FtEntry) : (s.storeTable t).inLen = s.inLen := rfl
@[simp] theorem storeTable_outLen (t : List FtEntry) : (s.storeTable t).outLen = s.outLen := rfl
@[simp] theorem storeTable_nsym (t : List FtEntry) : (s.storeTable t).nsym = BitVec.ofNat 9 t.length := rfl
@[simp] theorem storeTable_seqLen (t : List FtEntry) : (s.storeTable t).seqLen = s.seqLen := rfl
@[simp] theorem storeTable_root (t : List FtEntry) : (s.storeTable t).root = s.root := rfl
@[simp] theorem storeTable_ftSym (t : List FtEntry) : (s.storeTable t).ftSym = s.ftSym.store 0 (t.map FtEntry.sym) s.draws := rfl
@[simp] theorem storeTable_ftCount (t : List FtEntry) : (s.storeTable t).ftCount = s.ftCount.store 0 (t.map FtEntry.count) s.draws := rfl
@[simp] theorem storeTable_node (t : List FtEntry) : (s.storeTable t).node = s.node := rfl
@[simp] theorem storeTable_ct (t : List FtEntry) : (s.storeTable t).ct = s.ct := rfl
@[simp] theorem storeTable_ibuf (t : List FtEntry) : (s.storeTable t).ibuf = s.ibuf := rfl
@[simp] theorem storeTable_obuf (t : List FtEntry) : (s.storeTable t).obuf = s.obuf := rfl
@[simp] theorem storeTable_phase (t : List FtEntry) : (s.storeTable t).phase = s.phase := rfl
@[simp] theorem storeTable_cmdlatch (t : List FtEntry) : (s.storeTable t).cmdlatch = s.cmdlatch := rfl
@[simp] theorem storeTable_params (t : List FtEntry) : (s.storeTable t).params = s.params := rfl
@[simp] theorem storeTable_draws (t : List FtEntry) : (s.storeTable t).draws = s.draws + 1 := rfl
@[simp] theorem storeTable_host (t : List FtEntry) : (s.storeTable t).host = s.host := rfl
@[simp] theorem storeTable_nodeAt (t : List FtEntry) (i : Nat) : (s.storeTable t).nodeAt i = s.nodeAt i := rfl
@[simp] theorem storeTable_ctAt (t : List FtEntry) (sym : Byte) : (s.storeTable t).ctAt sym = s.ctAt sym := rfl
@[simp] theorem storeTable_ibufAt (t : List FtEntry) (k : Nat) : (s.storeTable t).ibufAt k = s.ibufAt k := rfl
@[simp] theorem storeTable_obufAt (t : List FtEntry) (k : Nat) : (s.storeTable t).obufAt k = s.obufAt k := rfl
@[simp] theorem storeTable_window (t : List FtEntry) : (s.storeTable t).window = s.window := rfl
@[simp] theorem storeTable_windowLegal (t : List FtEntry) : (s.storeTable t).windowLegal = s.windowLegal := rfl

/-! ### storeModel -/

@[simp] theorem storeModel_done (nodes : List Node) (codes : List CtEntry) (r : Nat) : (s.storeModel nodes codes r).done = s.done := rfl
@[simp] theorem storeModel_err (nodes : List Node) (codes : List CtEntry) (r : Nat) : (s.storeModel nodes codes r).err = s.err := rfl
@[simp] theorem storeModel_mv (nodes : List Node) (codes : List CtEntry) (r : Nat) : (s.storeModel nodes codes r).mv = true := rfl
@[simp] theorem storeModel_errcode (nodes : List Node) (codes : List CtEntry) (r : Nat) : (s.storeModel nodes codes r).errcode = s.errcode := rfl
@[simp] theorem storeModel_errinfo (nodes : List Node) (codes : List CtEntry) (r : Nat) : (s.storeModel nodes codes r).errinfo = s.errinfo := rfl
@[simp] theorem storeModel_inOff (nodes : List Node) (codes : List CtEntry) (r : Nat) : (s.storeModel nodes codes r).inOff = s.inOff := rfl
@[simp] theorem storeModel_inLen (nodes : List Node) (codes : List CtEntry) (r : Nat) : (s.storeModel nodes codes r).inLen = s.inLen := rfl
@[simp] theorem storeModel_outLen (nodes : List Node) (codes : List CtEntry) (r : Nat) : (s.storeModel nodes codes r).outLen = s.outLen := rfl
@[simp] theorem storeModel_nsym (nodes : List Node) (codes : List CtEntry) (r : Nat) : (s.storeModel nodes codes r).nsym = s.nsym := rfl
@[simp] theorem storeModel_seqLen (nodes : List Node) (codes : List CtEntry) (r : Nat) : (s.storeModel nodes codes r).seqLen = s.seqLen := rfl
@[simp] theorem storeModel_root (nodes : List Node) (codes : List CtEntry) (r : Nat) : (s.storeModel nodes codes r).root = BitVec.ofNat 9 r := rfl
@[simp] theorem storeModel_ftSym (nodes : List Node) (codes : List CtEntry) (r : Nat) : (s.storeModel nodes codes r).ftSym = s.ftSym := rfl
@[simp] theorem storeModel_ftCount (nodes : List Node) (codes : List CtEntry) (r : Nat) : (s.storeModel nodes codes r).ftCount = s.ftCount := rfl
@[simp] theorem storeModel_node (nodes : List Node) (codes : List CtEntry) (r : Nat) : (s.storeModel nodes codes r).node = s.node.store 0 nodes s.draws := rfl
@[simp] theorem storeModel_ct (nodes : List Node) (codes : List CtEntry) (r : Nat) : (s.storeModel nodes codes r).ct = s.ct.store 0 codes s.draws := rfl
@[simp] theorem storeModel_ibuf (nodes : List Node) (codes : List CtEntry) (r : Nat) : (s.storeModel nodes codes r).ibuf = s.ibuf := rfl
@[simp] theorem storeModel_obuf (nodes : List Node) (codes : List CtEntry) (r : Nat) : (s.storeModel nodes codes r).obuf = s.obuf := rfl
@[simp] theorem storeModel_phase (nodes : List Node) (codes : List CtEntry) (r : Nat) : (s.storeModel nodes codes r).phase = s.phase := rfl
@[simp] theorem storeModel_cmdlatch (nodes : List Node) (codes : List CtEntry) (r : Nat) : (s.storeModel nodes codes r).cmdlatch = s.cmdlatch := rfl
@[simp] theorem storeModel_params (nodes : List Node) (codes : List CtEntry) (r : Nat) : (s.storeModel nodes codes r).params = s.params := rfl
@[simp] theorem storeModel_draws (nodes : List Node) (codes : List CtEntry) (r : Nat) : (s.storeModel nodes codes r).draws = s.draws + 1 := rfl
@[simp] theorem storeModel_host (nodes : List Node) (codes : List CtEntry) (r : Nat) : (s.storeModel nodes codes r).host = s.host := rfl
@[simp] theorem storeModel_ftEntry (nodes : List Node) (codes : List CtEntry) (r : Nat) (i : Nat) : (s.storeModel nodes codes r).ftEntry i = s.ftEntry i := rfl
@[simp] theorem storeModel_ibufAt (nodes : List Node) (codes : List CtEntry) (r : Nat) (k : Nat) : (s.storeModel nodes codes r).ibufAt k = s.ibufAt k := rfl
@[simp] theorem storeModel_obufAt (nodes : List Node) (codes : List CtEntry) (r : Nat) (k : Nat) : (s.storeModel nodes codes r).obufAt k = s.obufAt k := rfl
@[simp] theorem storeModel_table (nodes : List Node) (codes : List CtEntry) (r : Nat) : (s.storeModel nodes codes r).table = s.table := rfl
@[simp] theorem storeModel_window (nodes : List Node) (codes : List CtEntry) (r : Nat) : (s.storeModel nodes codes r).window = s.window := rfl
@[simp] theorem storeModel_windowLegal (nodes : List Node) (codes : List CtEntry) (r : Nat) : (s.storeModel nodes codes r).windowLegal = s.windowLegal := rfl

/-! ### forgetModel -/

@[simp] theorem forgetModel_done : s.forgetModel.done = s.done := rfl
@[simp] theorem forgetModel_err : s.forgetModel.err = s.err := rfl
@[simp] theorem forgetModel_mv : s.forgetModel.mv = false := rfl
@[simp] theorem forgetModel_errcode : s.forgetModel.errcode = s.errcode := rfl
@[simp] theorem forgetModel_errinfo : s.forgetModel.errinfo = s.errinfo := rfl
@[simp] theorem forgetModel_inOff : s.forgetModel.inOff = s.inOff := rfl
@[simp] theorem forgetModel_inLen : s.forgetModel.inLen = s.inLen := rfl
@[simp] theorem forgetModel_outLen : s.forgetModel.outLen = s.outLen := rfl
@[simp] theorem forgetModel_nsym : s.forgetModel.nsym = s.nsym := rfl
@[simp] theorem forgetModel_seqLen : s.forgetModel.seqLen = s.seqLen := rfl
@[simp] theorem forgetModel_root : s.forgetModel.root = Config.freeRoot s.draws := rfl
@[simp] theorem forgetModel_ftSym : s.forgetModel.ftSym = s.ftSym := rfl
@[simp] theorem forgetModel_ftCount : s.forgetModel.ftCount = s.ftCount := rfl
@[simp] theorem forgetModel_node : s.forgetModel.node = s.node.forget s.draws := rfl
@[simp] theorem forgetModel_ct : s.forgetModel.ct = s.ct.forget s.draws := rfl
@[simp] theorem forgetModel_ibuf : s.forgetModel.ibuf = s.ibuf := rfl
@[simp] theorem forgetModel_obuf : s.forgetModel.obuf = s.obuf := rfl
@[simp] theorem forgetModel_phase : s.forgetModel.phase = s.phase := rfl
@[simp] theorem forgetModel_cmdlatch : s.forgetModel.cmdlatch = s.cmdlatch := rfl
@[simp] theorem forgetModel_params : s.forgetModel.params = s.params := rfl
@[simp] theorem forgetModel_draws : s.forgetModel.draws = s.draws + 1 := rfl
@[simp] theorem forgetModel_host : s.forgetModel.host = s.host := rfl
@[simp] theorem forgetModel_ftEntry (i : Nat) : s.forgetModel.ftEntry i = s.ftEntry i := rfl
@[simp] theorem forgetModel_ibufAt (k : Nat) : s.forgetModel.ibufAt k = s.ibufAt k := rfl
@[simp] theorem forgetModel_obufAt (k : Nat) : s.forgetModel.obufAt k = s.obufAt k := rfl
@[simp] theorem forgetModel_table : s.forgetModel.table = s.table := rfl
@[simp] theorem forgetModel_window : s.forgetModel.window = s.window := rfl
@[simp] theorem forgetModel_windowLegal : s.forgetModel.windowLegal = s.windowLegal := rfl

/-! ### storeOutput -/

@[simp] theorem storeOutput_done (base : Nat) (y : List Byte) : (s.storeOutput base y).done = s.done := rfl
@[simp] theorem storeOutput_err (base : Nat) (y : List Byte) : (s.storeOutput base y).err = s.err := rfl
@[simp] theorem storeOutput_mv (base : Nat) (y : List Byte) : (s.storeOutput base y).mv = s.mv := rfl
@[simp] theorem storeOutput_errcode (base : Nat) (y : List Byte) : (s.storeOutput base y).errcode = s.errcode := rfl
@[simp] theorem storeOutput_errinfo (base : Nat) (y : List Byte) : (s.storeOutput base y).errinfo = s.errinfo := rfl
@[simp] theorem storeOutput_inOff (base : Nat) (y : List Byte) : (s.storeOutput base y).inOff = s.inOff := rfl
@[simp] theorem storeOutput_inLen (base : Nat) (y : List Byte) : (s.storeOutput base y).inLen = s.inLen := rfl
@[simp] theorem storeOutput_outLen (base : Nat) (y : List Byte) : (s.storeOutput base y).outLen = BitVec.ofNat 32 (base + y.length) := rfl
@[simp] theorem storeOutput_nsym (base : Nat) (y : List Byte) : (s.storeOutput base y).nsym = s.nsym := rfl
@[simp] theorem storeOutput_seqLen (base : Nat) (y : List Byte) : (s.storeOutput base y).seqLen = s.seqLen := rfl
@[simp] theorem storeOutput_root (base : Nat) (y : List Byte) : (s.storeOutput base y).root = s.root := rfl
@[simp] theorem storeOutput_ftSym (base : Nat) (y : List Byte) : (s.storeOutput base y).ftSym = s.ftSym := rfl
@[simp] theorem storeOutput_ftCount (base : Nat) (y : List Byte) : (s.storeOutput base y).ftCount = s.ftCount := rfl
@[simp] theorem storeOutput_node (base : Nat) (y : List Byte) : (s.storeOutput base y).node = s.node := rfl
@[simp] theorem storeOutput_ct (base : Nat) (y : List Byte) : (s.storeOutput base y).ct = s.ct := rfl
@[simp] theorem storeOutput_ibuf (base : Nat) (y : List Byte) : (s.storeOutput base y).ibuf = s.ibuf := rfl
@[simp] theorem storeOutput_obuf (base : Nat) (y : List Byte) : (s.storeOutput base y).obuf = s.obuf.store base y s.draws := rfl
@[simp] theorem storeOutput_phase (base : Nat) (y : List Byte) : (s.storeOutput base y).phase = s.phase := rfl
@[simp] theorem storeOutput_cmdlatch (base : Nat) (y : List Byte) : (s.storeOutput base y).cmdlatch = s.cmdlatch := rfl
@[simp] theorem storeOutput_params (base : Nat) (y : List Byte) : (s.storeOutput base y).params = s.params := rfl
@[simp] theorem storeOutput_draws (base : Nat) (y : List Byte) : (s.storeOutput base y).draws = s.draws + 1 := rfl
@[simp] theorem storeOutput_host (base : Nat) (y : List Byte) : (s.storeOutput base y).host = s.host := rfl
@[simp] theorem storeOutput_ftEntry (base : Nat) (y : List Byte) (i : Nat) : (s.storeOutput base y).ftEntry i = s.ftEntry i := rfl
@[simp] theorem storeOutput_nodeAt (base : Nat) (y : List Byte) (i : Nat) : (s.storeOutput base y).nodeAt i = s.nodeAt i := rfl
@[simp] theorem storeOutput_ctAt (base : Nat) (y : List Byte) (sym : Byte) : (s.storeOutput base y).ctAt sym = s.ctAt sym := rfl
@[simp] theorem storeOutput_ibufAt (base : Nat) (y : List Byte) (k : Nat) : (s.storeOutput base y).ibufAt k = s.ibufAt k := rfl
@[simp] theorem storeOutput_table (base : Nat) (y : List Byte) : (s.storeOutput base y).table = s.table := rfl
@[simp] theorem storeOutput_window (base : Nat) (y : List Byte) : (s.storeOutput base y).window = s.window := rfl
@[simp] theorem storeOutput_windowLegal (base : Nat) (y : List Byte) : (s.storeOutput base y).windowLegal = s.windowLegal := rfl

/-! ### withPending -/

@[simp] theorem withPending_done (rest : List HostEvent) : (s.withPending rest).done = s.done := rfl
@[simp] theorem withPending_err (rest : List HostEvent) : (s.withPending rest).err = s.err := rfl
@[simp] theorem withPending_mv (rest : List HostEvent) : (s.withPending rest).mv = s.mv := rfl
@[simp] theorem withPending_errcode (rest : List HostEvent) : (s.withPending rest).errcode = s.errcode := rfl
@[simp] theorem withPending_errinfo (rest : List HostEvent) : (s.withPending rest).errinfo = s.errinfo := rfl
@[simp] theorem withPending_inOff (rest : List HostEvent) : (s.withPending rest).inOff = s.inOff := rfl
@[simp] theorem withPending_inLen (rest : List HostEvent) : (s.withPending rest).inLen = s.inLen := rfl
@[simp] theorem withPending_outLen (rest : List HostEvent) : (s.withPending rest).outLen = s.outLen := rfl
@[simp] theorem withPending_nsym (rest : List HostEvent) : (s.withPending rest).nsym = s.nsym := rfl
@[simp] theorem withPending_seqLen (rest : List HostEvent) : (s.withPending rest).seqLen = s.seqLen := rfl
@[simp] theorem withPending_root (rest : List HostEvent) : (s.withPending rest).root = s.root := rfl
@[simp] theorem withPending_ftSym (rest : List HostEvent) : (s.withPending rest).ftSym = s.ftSym := rfl
@[simp] theorem withPending_ftCount (rest : List HostEvent) : (s.withPending rest).ftCount = s.ftCount := rfl
@[simp] theorem withPending_node (rest : List HostEvent) : (s.withPending rest).node = s.node := rfl
@[simp] theorem withPending_ct (rest : List HostEvent) : (s.withPending rest).ct = s.ct := rfl
@[simp] theorem withPending_ibuf (rest : List HostEvent) : (s.withPending rest).ibuf = s.ibuf := rfl
@[simp] theorem withPending_obuf (rest : List HostEvent) : (s.withPending rest).obuf = s.obuf := rfl
@[simp] theorem withPending_phase (rest : List HostEvent) : (s.withPending rest).phase = s.phase := rfl
@[simp] theorem withPending_cmdlatch (rest : List HostEvent) : (s.withPending rest).cmdlatch = s.cmdlatch := rfl
@[simp] theorem withPending_params (rest : List HostEvent) : (s.withPending rest).params = s.params := rfl
@[simp] theorem withPending_draws (rest : List HostEvent) : (s.withPending rest).draws = s.draws := rfl
@[simp] theorem withPending_host (rest : List HostEvent) : (s.withPending rest).host = ⟨rest, s.host.readData⟩ := rfl
@[simp] theorem withPending_ftEntry (rest : List HostEvent) (i : Nat) : (s.withPending rest).ftEntry i = s.ftEntry i := rfl
@[simp] theorem withPending_nodeAt (rest : List HostEvent) (i : Nat) : (s.withPending rest).nodeAt i = s.nodeAt i := rfl
@[simp] theorem withPending_ctAt (rest : List HostEvent) (sym : Byte) : (s.withPending rest).ctAt sym = s.ctAt sym := rfl
@[simp] theorem withPending_ibufAt (rest : List HostEvent) (k : Nat) : (s.withPending rest).ibufAt k = s.ibufAt k := rfl
@[simp] theorem withPending_obufAt (rest : List HostEvent) (k : Nat) : (s.withPending rest).obufAt k = s.obufAt k := rfl
@[simp] theorem withPending_table (rest : List HostEvent) : (s.withPending rest).table = s.table := rfl
@[simp] theorem withPending_window (rest : List HostEvent) : (s.withPending rest).window = s.window := rfl
@[simp] theorem withPending_windowLegal (rest : List HostEvent) : (s.withPending rest).windowLegal = s.windowLegal := rfl

end Sys2Proof.Machine
end

