-- ==== Sys2Proof/Laws/Memory.lean ====
section
/-! SUPPORT. The laws of memories: reading after writing, reading after a block write, and the canonical form. -/

namespace Sys2Proof.Machine

variable {α : Type}

/-! ### One cell -/

theorem findCell_putCell_same (k : Nat) (a : α) (cells : List (Nat × α)) :
    findCell k (putCell k a cells) = some a := by
  induction cells with
  | nil => simp [putCell, findCell]
  | cons c rest ih =>
    obtain ⟨j, b⟩ := c
    by_cases h1 : k < j
    · simp [putCell, h1, findCell]
    · by_cases h2 : k = j
      · simp [putCell, h2, findCell]
      · have h3 : j ≠ k := fun h => h2 h.symm
        simp [putCell, h1, h2, findCell, h3, ih]

theorem findCell_putCell_other {k j : Nat} (h : j ≠ k) (a : α) (cells : List (Nat × α)) :
    findCell j (putCell k a cells) = findCell j cells := by
  induction cells with
  | nil => simp [putCell, findCell, Ne.symm h]
  | cons c rest ih =>
    obtain ⟨i, b⟩ := c
    by_cases h1 : k < i
    · simp [putCell, h1, findCell, Ne.symm h]
    · by_cases h2 : k = i
      · subst h2
        simp [putCell, findCell, Ne.symm h]
      · simp only [putCell, h1, h2, if_false, findCell, ih]

@[simp] theorem known_write_same (m : Memory α) (k : Nat) (a : α) : (m.write k a).known k = some a :=
  findCell_putCell_same k a m.cells

theorem known_write_other {k j : Nat} (h : j ≠ k) (m : Memory α) (a : α) : (m.write k a).known j = m.known j :=
  findCell_putCell_other h a m.cells

@[simp] theorem write_marks (m : Memory α) (k : Nat) (a : α) : (m.write k a).marks = m.marks := rfl

@[simp] theorem read_write_same (free : Nat → Nat → α) (m : Memory α) (k : Nat) (a : α) :
    (m.write k a).read free k = a := by
  simp [Memory.read]

theorem read_write_other (free : Nat → Nat → α) {k j : Nat} (h : j ≠ k) (m : Memory α) (a : α) :
    (m.write k a).read free j = m.read free j := by
  simp [Memory.read, known_write_other h]

/-! ### A block -/

theorem findCell_append (k : Nat) (xs ys : List (Nat × α)) :
    findCell k (xs ++ ys) = (findCell k xs).or (findCell k ys) := by
  induction xs with
  | nil => simp [findCell]
  | cons c rest ih =>
    obtain ⟨j, a⟩ := c
    by_cases h : j = k <;> simp [findCell, h, ih]

theorem findCell_filter_below {k base : Nat} (cells : List (Nat × α)) :
    findCell k (cells.filter (fun c => c.1 < base)) = if k < base then findCell k cells else none := by
  induction cells with
  | nil => simp [findCell]
  | cons c rest ih =>
    obtain ⟨j, a⟩ := c
    by_cases hj : j < base
    · rw [List.filter_cons_of_pos (by simpa using hj)]
      by_cases h : j = k
      · subst h; simp [findCell, hj]
      · simp [findCell, h, ih]
    · rw [List.filter_cons_of_neg (by simpa using hj), ih]
      by_cases hk : k < base
      · have : j ≠ k := by omega
        simp [findCell, this]
      · simp [hk]

theorem findCell_cellsFrom (base k : Nat) (values : List α) :
    findCell k (cellsFrom base values) = if base ≤ k then values[k - base]? else none := by
  induction values generalizing base with
  | nil => simp [cellsFrom, findCell]
  | cons a rest ih =>
    simp only [cellsFrom, findCell, ih]
    by_cases h : base = k
    · subst h; simp
    · by_cases h2 : base ≤ k
      · have e : k - base = (k - (base + 1)) + 1 := by omega
        have h3 : base + 1 ≤ k := by omega
        simp [h, h2, h3, e]
      · have h3 : ¬ base + 1 ≤ k := by omega
        simp [h, h2, h3]

theorem known_store (m : Memory α) (base : Nat) (values : List α) (draw k : Nat) :
    (m.store base values draw).known k = if k < base then m.known k else values[k - base]? := by
  unfold Memory.store Memory.known
  rw [findCell_append, findCell_filter_below, findCell_cellsFrom]
  by_cases h : k < base
  · have : ¬ base ≤ k := by omega
    simp [h, this]
  · have : base ≤ k := by omega
    simp [h, this]

theorem drawAt_filter {k base : Nat} (h : k < base) (marks : List (Nat × Nat)) :
    drawAt k (marks.filter (fun p => p.1 < base)) = drawAt k marks := by
  induction marks with
  | nil => rfl
  | cons p rest ih =>
    obtain ⟨b, d⟩ := p
    by_cases hb : b < base
    · rw [List.filter_cons_of_pos (by simpa using hb)]
      simp [drawAt, ih]
    · rw [List.filter_cons_of_neg (by simpa using hb), ih]
      have : ¬ b ≤ k := by omega
      simp [drawAt, this]

theorem drawAt_store (m : Memory α) (base : Nat) (values : List α) (draw k : Nat) :
    drawAt k (m.store base values draw).marks = if base + values.length ≤ k then draw else drawAt k m.marks := by
  simp only [Memory.store, drawAt]
  by_cases h : base + values.length ≤ k
  · simp [h]
  · simp only [h, if_false]
    exact drawAt_filter (by omega) m.marks

/-- Below a stored block every cell reads as before, known or not (R70). -/
theorem read_store_below (free : Nat → Nat → α) {k base : Nat} (h : k < base) (m : Memory α) (values : List α)
    (draw : Nat) : (m.store base values draw).read free k = m.read free k := by
  have h2 : ¬ base + values.length ≤ k := by omega
  simp only [Memory.read, known_store, drawAt_store, h, if_true, h2, if_false]

/-- A stored block reads as its values. -/
theorem read_store_block (free : Nat → Nat → α) {j : Nat} (m : Memory α) (base : Nat) {values : List α}
    (draw : Nat) (h : j < values.length) : (m.store base values draw).read free (base + j) = values[j] := by
  have h2 : ¬ base + j < base := by omega
  simp [Memory.read, known_store, h]

/-- Above a stored block every cell is unspecified, at the draw of the store. -/
theorem read_store_above (free : Nat → Nat → α) {k base : Nat} (m : Memory α) {values : List α} (draw : Nat)
    (h : base + values.length ≤ k) : (m.store base values draw).read free k = free draw k := by
  have h2 : ¬ k < base := by omega
  have h3 : values[k - base]? = none := by simp; omega
  simp only [Memory.read, known_store, drawAt_store, h2, if_false, h3, h, if_true]

/-- A forgotten memory knows no cell. -/
@[simp] theorem known_forget (m : Memory α) (draw k : Nat) : (m.forget draw).known k = none := by
  simp [Memory.forget, known_store]

/-! ### The canonical form -/

theorem unknown_wf (size : Nat) : (Memory.unknown α).wf size := by
  simp [Memory.wf, Memory.unknown]

theorem mem_putCell {k x : Nat} {a : α} {cells : List (Nat × α)} :
    x ∈ (putCell k a cells).map Prod.fst ↔ x = k ∨ x ∈ cells.map Prod.fst := by
  induction cells with
  | nil => simp [putCell]
  | cons c rest ih =>
    obtain ⟨j, b⟩ := c
    by_cases h1 : k < j
    · simp [putCell, h1]
    · by_cases h2 : k = j
      · subst h2; simp [putCell]
      · simp only [putCell, h1, h2, if_false, List.map_cons, List.mem_cons, ih]
        tauto

theorem putCell_rises (k : Nat) (a : α) {cells : List (Nat × α)} (h : (cells.map Prod.fst).Pairwise (· < ·)) :
    ((putCell k a cells).map Prod.fst).Pairwise (· < ·) := by
  induction cells with
  | nil => simp [putCell]
  | cons c rest ih =>
    obtain ⟨j, b⟩ := c
    simp only [List.map_cons, List.pairwise_cons] at h
    by_cases h1 : k < j
    · simp only [putCell, h1, if_true, List.map_cons, List.pairwise_cons]
      refine ⟨?_, h⟩
      intro x hx
      rcases List.mem_cons.1 hx with rfl | hx
      · exact h1
      · exact lt_trans h1 (h.1 x hx)
    · by_cases h2 : k = j
      · subst h2
        simp only [putCell, lt_irrefl, if_false, if_true, List.map_cons, List.pairwise_cons]
        exact h
      · simp only [putCell, h1, h2, if_false, List.map_cons, List.pairwise_cons]
        refine ⟨?_, ih h.2⟩
        intro x hx
        rcases mem_putCell.1 hx with rfl | hx
        · omega
        · exact h.1 x hx

/-- Writing a cell inside the memory keeps the canonical form. -/
theorem write_wf {size k : Nat} {m : Memory α} (hm : m.wf size) (hk : k < size) (a : α) : (m.write k a).wf size := by
  obtain ⟨h1, h2, h3⟩ := hm
  refine ⟨putCell_rises k a h1, ?_, h3⟩
  intro x hx
  rcases mem_putCell.1 hx with rfl | hx
  · exact hk
  · exact h2 x hx

theorem map_fst_cellsFrom (base : Nat) (values : List α) :
    (cellsFrom base values).map Prod.fst = List.range' base values.length := by
  induction values generalizing base with
  | nil => simp [cellsFrom]
  | cons a rest ih => simp [cellsFrom, ih, List.range'_succ]

/-- Storing a block that fits keeps the canonical form. -/
theorem store_wf {size base : Nat} {m : Memory α} (hm : m.wf size) {values : List α}
    (hfit : base + values.length ≤ size) (draw : Nat) : (m.store base values draw).wf size := by
  obtain ⟨h1, h2, h3⟩ := hm
  have below : ∀ x ∈ (m.cells.filter (fun c => c.1 < base)).map Prod.fst, x < base := by
    intro x hx
    obtain ⟨c, hc, rfl⟩ := List.mem_map.1 hx
    simpa using (List.mem_filter.1 hc).2
  refine ⟨?_, ?_, ?_⟩
  · simp only [Memory.store, List.map_append, map_fst_cellsFrom]
    rw [List.pairwise_append]
    refine ⟨?_, ?_, ?_⟩
    · exact List.Pairwise.sublist (List.Sublist.map _ List.filter_sublist) h1
    · exact List.pairwise_lt_range' _
    · intro x hx y hy
      have := below x hx
      rw [List.mem_range'_1] at hy
      omega
  · intro x hx
    simp only [Memory.store, List.map_append, map_fst_cellsFrom, List.mem_append] at hx
    rcases hx with hx | hx
    · have := below x hx; omega
    · rw [List.mem_range'_1] at hx; omega
  · simp only [Memory.store, List.map_cons, List.pairwise_cons]
    refine ⟨?_, List.Pairwise.sublist (List.Sublist.map _ List.filter_sublist) h3⟩
    intro x hx
    obtain ⟨c, hc, rfl⟩ := List.mem_map.1 hx
    simpa using (List.mem_filter.1 hc).2

/-- Forgetting a memory keeps the canonical form. -/
theorem forget_wf {size : Nat} {m : Memory α} (hm : m.wf size) (draw : Nat) : (m.forget draw).wf size :=
  store_wf hm (by simp) draw

/-- Every draw a stored memory records is the store's or an old one. -/
theorem mem_store_marks {m : Memory α} {base draw : Nat} {values : List α} {p : Nat × Nat}
    (h : p ∈ (m.store base values draw).marks) : p.2 = draw ∨ p ∈ m.marks := by
  simp only [Memory.store, List.mem_cons, List.mem_filter] at h
  rcases h with rfl | h
  · exact .inl rfl
  · exact .inr h.1

end Sys2Proof.Machine
end

