-- ==== Sys2Proof/Laws/Tables.lean ====
section
/-! SUPPORT. The laws of frequency tables: counting (40_frequency_table.md R120 to R122), the checks of BUILD
(41_model_builder.md R141), and the frequency section (44_persisted_format.md R220 to R228). -/

namespace Sys2Proof.Machine

/-! ### Counting -/

theorem countTable_concat (w : List Byte) (s : Byte) : countTable (w ++ [s]) = countSymbol s (countTable w) := by
  simp [countTable]

theorem syms_countSymbol (s : Byte) (t : List FtEntry) :
    (countSymbol s t).map FtEntry.sym =
      if s ∈ t.map FtEntry.sym then t.map FtEntry.sym else t.map FtEntry.sym ++ [s] := by
  induction t with
  | nil => simp [countSymbol]
  | cons e t ih =>
    by_cases h : e.sym = s
    · simp [countSymbol, h]
    · have h' : ¬ s = e.sym := fun x => h x.symm
      simp only [countSymbol, h, if_false, List.map_cons, ih, List.mem_cons, h', false_or]
      split <;> rfl

/-- A symbol has an entry exactly when it occurs (R122 e). -/
theorem mem_syms_countTable (w : List Byte) (s : Byte) : s ∈ (countTable w).map FtEntry.sym ↔ s ∈ w := by
  induction w using List.reverseRecOn with
  | nil => simp [countTable]
  | append_singleton w x ih =>
    rw [countTable_concat, syms_countSymbol]
    by_cases hx : x ∈ (countTable w).map FtEntry.sym
    · rw [if_pos hx]
      by_cases hs : s = x
      · subst hs; simp [hx]
      · simp [ih, hs]
    · rw [if_neg hx, List.mem_append, ih]; simp

/-- Entries stand in order of first occurrence (R121). -/
theorem countTable_order (w : List Byte) :
    ((countTable w).map FtEntry.sym).Pairwise (fun a b => w.idxOf a < w.idxOf b) := by
  induction w using List.reverseRecOn with
  | nil => simp [countTable]
  | append_singleton w x ih =>
    have lift : ((countTable w).map FtEntry.sym).Pairwise (fun a b => (w ++ [x]).idxOf a < (w ++ [x]).idxOf b) := by
      refine ih.imp_of_mem ?_
      intro a b ha hb hab
      rw [mem_syms_countTable] at ha hb
      rwa [List.idxOf_append_of_mem ha, List.idxOf_append_of_mem hb]
    rw [countTable_concat, syms_countSymbol]
    split
    · exact lift
    · next hx =>
      rw [List.pairwise_append]
      refine ⟨lift, by simp, ?_⟩
      intro a ha b hb
      rw [List.mem_singleton] at hb
      subst hb
      rw [mem_syms_countTable] at ha hx
      rw [List.idxOf_append_of_mem ha, List.idxOf_append_of_notMem hx]
      have := List.idxOf_lt_length_of_mem ha
      omega

/-- No symbol has two entries (R122 b). -/
theorem countTable_nodup (w : List Byte) : ((countTable w).map FtEntry.sym).Nodup :=
  (countTable_order w).imp (fun h e => by rw [e] at h; omega)

theorem counts_countSymbol (s : Byte) (t : List FtEntry) (hnd : (t.map FtEntry.sym).Nodup) (n : Byte → Nat)
    (hlt : n s + 1 < 2 ^ 32) (h0 : s ∉ t.map FtEntry.sym → n s = 0)
    (h : ∀ e ∈ t, e.count.toNat = n e.sym) :
    ∀ e ∈ countSymbol s t, e.count.toNat = n e.sym + if e.sym = s then 1 else 0 := by
  induction t with
  | nil =>
    intro e he
    simp only [countSymbol, List.mem_singleton] at he
    subst he
    simp [h0]
  | cons x t ih =>
    simp only [List.map_cons, List.nodup_cons] at hnd
    intro e he
    by_cases hx : x.sym = s
    · simp only [countSymbol, hx, if_true, List.mem_cons] at he
      rcases he with rfl | he
      · have hxc := h x (by simp)
        simp only [if_true, BitVec.toNat_add, hxc, hx]
        show (n s + 1) % 2 ^ 32 = n s + 1
        omega
      · have hne : e.sym ≠ s := fun h' => hnd.1 (by rw [hx, ← h']; exact List.mem_map_of_mem he)
        simp [hne, h e (by simp [he])]
    · simp only [countSymbol, hx, if_false, List.mem_cons] at he
      rcases he with rfl | he
      · simp [hx, h e (by simp)]
      · refine ih hnd.2 ?_ (fun y hy => h y (by simp [hy])) e he
        intro hns
        refine h0 ?_
        simp only [List.map_cons, List.mem_cons, not_or]
        exact ⟨fun h' => hx h'.symm, hns⟩

/-- A count equals the number of occurrences (R120, R122); no count overflows when the window has fewer than 2^32 symbols. -/
theorem countTable_counts (w : List Byte) (hw : w.length < 2 ^ 32) :
    ∀ e ∈ countTable w, e.count.toNat = w.count e.sym := by
  induction w using List.reverseRecOn with
  | nil => simp [countTable]
  | append_singleton w x ih =>
    simp only [List.length_append, List.length_singleton] at hw
    rw [countTable_concat]
    intro e he
    have hle := List.count_le_length (a := x) (l := w)
    have := counts_countSymbol x (countTable w) (countTable_nodup w) (fun s => w.count s) (by omega)
      (fun hx => by
        rw [mem_syms_countTable] at hx
        exact List.count_eq_zero_of_not_mem hx)
      (ih (by omega)) e he
    rw [this, List.count_append, List.count_singleton]
    congr 1
    by_cases h : e.sym = x
    · simp [h]
    · simp [h, Ne.symm h]

/-- Symbols are bytes: a list without repeats has at most 256 (R6). -/
theorem nodup_bytes_length {l : List Byte} (h : l.Nodup) : l.length ≤ 256 := by
  have h1 : (l.map BitVec.toNat).Nodup := h.map (fun a b hab => BitVec.eq_of_toNat_eq hab)
  have h2 : l.map BitVec.toNat ⊆ List.range 256 := by
    intro n hn
    obtain ⟨b, -, rfl⟩ := List.mem_map.1 hn
    simpa using b.isLt
  simpa using (List.subperm_of_subset h1 h2).length_le

theorem length_countTable_le (w : List Byte) : (countTable w).length ≤ 256 := by
  simpa using nodup_bytes_length (countTable_nodup w)

theorem sum_countSymbol (s : Byte) (t : List FtEntry) (h : ∀ e ∈ t, e.sym = s → e.count.toNat + 1 < 2 ^ 32) :
    ((countSymbol s t).map (fun e => e.count.toNat)).sum = (t.map (fun e => e.count.toNat)).sum + 1 := by
  induction t with
  | nil => simp [countSymbol]
  | cons x t ih =>
    by_cases hx : x.sym = s
    · have := h x (by simp) hx
      simp only [countSymbol, hx, if_true, List.map_cons, List.sum_cons, BitVec.toNat_add]
      have e1 : (x.count.toNat + (1 : Word).toNat) % 2 ^ 32 = x.count.toNat + 1 := by
        show (x.count.toNat + 1) % 2 ^ 32 = _
        omega
      rw [e1]; omega
    · simp only [countSymbol, hx, if_false, List.map_cons, List.sum_cons, ih (fun e he => h e (by simp [he]))]
      omega

/-- The counts add up to the length of the window (R122 d). -/
theorem countTable_sum (w : List Byte) (hw : w.length < 2 ^ 32) :
    ((countTable w).map (fun e => e.count.toNat)).sum = w.length := by
  induction w using List.reverseRecOn with
  | nil => simp [countTable]
  | append_singleton w x ih =>
    simp only [List.length_append, List.length_singleton] at hw ⊢
    rw [countTable_concat, sum_countSymbol, ih (by omega)]
    intro e he _
    rw [countTable_counts w (by omega) e he]
    have := List.count_le_length (a := e.sym) (l := w)
    omega

/-- A counted table of a non-empty window passes BUILD's checks (R122). -/
theorem countTable_ok {w : List Byte} (h1 : w ≠ []) (hw : w.length < 2 ^ 32) : TableOk (countTable w) := by
  refine ⟨?_, length_countTable_le w, ?_, countTable_nodup w⟩
  · by_contra hlt
    have he : countTable w = [] := List.length_eq_zero_iff.1 (by omega)
    obtain ⟨x, hx⟩ := List.exists_mem_of_ne_nil w h1
    have := (mem_syms_countTable w x).2 hx
    simp [he] at this
  · intro e he h0
    have h2 := countTable_counts w hw e he
    have h3 : e.sym ∈ w := (mem_syms_countTable w e.sym).1 (List.mem_map_of_mem he)
    have := List.count_pos_iff.2 h3
    rw [h0] at h2
    simp at h2
    omega

/-! ### The checks of BUILD -/

/-- An entry the checks of R141 pass: its count is positive and no entry before it has its symbol. -/
def EntryGood (t : List FtEntry) (i : Nat) : Prop :=
  ∀ e, t[i]? = some e → e.count ≠ 0 ∧ ∀ j, j < i → ∀ e', t[j]? = some e' → e'.sym ≠ e.sym

theorem entryFault_none_iff (seen : List Byte) (i : Nat) (t : List FtEntry) :
    entryFault seen i t = none ↔
      (∀ e ∈ t, e.count ≠ 0) ∧ (t.map FtEntry.sym).Nodup ∧ ∀ s ∈ t.map FtEntry.sym, s ∉ seen := by
  induction t generalizing seen i with
  | nil => simp [entryFault]
  | cons e t ih =>
    by_cases h0 : e.count = 0
    · simp [entryFault, h0]
    · by_cases hs : e.sym ∈ seen
      · have hs' : seen.contains e.sym = true := by simpa using hs
        simp only [entryFault, h0, if_false, hs', if_true, reduceCtorEq, false_iff]
        rintro ⟨-, -, h⟩
        exact h e.sym (by simp) hs
      · have hs' : seen.contains e.sym = false := by simpa using hs
        simp only [entryFault, h0, if_false, hs', Bool.false_eq_true, ih]
        rw [List.forall_mem_cons, List.map_cons, List.nodup_cons, List.forall_mem_cons]
        simp only [List.mem_cons, not_or]
        constructor
        · rintro ⟨h1, h2, h3⟩
          exact ⟨⟨h0, h1⟩, ⟨fun hm => (h3 _ hm).1 rfl, h2⟩, hs, fun s hm => (h3 s hm).2⟩
        · rintro ⟨⟨-, h1⟩, ⟨h2, h3⟩, -, h4⟩
          exact ⟨h1, h3, fun s hm => ⟨fun h => h2 (h ▸ hm), h4 s hm⟩⟩

/-- BUILD's checks pass exactly on the well-formed tables (R33, R141). -/
theorem tableFault_none_iff (t : List FtEntry) : tableFault t.length t = none ↔ TableOk t := by
  unfold tableFault TableOk
  by_cases h0 : t.length = 0
  · simp [h0]
  · by_cases h1 : 256 < t.length
    · have : ¬ t.length ≤ 256 := by omega
      simp [h0, h1, this]
    · have h2 : 1 ≤ t.length := by omega
      have h3 : t.length ≤ 256 := by omega
      simp only [h0, h1, if_false, h2, h3, true_and]
      have := entryFault_none_iff [] 0 t
      cases hf : entryFault [] 0 t with
      | none => simp only [true_iff]; exact ⟨(this.1 hf).1, (this.1 hf).2.1⟩
      | some p =>
        simp only [reduceCtorEq, false_iff]
        intro h
        rw [this.2 ⟨h.1, h.2, by simp⟩] at hf
        cases hf

theorem entryFault_append (seen : List Byte) (i : Nat) (pre post : List FtEntry)
    (hpre : entryFault seen i pre = none) :
    entryFault seen i (pre ++ post) = entryFault ((pre.map FtEntry.sym).reverse ++ seen) (i + pre.length) post := by
  induction pre generalizing seen i with
  | nil => simp
  | cons e pre ih =>
    by_cases h0 : e.count = 0
    · simp [entryFault, h0] at hpre
    · cases hs : seen.contains e.sym with
      | true => simp only [entryFault, h0, if_false, hs, if_true, reduceCtorEq] at hpre
      | false =>
        simp only [entryFault, h0, if_false, hs, Bool.false_eq_true] at hpre
        simp only [List.cons_append, entryFault, h0, if_false, hs, Bool.false_eq_true, ih _ _ hpre]
        congr 1
        · simp
        · simp only [List.length_cons]; omega

/-- A zero count at the least failing index is kind 1 there (R141, R256). -/
theorem entryFault_zero (pre : List FtEntry) (e : FtEntry) (post : List FtEntry) (hpre : entryFault [] 0 pre = none)
    (h0 : e.count = 0) : entryFault [] 0 (pre ++ e :: post) = some (1, pre.length) := by
  rw [entryFault_append _ _ _ _ hpre]; simp [entryFault, h0]

/-- A duplicate at the least failing index is kind 2 there, if its count is not zero (R141, R256). -/
theorem entryFault_duplicate (pre : List FtEntry) (e : FtEntry) (post : List FtEntry)
    (hpre : entryFault [] 0 pre = none) (h0 : e.count ≠ 0) (hd : e.sym ∈ pre.map FtEntry.sym) :
    entryFault [] 0 (pre ++ e :: post) = some (2, pre.length) := by
  rw [entryFault_append _ _ _ _ hpre]
  have : ((pre.map FtEntry.sym).reverse ++ []).contains e.sym = true := by simpa using hd
  simp only [entryFault, h0, if_false, this, if_true, Nat.zero_add]

/-! ### The frequency section -/

@[simp] theorem length_entryBytes (e : FtEntry) : (entryBytes e).length = 5 := rfl

theorem length_flatMap_entryBytes (t : List FtEntry) : (t.flatMap entryBytes).length = 5 * t.length := by
  induction t with
  | nil => rfl
  | cons e t ih => rw [List.flatMap_cons, List.length_append, ih, length_entryBytes, List.length_cons]; omega

/-- The section of N entries is `2 + 5N` bytes (R220). -/
theorem length_sectionBytes (t : List FtEntry) : (sectionBytes t).length = 2 + 5 * t.length := by
  rw [sectionBytes, List.length_append, length_flatMap_entryBytes, length_toBe16]

theorem getD_flatMap_entryBytes (t : List FtEntry) (rest : List Byte) (i j : Nat) (hi : i < t.length) (hj : j < 5) :
    (t.flatMap entryBytes ++ rest).getD (5 * i + j) 0 = (entryBytes t[i]).getD j 0 := by
  induction t generalizing i with
  | nil => simp at hi
  | cons e t ih =>
    rw [List.flatMap_cons, List.append_assoc]
    cases i with
    | zero =>
      rw [List.getD_append _ _ _ _ (by simpa using hj)]
      simp
    | succ i =>
      rw [List.getD_append_right _ _ _ _ (by rw [length_entryBytes]; omega)]
      have : 5 * (i + 1) + j - (entryBytes e).length = 5 * i + j := by rw [length_entryBytes]; omega
      rw [this, ih i (by simpa using hi)]
      simp

/-- Entry `i` read back from a section that may have bytes after it (R228). -/
theorem parsedEntry_sectionBytes (t : List FtEntry) (rest : List Byte) (i : Nat) (hi : i < t.length) :
    parsedEntry (sectionBytes t ++ rest) i = t[i] := by
  have shift : ∀ j, j < 5 → (sectionBytes t ++ rest).getD (2 + 5 * i + j) 0 = (entryBytes t[i]).getD j 0 := by
    intro j hj
    have e1 : sectionBytes t ++ rest = toBe16 t.length ++ (t.flatMap entryBytes ++ rest) := by
      rw [sectionBytes, List.append_assoc]
    rw [e1, List.getD_append_right _ _ _ _ (by rw [length_toBe16]; omega)]
    have : 2 + 5 * i + j - (toBe16 t.length).length = 5 * i + j := by rw [length_toBe16]; omega
    rw [this, getD_flatMap_entryBytes t rest i j hi hj]
  have s0 := shift 0 (by omega)
  have s1 := shift 1 (by omega)
  have s2 := shift 2 (by omega)
  have s3 := shift 3 (by omega)
  have s4 := shift 4 (by omega)
  have a1 : 2 + 5 * i + 1 = 3 + 5 * i := by omega
  have a2 : 2 + 5 * i + 2 = 3 + 5 * i + 1 := by omega
  have a3 : 2 + 5 * i + 3 = 3 + 5 * i + 2 := by omega
  have a4 : 2 + 5 * i + 4 = 3 + 5 * i + 3 := by omega
  rw [Nat.add_zero] at s0
  rw [a1] at s1
  rw [a2] at s2
  rw [a3] at s3
  rw [a4] at s4
  have hv := toBe32_value t[i].count.toNat t[i].count.isLt
  have hb : be32 (sectionBytes t ++ rest) (3 + 5 * i) = t[i].count.toNat := by
    simp only [be32, byteAt, s1, s2, s3, s4]
    exact hv
  rw [parsedEntry, s0, hb, BitVec.ofNat_toNat, BitVec.setWidth_eq]
  rfl

/-- Parsing a section gives the table back (R228). -/
theorem parsedTable_sectionBytes (t : List FtEntry) (rest : List Byte) :
    parsedTable (sectionBytes t ++ rest) t.length = t := by
  apply List.ext_getElem
  · simp [parsedTable]
  · intro i h1 h2
    simp only [parsedTable, List.getElem_map, List.getElem_range]
    exact parsedEntry_sectionBytes t rest i h2

/-- The count field of a section (R220). -/
theorem be16_sectionBytes (t : List FtEntry) (ht : t.length ≤ 256) (rest : List Byte) :
    be16 (sectionBytes t ++ rest) 0 = t.length := by
  rw [sectionBytes, List.append_assoc]
  exact be16_toBe16 _ (by omega) _

end Sys2Proof.Machine
end

