-- ==== Sys2Proof/Laws/Results.lean ====
section
/-! SUPPORT. What the shared operations on State leave to be read: the window, a stored table, a stored model, a stored output. -/

namespace Sys2Proof.Machine

variable (s : State)

/-! ### The window (R69) -/

@[simp] theorem length_window : s.window.length = s.windowLength := by simp [State.window]

theorem windowLength_lt : s.windowLength < 2 ^ 32 := by
  unfold State.windowLength
  have := s.inLen.isLt
  omega

theorem getElem?_window (i : Nat) (h : i < s.windowLength) : s.window[i]? = some (s.ibufAt (s.inOff.toNat + i)) := by
  simp [State.window, h]

theorem windowLegal_iff : s.windowLegal = true ↔
    s.inOff.toNat ≤ s.inLen.toNat ∧ s.inLen.toNat ≤ s.params.bufBytes := by
  simp [State.windowLegal]

theorem windowLength_le (h : s.windowLegal = true) : s.windowLength ≤ s.params.bufBytes := by
  have := (windowLegal_iff s).1 h
  unfold State.windowLength; omega

/-! ### The table (R33) -/

@[simp] theorem length_table : s.table.length = s.nsym.toNat := by simp [State.table]

/-- The table in force after a table of at most 256 entries is stored is that table (R120, R223). -/
theorem table_storeTable (t : List FtEntry) (h : t.length ≤ 256) : (s.storeTable t).table = t := by
  have hn : (s.storeTable t).nsym.toNat = t.length := by
    simp only [storeTable_nsym, BitVec.toNat_ofNat]; omega
  apply List.ext_getElem
  · rw [length_table, hn]
  · intro i h1 h2
    have r1 := read_store_block Config.freeFtSym s.ftSym 0 s.draws (values := t.map FtEntry.sym) (j := i) (by simpa using h2)
    have r2 := read_store_block Config.freeFtCount s.ftCount 0 s.draws (values := t.map FtEntry.count) (j := i) (by simpa using h2)
    rw [Nat.zero_add] at r1 r2
    simp only [State.table, List.getElem_map, List.getElem_range, State.ftEntry, storeTable_ftSym, storeTable_ftCount, r1, r2]

/-! ### The model (R34, R35) -/

theorem nodeAt_storeModel (nodes : List Node) (codes : List CtEntry) (r i : Nat) (h : i < nodes.length) :
    (s.storeModel nodes codes r).nodeAt i = nodes[i] := by
  have := read_store_block freeNode s.node 0 s.draws (values := nodes) h
  rw [Nat.zero_add] at this
  exact this

@[simp] theorem length_ctOf (codes : List (Byte × Bits)) : (ctOf codes).length = 256 := by simp [ctOf]

theorem ctAt_storeModel (nodes : List Node) (codes : List (Byte × Bits)) (r : Nat) (sym : Byte) :
    (s.storeModel nodes (ctOf codes) r).ctAt sym = ctEntryFor codes sym := by
  have h : sym.toNat < (ctOf codes).length := by rw [length_ctOf]; exact sym.isLt
  have := read_store_block freeCtEntry s.ct 0 s.draws (values := ctOf codes) h
  rw [Nat.zero_add] at this
  rw [State.ctAt, storeModel_ct, this]
  simp [ctOf]

theorem length_buildNodes {t : List FtEntry} (ht : TableOk t) : (buildNodes t).length = 2 * t.length - 1 :=
  (buildNodes_grown t ht.1 ht.2.1).root.1

/-- BUILD leaves the model of its table (R38, R140). -/
theorem storeModel_holds (ht : TableOk s.table) :
    (s.storeModel (buildNodes s.table) (ctOf (codesOf (buildNodes s.table) (rootOf s.table))) (rootOf s.table)).HoldsModel := by
  refine ⟨?_, ?_, ?_, ?_⟩
  · exact ht
  · have h1 := ht.1
    have h2 := ht.2.1
    simp only [storeModel_root, storeModel_nsym, BitVec.toNat_ofNat, rootOf, length_table] at *
    omega
  · intro i hi
    have hl := length_buildNodes ht
    rw [length_table] at hl
    simp only [storeModel_nsym] at hi
    rw [nodeAt_storeModel _ _ _ _ _ (by omega)]
    simp only [storeModel_table]
    exact List.getElem?_eq_getElem (by omega)
  · intro sym
    rw [ctAt_storeModel]
    rfl

/-- What holds the model depends on FT, NSYM, NODE, CT and ROOT alone. -/
theorem State.HoldsModel.congr {s s' : State} (h : s.HoldsModel) (e1 : s'.ftSym = s.ftSym) (e2 : s'.ftCount = s.ftCount)
    (e3 : s'.nsym = s.nsym) (e4 : s'.node = s.node) (e5 : s'.ct = s.ct) (e6 : s'.root = s.root) : s'.HoldsModel := by
  have et : s'.table = s.table := by
    unfold State.table State.ftEntry; rw [e1, e2, e3]
  obtain ⟨h1, h2, h3, h4⟩ := h
  refine ⟨by rwa [et], by rw [e6, e3]; exact h2, ?_, ?_⟩
  · intro i hi
    rw [e3] at hi
    rw [et, h3 i hi]
    unfold State.nodeAt; rw [e4]
  · intro sym
    rw [et, ← h4 sym]
    unfold State.ctAt; rw [e5]

/-! ### The output (R70) -/

theorem obufAt_storeOutput (base : Nat) (y : List Byte) (j : Nat) (h : j < y.length) :
    (s.storeOutput base y).obufAt (base + j) = y[j] :=
  read_store_block Config.freeObuf s.obuf base s.draws h

theorem obufAt_storeOutput_below (base : Nat) (y : List Byte) (k : Nat) (h : k < base) :
    (s.storeOutput base y).obufAt k = s.obufAt k :=
  read_store_below Config.freeObuf h s.obuf y s.draws

theorem outLen_storeOutput (base : Nat) (y : List Byte) (h : base + y.length ≤ s.params.bufBytes) :
    (s.storeOutput base y).outLen.toNat = base + y.length := by
  have := s.params.lengthsFit
  simp only [storeOutput_outLen, BitVec.toNat_ofNat]
  omega

/-! ### A held model (R38) -/

/-- The table of a held model has NSYM entries, 1 to 256. -/
theorem State.HoldsModel.nsym {s : State} (h : s.HoldsModel) : 1 ≤ s.nsym.toNat ∧ s.nsym.toNat ≤ 256 := by
  have h1 := h.1.1
  have h2 := h.1.2.1
  rw [length_table] at h1 h2
  exact ⟨h1, h2⟩

/-- NODE holds the nodes of the table. -/
theorem State.HoldsModel.nodes {s : State} (h : s.HoldsModel) :
    ∀ i, i < (buildNodes s.table).length → (buildNodes s.table)[i]? = some (s.nodeAt i) := by
  intro i hi
  rw [length_buildNodes h.1, length_table] at hi
  exact h.2.2.1 i hi

theorem State.HoldsModel.root {s : State} (h : s.HoldsModel) : s.root.toNat = rootOf s.table := by
  rw [h.2.1, rootOf, length_table]

/-- The model is degenerate exactly when its table has one entry (R23, R147). -/
theorem State.HoldsModel.degen {s : State} (h : s.HoldsModel) (hmv : s.mv = true) :
    s.degen = true ↔ s.nsym.toNat = 1 := by
  have h1 := h.nsym
  have h2 := h.2.1
  have h3 : s.root = 0 ↔ s.root.toNat = 0 := by
    constructor
    · intro e; rw [e]; rfl
    · intro e; exact BitVec.eq_of_toNat_eq (by simpa using e)
  rw [State.degen, hmv, Bool.true_and, beq_iff_eq, h3]
  omega

end Sys2Proof.Machine
end

