-- ==== Sys2Proof/Laws/Walk.lean ====
section
/-! SUPPORT. The laws of the decoder's walk, of the scan it computes, and of the packed stream (42_encode.md R172 to R178, 43_decode.md R192 to R197). -/

namespace Sys2Proof.Machine

/-- A node memory that holds a list of nodes. -/
def Holds (node : Nat → Node) (nodes : List Node) : Prop :=
  ∀ i, i < nodes.length → nodes[i]? = some (node i)

variable {nodes : List Node} {node : Nat → Node}

/-- Walking a codeword from an internal node emits its symbol and returns to the root (R196). -/
theorem walk_code (hc : Closed nodes) (hh : Holds node nodes) (root : Nat) (c : Bits) (i : Nat) (s : Byte) (rest : Bits)
    (hi : i < nodes.length) (hin : (node i).leaf = false) (hm : (s, c) ∈ codesAt nodes i) :
    walk node root i (c ++ rest) = (s :: (walk node root root rest).1, (walk node root root rest).2) := by
  induction c generalizing i with
  | nil =>
    have := (mem_codesAt_nil hc (hh i hi) s).1 hm
    rw [hin] at this
    exact absurd this.1 (by simp)
  | cons b c ih =>
    obtain ⟨-, hm'⟩ := (mem_codesAt_cons hc (hh i hi) s b c).1 hm
    have hlt := hc i (node i) (hh i hi) hin
    have hch : (if b then (node i).right.toNat else (node i).left.toNat) < nodes.length := by
      split <;> omega
    simp only [List.cons_append, walk]
    cases hl : (node (if b then (node i).right.toNat else (node i).left.toNat)).leaf with
    | true =>
      rw [codesAt_leaf (hh _ hch) hl] at hm'
      simp only [List.mem_singleton, Prod.mk.injEq] at hm'
      obtain ⟨rfl, rfl⟩ := hm'
      simp
    | false =>
      simp only [Bool.false_eq_true, if_false]
      exact ih _ hch hl hm'

/-- Walking concatenated codewords gives the symbols back (R204). -/
theorem walk_concatCodes (hc : Closed nodes) (hh : Holds node nodes) (root : Nat) (ct : Byte → CtEntry)
    (hroot : root < nodes.length) (hin : (node root).leaf = false)
    (hct : ∀ s, (ct s).valid = true → (s, (ct s).code) ∈ codesAt nodes root) (w : List Byte) (k : Nat) (d : Bits)
    (h : concatCodes ct k w = .ok d) : walk node root root d = (w, root) := by
  induction w generalizing k d with
  | nil =>
    simp only [concatCodes, Except.ok.injEq] at h
    subst h; rfl
  | cons s w ih =>
    simp only [concatCodes] at h
    cases hv : (ct s).valid with
    | false => simp [hv] at h
    | true =>
      simp only [hv, if_true] at h
      cases hr : concatCodes ct (k + 1) w with
      | error j => simp [hr] at h
      | ok d' =>
        simp only [hr, Except.ok.injEq] at h
        subst h
        rw [walk_code hc hh root _ root s d' hroot hin (hct s hv), ih (k + 1) d' hr]

/-- Concatenation succeeds exactly when every symbol has a codeword (R173). -/
theorem concatCodes_ok (ct : Byte → CtEntry) (k : Nat) (w : List Byte) (h : ∀ s ∈ w, (ct s).valid = true) :
    concatCodes ct k w = .ok (w.flatMap (fun s => (ct s).code)) := by
  induction w generalizing k with
  | nil => rfl
  | cons s w ih =>
    have h1 : (ct s).valid = true := h s (by simp)
    simp only [concatCodes, h1, if_true, ih (k + 1) (fun x hx => h x (by simp [hx])), List.flatMap_cons]

/-- Concatenation fails at the first symbol without a codeword (R173). -/
theorem concatCodes_error (ct : Byte → CtEntry) (k : Nat) (pre : List Byte) (s : Byte) (post : List Byte)
    (hpre : ∀ x ∈ pre, (ct x).valid = true) (hs : (ct s).valid = false) :
    concatCodes ct k (pre ++ s :: post) = .error (k + pre.length) := by
  induction pre generalizing k with
  | nil => simp [concatCodes, hs]
  | cons x pre ih =>
    have h1 : (ct x).valid = true := hpre x (by simp)
    simp only [List.cons_append, concatCodes, h1, if_true, ih (k + 1) (fun y hy => hpre y (by simp [hy])),
      List.length_cons, Except.error.injEq]
    omega

/-- The scan with an inverse table that knows exactly the codewords computes the walk (R195, R196): the symbols are the
same, and the accumulator is empty at the end exactly when the cursor is at the root. -/
theorem scan_eq_walk (hc : Closed nodes) (hh : Holds node nodes) (root : Nat) (inv : Bits → Option Byte)
    (hroot : root < nodes.length) (hin : (node root).leaf = false)
    (hinv : ∀ c s, inv c = some s ↔ (s, c) ∈ codesAt nodes root) (data : Bits) (acc : Bits) (cur : Nat)
    (hcur : cur < nodes.length) (hcin : (node cur).leaf = false)
    (hacc : ∀ s c, (s, acc ++ c) ∈ codesAt nodes root ↔ (s, c) ∈ codesAt nodes cur)
    (hpos : (acc = [] ∧ cur = root) ∨ (acc ≠ [] ∧ cur < root)) :
    (scan inv acc data).1 = (walk node root cur data).1 ∧
      ((scan inv acc data).2 = [] ↔ (walk node root cur data).2 = root) := by
  induction data generalizing acc cur with
  | nil =>
    simp only [scan, walk, true_and]
    rcases hpos with ⟨rfl, rfl⟩ | ⟨h1, h2⟩
    · simp
    · exact iff_of_false h1 (by omega)
  | cons b data ih =>
    have hlt := hc cur (node cur) (hh cur hcur) hcin
    have hch : (if b then (node cur).right.toNat else (node cur).left.toNat) < cur := by
      split <;> omega
    have hnext : ∀ s c, (s, (acc ++ [b]) ++ c) ∈ codesAt nodes root ↔
        (s, c) ∈ codesAt nodes (if b then (node cur).right.toNat else (node cur).left.toNat) := by
      intro s c
      rw [List.append_assoc, hacc, List.singleton_append, mem_codesAt_cons hc (hh cur hcur)]
      simp [hcin]
    generalize hnx : (if b then (node cur).right.toNat else (node cur).left.toNat) = next at *
    have hnl : next < nodes.length := by omega
    have hstep : ∀ s, inv (acc ++ [b]) = some s ↔ (node next).leaf = true ∧ (node next).sym = s := by
      intro s
      rw [hinv, ← mem_codesAt_nil hc (hh next hnl) s]
      simpa using hnext s []
    simp only [scan, walk, hnx]
    cases hl : (node next).leaf with
    | true =>
      have h1 := (hstep (node next).sym).2 ⟨hl, rfl⟩
      obtain ⟨r1, r2⟩ := ih [] root hroot hin (fun s c => by simp) (.inl ⟨rfl, rfl⟩)
      simp only [h1, if_true]
      exact ⟨by rw [r1], r2⟩
    | false =>
      have h1 : inv (acc ++ [b]) = none := by
        cases hi : inv (acc ++ [b]) with
        | none => rfl
        | some s => exact absurd ((hstep s).1 hi).1 (by simp [hl])
      simp only [h1, Bool.false_eq_true, if_false]
      refine ih (acc ++ [b]) next hnl hl hnext (.inr ⟨by simp, ?_⟩)
      rcases hpos with ⟨-, h⟩ | ⟨-, h⟩ <;> omega

/-- What the inverse code table knows (R150), when no codeword belongs to two symbols. -/
theorem inverseCode_iff (ct : Byte → CtEntry) (huniq : ∀ s u, (ct s).valid = true → (ct u).valid = true →
    (ct s).code = (ct u).code → s = u) (c : Bits) (s : Byte) :
    inverseCode ct c = some s ↔ (ct s).valid = true ∧ (ct s).code = c := by
  unfold inverseCode
  constructor
  · intro h
    have := List.find?_some h
    simpa using this
  · rintro ⟨h1, h2⟩
    have hm : s ∈ (List.range 256).map (BitVec.ofNat 8) :=
      List.mem_map.2 ⟨s.toNat, by simpa using s.isLt, by simp⟩
    cases hf : ((List.range 256).map (BitVec.ofNat 8)).find? (fun sym => (ct sym).valid && (ct sym).code == c) with
    | none =>
      rw [List.find?_eq_none] at hf
      exact absurd (hf s hm) (by simp [h1, h2])
    | some u =>
      have hu := List.find?_some hf
      simp only [Bool.and_eq_true, beq_iff_eq] at hu
      rw [huniq u s hu.1 h1 (hu.2.trans h2.symm)]

/-! ### The packed stream -/

/-- The padding count is 1 to 8 and completes the byte (R174). -/
theorem padCount_spec (l : Nat) : 1 ≤ padCount l ∧ padCount l ≤ 8 ∧ (l + padCount l) % 8 = 0 := by
  unfold padCount; omega

/-- The stream: the header byte is the padding count, and the bytes after it are the bits and the padding (R175, R176, R178). -/
theorem packStream_spec (d : Bits) : ∃ body, packStream d = BitVec.ofNat 8 (padCount d.length) :: body ∧
    body.length = 1 + d.length / 8 ∧ bitsOf body = d ++ zeros (padCount d.length) := by
  have hp := padCount_spec d.length
  have hlen : (d ++ zeros (padCount d.length)).length = 8 * (1 + d.length / 8) := by
    rw [List.length_append, length_zeros]; unfold padCount; omega
  obtain ⟨h1, h2⟩ := bytesOf_spec _ _ hlen
  refine ⟨bytesOf (d ++ zeros (padCount d.length)), ?_, h1, h2⟩
  rw [packStream, List.append_assoc, bytesOf_bits8_append]

/-- The length law (R178). -/
theorem length_packStream (d : Bits) : (packStream d).length = 2 + d.length / 8 := by
  obtain ⟨body, h, hl, -⟩ := packStream_spec d
  rw [h, List.length_cons, hl]; omega

/-- Removing header and padding restores the bits (R178, R193). -/
theorem dataBits_packStream (d : Bits) {h : Byte} {body : List Byte} (hs : packStream d = h :: body) :
    h.toNat = padCount d.length ∧ h.toNat ≤ 8 * body.length ∧ dataBits body h.toNat = d := by
  obtain ⟨body', h', hl, hb⟩ := packStream_spec d
  rw [h', List.cons.injEq] at hs
  obtain ⟨rfl, rfl⟩ := hs
  have hp := padCount_spec d.length
  have ht : (BitVec.ofNat 8 (padCount d.length)).toNat = padCount d.length := by
    simp only [BitVec.toNat_ofNat]; omega
  have he : 8 * body'.length = d.length + padCount d.length := by
    rw [hl]; unfold padCount; omega
  refine ⟨ht, by rw [ht]; omega, ?_⟩
  rw [ht, dataBits, hb, he, Nat.add_sub_cancel, List.take_left']
  rfl

end Sys2Proof.Machine
end

