-- ==== Sys2Proof/Laws/Exec.lean ====
section
/-! SUPPORT. What each command function answers, case by case: the provers cite these and do not unfold the meanings. -/

namespace Sys2Proof.Machine

variable (s : State)

/-! ### COUNT -/

theorem execCount_ok (h : s.windowLegal = true) :
    execCount s = .next (s.storeTable (countTable s.window)).complete := by
  simp [execCount, h]

theorem execCount_range (h : s.windowLegal = false) : execCount s = .next (s.raise .range 1) := by
  simp only [execCount, h, Bool.not_false, if_true]

/-! ### BUILD -/

theorem execBuild_ok (h : TableOk s.table) :
    execBuild s = .next (s.storeModel (buildNodes s.table) (ctOf (codesOf (buildNodes s.table) (rootOf s.table)))
      (rootOf s.table)).complete := by
  have := (tableFault_none_iff s.table).2 h
  rw [length_table] at this
  simp only [execBuild, State.finishBuild, this]

theorem execBuild_error {e : HceError} {info : Word} (h : tableFault s.nsym.toNat s.table = some (e, info)) :
    execBuild s = .next (s.forgetModel.raise e info) := by
  simp only [execBuild, State.finishBuild, h]

/-- BUILD succeeds exactly on the well-formed tables (R141). -/
theorem execBuild_cases : (TableOk s.table ∧ tableFault s.nsym.toNat s.table = none) ∨
    ∃ e info, tableFault s.nsym.toNat s.table = some (e, info) := by
  have h := tableFault_none_iff s.table
  rw [length_table] at h
  cases hf : tableFault s.nsym.toNat s.table with
  | none => exact .inl ⟨h.1 hf, rfl⟩
  | some p => exact .inr ⟨p.1, p.2, rfl⟩

/-! ### ENCODE -/

theorem execEncode_noModel (a : Bool) (h : s.mv = false) : execEncode a s = .next (s.raise .noModel 0) := by
  simp only [execEncode, h, Bool.not_false, if_true]

theorem execEncode_range (a : Bool) (hm : s.mv = true) (h : s.windowLegal = false) :
    execEncode a s = .next (s.raise .range 1) := by
  simp only [execEncode, hm, h, Bool.not_true, Bool.not_false, Bool.false_eq_true, if_false, if_true]

theorem execEncode_unknown (a : Bool) (hm : s.mv = true) (hw : s.windowLegal = true) {k : Nat}
    (h : concatCodes s.ctAt s.inOff.toNat s.window = .error k) :
    execEncode a s = .next ((s.storeOutput (s.encodeBase a) []).raise .unknownSymbol (BitVec.ofNat 32 k)) := by
  simp only [execEncode, hm, hw, h, Bool.not_true, Bool.false_eq_true, if_false]

theorem execEncode_overflow (a : Bool) (hm : s.mv = true) (hw : s.windowLegal = true) {d : Bits}
    (h : concatCodes s.ctAt s.inOff.toNat s.window = .ok d)
    (hf : s.params.bufBytes < s.encodeBase a + (packStream d).length) :
    execEncode a s = .next ((s.storeOutput (s.encodeBase a) []).raise .range 2) := by
  simp only [execEncode, hm, hw, h, hf, Bool.not_true, Bool.false_eq_true, if_false, if_true]

theorem execEncode_ok (a : Bool) (hm : s.mv = true) (hw : s.windowLegal = true) {d : Bits}
    (h : concatCodes s.ctAt s.inOff.toNat s.window = .ok d)
    (hf : s.encodeBase a + (packStream d).length ≤ s.params.bufBytes) :
    execEncode a s = .next ({ s.storeOutput (s.encodeBase a) (packStream d) with
      seqLen := BitVec.ofNat 32 s.windowLength } : State).complete := by
  have : ¬ s.params.bufBytes < s.encodeBase a + (packStream d).length := by omega
  simp only [execEncode, hm, hw, h, this, Bool.not_true, Bool.false_eq_true, if_false]

/-! ### DECODE -/

theorem execDecode_noModel (h : s.mv = false) : execDecode s = .next (s.raise .noModel 0) := by
  simp only [execDecode, h, Bool.not_false, if_true]

theorem execDecode_range (hm : s.mv = true) (h : s.windowLegal = false) : execDecode s = .next (s.raise .range 1) := by
  simp only [execDecode, hm, h, Bool.not_true, Bool.not_false, Bool.false_eq_true, if_false, if_true]

theorem execDecode_empty (hm : s.mv = true) (hw : s.windowLegal = true) (h : s.window = []) :
    execDecode s = .next ((s.storeOutput 0 []).raise .malformedStream 1) := by
  simp only [execDecode, hm, hw, h, Bool.not_true, Bool.false_eq_true, if_false, State.decodeFailed]

theorem execDecode_padding (hm : s.mv = true) (hw : s.windowLegal = true) {header : Byte} {body : List Byte}
    (h : s.window = header :: body) (hp : 8 * body.length < header.toNat) :
    execDecode s = .next ((s.storeOutput 0 []).raise .malformedStream 2) := by
  simp only [execDecode, hm, hw, h, hp, Bool.not_true, Bool.false_eq_true, if_false, if_true, State.decodeFailed]

theorem execDecode_degenerate (hm : s.mv = true) (hw : s.windowLegal = true) {header : Byte} {body : List Byte}
    (h : s.window = header :: body) (hp : header.toNat ≤ 8 * body.length) (hd : s.degen = true) :
    execDecode s = s.decodeDegenerate (dataBits body header.toNat) := by
  have : ¬ 8 * body.length < header.toNat := by omega
  simp only [execDecode, hm, hw, h, this, hd, Bool.not_true, Bool.false_eq_true, if_false, if_true]

theorem execDecode_walk (hm : s.mv = true) (hw : s.windowLegal = true) {header : Byte} {body : List Byte}
    (h : s.window = header :: body) (hp : header.toNat ≤ 8 * body.length) (hd : s.degen = false) :
    execDecode s = s.decodeWalk (dataBits body header.toNat) := by
  have : ¬ 8 * body.length < header.toNat := by omega
  simp only [execDecode, hm, hw, h, this, hd, Bool.not_true, Bool.false_eq_true, if_false]

/-- Under a held model of two or more entries the walk DECODE runs is the scan of the inverse code table (R195, R196). -/
theorem scan_eq_walk_of_holds (h : s.HoldsModel) (h2 : 2 ≤ s.nsym.toNat) (data : Bits) :
    (scan (inverseCode s.ctAt) [] data).1 = (walk s.nodeAt s.root.toNat s.root.toNat data).1 ∧
      ((scan (inverseCode s.ctAt) [] data).2 = [] ↔
        (walk s.nodeAt s.root.toNat s.root.toNat data).2 = s.root.toNat) := by
  have ht := h.1
  have hg := buildNodes_grown s.table ht.1 ht.2.1
  have hroot : s.root.toNat < (buildNodes s.table).length := by rw [h.root]; exact hg.inQueue _ (by simp)
  have hin : (s.nodeAt s.root.toNat).leaf = false := by
    obtain ⟨e, he, hl⟩ := root_internal ht (by rwa [length_table])
    rw [← h.root, h.nodes _ hroot] at he
    obtain rfl := Option.some.inj he
    exact hl
  have hiff : ∀ (c : Bits) (x : Byte), ((s.ctAt x).valid = true ∧ (s.ctAt x).code = c) ↔
      (x, c) ∈ codesAt (buildNodes s.table) s.root.toNat := by
    intro c x
    rw [h.2.2.2 x, ctEntryFor_iff ht, buildCodes_eq ht, h.root]
  have huniq : ∀ x u, (s.ctAt x).valid = true → (s.ctAt u).valid = true → (s.ctAt x).code = (s.ctAt u).code → x = u := by
    intro x u hx hu hc
    by_contra hne
    have m1 := (hiff _ x).1 ⟨hx, rfl⟩
    have m2 := (hiff _ u).1 ⟨hu, rfl⟩
    rw [h.root, ← buildCodes_eq ht] at m1 m2
    exact buildCodes_prefix_free ht hne m1 m2 (by rw [hc])
  exact scan_eq_walk hg.closed h.nodes s.root.toNat (inverseCode s.ctAt) hroot hin
    (fun c x => (inverseCode_iff s.ctAt huniq c x).trans (hiff c x)) data [] s.root.toNat hroot hin
    (fun x c => by simp) (.inl ⟨rfl, rfl⟩)

/-- Under a held model of two or more entries, walking the concatenated codewords of a window gives the window back (R204). -/
theorem walk_of_holds (h : s.HoldsModel) (h2 : 2 ≤ s.nsym.toNat) {w : List Byte} {k : Nat} {d : Bits}
    (hc : concatCodes s.ctAt k w = .ok d) :
    walk s.nodeAt s.root.toNat s.root.toNat d = (w, s.root.toNat) := by
  have ht := h.1
  have hg := buildNodes_grown s.table ht.1 ht.2.1
  have hroot : s.root.toNat < (buildNodes s.table).length := by rw [h.root]; exact hg.inQueue _ (by simp)
  have hin : (s.nodeAt s.root.toNat).leaf = false := by
    obtain ⟨e, he, hl⟩ := root_internal ht (by rwa [length_table])
    rw [← h.root, h.nodes _ hroot] at he
    obtain rfl := Option.some.inj he
    exact hl
  refine walk_concatCodes hg.closed h.nodes s.root.toNat s.ctAt hroot hin ?_ w k d hc
  intro x hx
  have := (ctEntryFor_iff ht x (s.ctAt x).code).1 ⟨by rwa [← h.2.2.2 x], by rw [← h.2.2.2 x]⟩
  rwa [buildCodes_eq ht, ← h.root] at this

/-! ### FTSER and FTPARSE -/

theorem execFtser_ok (h : s.nsym.toNat ≤ 256) : execFtser s = .next (s.storeOutput 0 (sectionBytes s.table)).complete := by
  have : ¬ 256 < s.nsym.toNat := by omega
  simp only [execFtser, this, if_false]

theorem execFtser_bad (h : 256 < s.nsym.toNat) : execFtser s = .next (s.raise .badTable (badTableInfo 3 0)) := by
  simp only [execFtser, h, if_true]

theorem execFtparse_range (h : s.windowLegal = false) : execFtparse s = .next (s.raise .range 1) := by
  simp only [execFtparse, h, Bool.not_false, if_true]

theorem execFtparse_short (hw : s.windowLegal = true) (h : s.windowLength < 2) :
    execFtparse s = .next (s.raise .formatVersion 1) := by
  simp only [execFtparse, hw, Bool.not_true, Bool.false_eq_true, if_false, length_window, h, if_true]

theorem execFtparse_many (hw : s.windowLegal = true) (h1 : 2 ≤ s.windowLength) (h : 256 < be16 s.window 0) :
    execFtparse s = .next (s.raise .formatVersion 2) := by
  have : ¬ s.windowLength < 2 := by omega
  simp only [execFtparse, hw, Bool.not_true, Bool.false_eq_true, if_false, length_window, this, h, if_true]

theorem execFtparse_truncated (hw : s.windowLegal = true) (h1 : 2 ≤ s.windowLength) (h2 : be16 s.window 0 ≤ 256)
    (h : s.windowLength < 2 + 5 * be16 s.window 0) : execFtparse s = .next (s.raise .formatVersion 3) := by
  have a : ¬ s.windowLength < 2 := by omega
  have b : ¬ 256 < be16 s.window 0 := by omega
  simp only [execFtparse, hw, Bool.not_true, Bool.false_eq_true, if_false, length_window, a, b, h, if_true]

theorem execFtparse_ok (hw : s.windowLegal = true) (h1 : 2 ≤ s.windowLength) (h2 : be16 s.window 0 ≤ 256)
    (h : 2 + 5 * be16 s.window 0 ≤ s.windowLength) :
    execFtparse s = .next ({ s.storeTable (parsedTable s.window (be16 s.window 0)) with
      inOff := BitVec.ofNat 32 (s.inOff.toNat + 2 + 5 * be16 s.window 0) } : State).complete := by
  have a : ¬ s.windowLength < 2 := by omega
  have b : ¬ 256 < be16 s.window 0 := by omega
  have c : ¬ s.windowLength < 2 + 5 * be16 s.window 0 := by omega
  simp only [execFtparse, hw, Bool.not_true, Bool.false_eq_true, if_false, length_window, a, b, c]

@[simp] theorem length_parsedTable (w : List Byte) (n : Nat) : (parsedTable w n).length = n := by simp [parsedTable]

/-! ### Everything a command can end in -/

theorem next_inj {s t : State} (h : (Host.Outcome.next s : Host.Outcome State Fault Refusal) = .next t) : s = t := by
  injection h

/-- The two errors of BUILD's checks (R141). -/
theorem tableFault_kind {n : Nat} {t : List FtEntry} {e : HceError} {i : Word} (h : tableFault n t = some (e, i)) :
    e = .emptyInput ∨ e = .badTable := by
  unfold tableFault at h
  split at h
  · simp at h; simp [h.1.symm]
  split at h
  · simp at h; simp [h.1.symm]
  split at h
  · simp at h; simp [h.1.symm]
  · cases h

/-- All that a command can end in, with the conditions it ends so under (R260). -/
inductive ExecResult (s : State) : Instr → State → Prop
  | clear : ExecResult s .clear ({ s with inOff := 0, inLen := 0, outLen := 0, nsym := 0, seqLen := 0, root := 0, mv := false } : State).complete
  | countRange : s.windowLegal = false → ExecResult s .count (s.raise .range 1)
  | countOk : s.windowLegal = true → ExecResult s .count (s.storeTable (countTable s.window)).complete
  | buildError (e i) : tableFault s.nsym.toNat s.table = some (e, i) → (e = .emptyInput ∨ e = .badTable) → ExecResult s .build (s.forgetModel.raise e i)
  | buildOk : TableOk s.table → ExecResult s .build (s.storeModel (buildNodes s.table) (ctOf (codesOf (buildNodes s.table) (rootOf s.table))) (rootOf s.table)).complete
  | encodeNoModel (a) : s.mv = false → ExecResult s (.encode a) (s.raise .noModel 0)
  | encodeRange (a) : s.mv = true → s.windowLegal = false → ExecResult s (.encode a) (s.raise .range 1)
  | encodeUnknown (a k) : s.mv = true → s.windowLegal = true → ExecResult s (.encode a) ((s.storeOutput (s.encodeBase a) []).raise .unknownSymbol (BitVec.ofNat 32 k))
  | encodeOverflow (a) : s.mv = true → s.windowLegal = true → ExecResult s (.encode a) ((s.storeOutput (s.encodeBase a) []).raise .range 2)
  | encodeOk (a d) : s.mv = true → s.windowLegal = true → concatCodes s.ctAt s.inOff.toNat s.window = .ok d → s.encodeBase a + (packStream d).length ≤ s.params.bufBytes →
      ExecResult s (.encode a) ({ s.storeOutput (s.encodeBase a) (packStream d) with seqLen := BitVec.ofNat 32 s.windowLength } : State).complete
  | decodeNoModel : s.mv = false → ExecResult s .decode (s.raise .noModel 0)
  | decodeRange : s.mv = true → s.windowLegal = false → ExecResult s .decode (s.raise .range 1)
  | decodeMalformed (k) : s.mv = true → s.windowLegal = true → ExecResult s .decode ((s.storeOutput 0 []).raise .malformedStream k)
  | decodeOverflow : s.mv = true → s.windowLegal = true → ExecResult s .decode ((s.storeOutput 0 []).raise .range 2)
  | decodeOk (y) : s.mv = true → s.windowLegal = true → y.length ≤ s.params.bufBytes → ExecResult s .decode (s.storeOutput 0 y).complete
  | ftserBad : 256 < s.nsym.toNat → ExecResult s .ftser (s.raise .badTable (badTableInfo 3 0))
  | ftserOk : s.nsym.toNat ≤ 256 → ExecResult s .ftser (s.storeOutput 0 (sectionBytes s.table)).complete
  | ftparseRange : s.windowLegal = false → ExecResult s .ftparse (s.raise .range 1)
  | ftparseFormat (k) : s.windowLegal = true → ExecResult s .ftparse (s.raise .formatVersion k)
  | ftparseOk : s.windowLegal = true → be16 s.window 0 ≤ 256 → 2 + 5 * be16 s.window 0 ≤ s.windowLength →
      ExecResult s .ftparse ({ s.storeTable (parsedTable s.window (be16 s.window 0)) with
      inOff := BitVec.ofNat 32 (s.inOff.toNat + 2 + 5 * be16 s.window 0) } : State).complete

/-- Every next state of `exec` is one of `ExecResult`: provers cite this and do not unfold the meanings. -/
theorem exec_result {i : Instr} {s t : State} (h : exec i s = .next t) : ExecResult s i t := by
  cases i with
  | clear => obtain rfl := next_inj h; exact .clear
  | count =>
    simp only [exec] at h
    cases hw : s.windowLegal with
    | true => rw [execCount_ok s hw] at h; obtain rfl := next_inj h; exact .countOk hw
    | false => rw [execCount_range s hw] at h; obtain rfl := next_inj h; exact .countRange hw
  | build =>
    simp only [exec] at h
    rcases execBuild_cases s with ⟨ht, -⟩ | ⟨e, i, hf⟩
    · rw [execBuild_ok s ht] at h; obtain rfl := next_inj h; exact .buildOk ht
    · rw [execBuild_error s hf] at h; obtain rfl := next_inj h; exact .buildError e i hf (tableFault_kind hf)
  | encode a =>
    simp only [exec] at h
    cases hm : s.mv with
    | false => rw [execEncode_noModel s a hm] at h; obtain rfl := next_inj h; exact .encodeNoModel a hm
    | true =>
    cases hw : s.windowLegal with
    | false => rw [execEncode_range s a hm hw] at h; obtain rfl := next_inj h; exact .encodeRange a hm hw
    | true =>
    cases hc : concatCodes s.ctAt s.inOff.toNat s.window with
    | error k => rw [execEncode_unknown s a hm hw hc] at h; obtain rfl := next_inj h; exact .encodeUnknown a k hm hw
    | ok d =>
      by_cases hf : s.params.bufBytes < s.encodeBase a + (packStream d).length
      · rw [execEncode_overflow s a hm hw hc hf] at h; obtain rfl := next_inj h; exact .encodeOverflow a hm hw
      · rw [execEncode_ok s a hm hw hc (by omega)] at h; obtain rfl := next_inj h; exact .encodeOk a d hm hw hc (by omega)
  | decode =>
    simp only [exec] at h
    cases hm : s.mv with
    | false => rw [execDecode_noModel s hm] at h; obtain rfl := next_inj h; exact .decodeNoModel hm
    | true =>
    cases hw : s.windowLegal with
    | false => rw [execDecode_range s hm hw] at h; obtain rfl := next_inj h; exact .decodeRange hm hw
    | true =>
    cases hx : s.window with
    | nil => rw [execDecode_empty s hm hw hx] at h; obtain rfl := next_inj h; exact .decodeMalformed 1 hm hw
    | cons b body =>
      by_cases hp : 8 * body.length < b.toNat
      · rw [execDecode_padding s hm hw hx hp] at h; obtain rfl := next_inj h; exact .decodeMalformed 2 hm hw
      · cases hd : s.degen with
        | true =>
          rw [execDecode_degenerate s hm hw hx (by omega) hd, State.decodeDegenerate] at h
          split at h
          · obtain rfl := next_inj h; exact .decodeMalformed 4 hm hw
          split at h
          · obtain rfl := next_inj h; exact .decodeOverflow hm hw
          · obtain rfl := next_inj h; exact .decodeOk _ hm hw (by simp; omega)
        | false =>
          rw [execDecode_walk s hm hw hx (by omega) hd, State.decodeWalk] at h
          split at h
          · obtain rfl := next_inj h; exact .decodeMalformed 3 hm hw
          split at h
          · obtain rfl := next_inj h; exact .decodeOverflow hm hw
          · obtain rfl := next_inj h; exact .decodeOk _ hm hw (by omega)
  | ftser =>
    simp only [exec] at h
    by_cases hn : s.nsym.toNat ≤ 256
    · rw [execFtser_ok s hn] at h; obtain rfl := next_inj h; exact .ftserOk hn
    · rw [execFtser_bad s (by omega)] at h; obtain rfl := next_inj h; exact .ftserBad (by omega)
  | ftparse =>
    simp only [exec] at h
    cases hw : s.windowLegal with
    | false => rw [execFtparse_range s hw] at h; obtain rfl := next_inj h; exact .ftparseRange hw
    | true =>
      by_cases h1 : s.windowLength < 2
      · rw [execFtparse_short s hw h1] at h; obtain rfl := next_inj h; exact .ftparseFormat 1 hw
      by_cases h2 : 256 < be16 s.window 0
      · rw [execFtparse_many s hw (by omega) h2] at h; obtain rfl := next_inj h; exact .ftparseFormat 2 hw
      by_cases h3 : s.windowLength < 2 + 5 * be16 s.window 0
      · rw [execFtparse_truncated s hw (by omega) (by omega) h3] at h; obtain rfl := next_inj h; exact .ftparseFormat 3 hw
      · rw [execFtparse_ok s hw (by omega) (by omega) (by omega)] at h; obtain rfl := next_inj h
        exact .ftparseOk hw (by omega) (by omega)


/-- An error entry leaves its record (R261). -/
theorem raise_completedWith (e : HceError) (i : Word) : CompletedWith e i (s.raise e i) := ⟨rfl, rfl, rfl, rfl, rfl⟩

end Sys2Proof.Machine
end

