-- ==== Sys2Proof/Laws/HostPort.lean ====
section
/-! SUPPORT. The words the host reads, bit by bit (10_state.md R23, R34, R35), and what the host's legal accesses come to. -/

namespace Sys2Proof.Machine

/-! ### STATUS (R23) -/

theorem statusWord_getLsbD (s : State) (k : Nat) : s.statusWord.getLsbD k =
    if k = 0 then s.busy else if k = 1 then s.done else if k = 2 then s.err else if k = 3 then s.mv
    else if k = 4 then s.degen else if 8 ≤ k ∧ k < 16 then s.errcode.getLsbD (k - 8) else false := by
  have e : s.statusWord.getLsbD k = ((0 : BitVec 16) ++ s.errcode ++ (0 : BitVec 3) ++ BitVec.ofBool s.degen
      ++ BitVec.ofBool s.mv ++ BitVec.ofBool s.err ++ BitVec.ofBool s.done ++ BitVec.ofBool s.busy :
      BitVec (16 + 8 + 3 + 1 + 1 + 1 + 1 + 1)).getLsbD k := rfl
  rw [e]
  match k with
  | 0 | 1 | 2 | 3 | 4 | 5 | 6 | 7 =>
    simp only [BitVec.getLsbD_append, BitVec.getLsbD_ofBool]
    simp
  | k + 8 =>
    simp only [BitVec.getLsbD_append, BitVec.getLsbD_ofBool]
    by_cases h : k < 8
    · have h' : k + 8 < 16 := by omega
      simp [h, h']
    · have h' : ¬ k + 8 < 16 := by omega
      simp [h, h']

/-! ### NODE (R34) -/

theorem nodeWord_two_getLsbD (e : Node) (k : Nat) : (nodeWord e 2).getLsbD k =
    if k < 8 then e.sym.getLsbD k else if k = 31 then e.leaf else false := by
  have h : (nodeWord e 2).getLsbD k =
      (BitVec.ofBool e.leaf ++ (0 : BitVec 23) ++ e.sym : BitVec (1 + 23 + 8)).getLsbD k := rfl
  rw [h, BitVec.getLsbD_append, BitVec.getLsbD_append, BitVec.getLsbD_ofBool]
  by_cases h8 : k < 8
  · simp [h8]
  · by_cases h31 : k = 31
    · subst h31; simp
    · by_cases hlt : k - 8 < 23
      · simp [h8, h31, hlt]
      · have : ¬ k - 8 - 23 = 0 := by omega
        simp [h8, h31, hlt, this]

theorem nodeWord_three_getLsbD (e : Node) (k : Nat) : (nodeWord e 3).getLsbD k =
    if k < 9 then e.left.getLsbD k else if 16 ≤ k ∧ k < 25 then e.right.getLsbD (k - 16) else false := by
  have h : (nodeWord e 3).getLsbD k =
      ((0 : BitVec 7) ++ e.right ++ (0 : BitVec 7) ++ e.left : BitVec (7 + 9 + 7 + 9)).getLsbD k := rfl
  rw [h, BitVec.getLsbD_append, BitVec.getLsbD_append, BitVec.getLsbD_append]
  by_cases h9 : k < 9
  · simp [h9]
  · by_cases h16 : k < 16
    · have : k - 9 < 7 := by omega
      have h2 : ¬ 16 ≤ k := by omega
      simp [h9, this, h2]
    · have h1 : ¬ k - 9 < 7 := by omega
      have h2 : 16 ≤ k := by omega
      have h3 : k - 9 - 7 = k - 16 := by omega
      by_cases h25 : k < 25
      · have h4 : k - 16 < 9 := by omega
        simp [h9, h1, h2, h3, h25, h4]
      · have h4 : ¬ k - 16 < 9 := by omega
        simp [h9, h1, h2, h3, h25, h4]

/-! ### CT (R35) -/

theorem bitsToNat_append (a : Bits) (b : Bool) : bitsToNat (a ++ [b]) = 2 * bitsToNat a + b.toNat := by
  simp [bitsToNat]

theorem testBit_bitsToNat (a : Bits) (k : Nat) :
    (bitsToNat a).testBit k = if k < a.length then a.getD (a.length - 1 - k) false else false := by
  induction a using List.reverseRecOn generalizing k with
  | nil => simp [bitsToNat]
  | append_singleton a b ih =>
    rw [bitsToNat_append]
    cases k with
    | zero =>
      have hb : (2 * bitsToNat a + b.toNat) % 2 = b.toNat := by have := b.toNat_lt; omega
      rw [Nat.testBit_zero, hb]
      cases b <;> simp
    | succ k =>
      have hd : (2 * bitsToNat a + b.toNat) / 2 = bitsToNat a := by have := b.toNat_lt; omega
      rw [Nat.testBit_succ, hd, ih]
      by_cases h : k < a.length
      · have h2 : a.length - (k + 1) < a.length := by omega
        simp only [List.length_append, List.length_singleton, Nat.add_lt_add_iff_right, h, if_true]
        rw [List.getD_append _ _ _ _ (by omega)]
        congr 1; omega
      · simp [h]

theorem codeWord_getLsbD (code : Bits) (k i : Nat) (hi : i < 32) :
    (codeWord code k).getLsbD (31 - i) = code.getD (k + i) false := by
  have hlen : (((code.drop k).take 32) ++ zeros (32 - ((code.drop k).take 32).length)).length = 32 := by
    simp [zeros]
  unfold codeWord
  rw [BitVec.getLsbD_ofNat, testBit_bitsToNat, hlen]
  have h1 : 31 - i < 32 := by omega
  have h2 : 32 - 1 - (31 - i) = i := by omega
  simp only [h1, decide_true, Bool.true_and, if_true, h2]
  by_cases h : i < ((code.drop k).take 32).length
  · rw [List.getD_append _ _ _ _ h]
    simp only [List.length_take, List.length_drop] at h
    simp [List.getD_eq_getElem?_getD, List.getElem?_drop, hi]
  · rw [List.getD_append_right _ _ _ _ (by omega)]
    simp only [List.length_take, List.length_drop] at h
    have h3 : code.length ≤ k + i := by omega
    simp [zeros, List.getD_eq_getElem?_getD, List.getElem?_replicate, List.getElem?_eq_none h3]
    split <;> rfl

/-! ### Writes -/

theorem hostWrite_ft_sym (s : State) (hp : s.phase = .idle) {i : Nat} (hi : i < 256) (v : Word) :
    s.hostWrite .ft (2 * i) 4 v = { s with ftSym := s.ftSym.write i (v.setWidth 8), mv := false } := by
  have h : 2 * i < 512 := by omega
  simp [State.hostWrite, State.busy, hp, accessLegal, State.writeFtWord, h]

theorem hostWrite_ft_count (s : State) (hp : s.phase = .idle) {i : Nat} (hi : i < 256) (v : Word) :
    s.hostWrite .ft (2 * i + 1) 4 v = { s with ftCount := s.ftCount.write i v, mv := false } := by
  have a : (2 * i + 1) / 2 = i := by omega
  have h : 2 * i + 1 < 512 := by omega
  simp [State.hostWrite, State.busy, hp, accessLegal, State.writeFtWord, a, h]

theorem hostWrite_ibuf (s : State) (hp : s.phase = .idle) {k : Nat} (hk : k < s.params.bufBytes) (v : Word) :
    s.hostWrite .ibuf k 1 v = { s with ibuf := s.ibuf.write k (v.setWidth 8) } := by
  simp [State.hostWrite, State.busy, hp, accessLegal, hk]

theorem hostWrite_cmd (s : State) (hp : s.phase = .idle) (w : Word) : s.hostWrite .reg offCmd 4 w = s.accept w := by
  simp [State.hostWrite, State.busy, hp, accessLegal, State.writeReg, offCmd]

theorem hostWrite_busy (s : State) (hp : s.phase = .run) (sp : Space) (idx size : Nat) (v : Word) :
    s.hostWrite sp idx size v = s := by
  simp [State.hostWrite, State.busy, hp]

end Sys2Proof.Machine
end

