-- ==== Sys2Proof/Laws/Invariant.lean ====
section
/-! SUPPORT. Each shared operation keeps the invariant of the machine. -/

namespace Sys2Proof.Machine

variable {s : State}

theorem State.Inv.complete (h : s.Inv) : s.complete.Inv where
  memories := h.memories
  output := h.output
  record := ⟨fun _ => ⟨rfl, rfl⟩, fun e => by simp at e, fun e => by simp at e⟩
  model := fun hm => (h.model hm).congr rfl rfl rfl rfl rfl rfl
  draws := h.draws

theorem State.Inv.raise (h : s.Inv) (e : HceError) (info : Word) : (s.raise e info).Inv where
  memories := h.memories
  output := h.output
  record := ⟨fun x => by simp at x, fun _ => ⟨e, rfl⟩, fun x => by simp at x⟩
  model := fun hm => (h.model hm).congr rfl rfl rfl rfl rfl rfl
  draws := h.draws

theorem State.Inv.accept (h : s.Inv) (w : Word) : (s.accept w).Inv where
  memories := h.memories
  output := h.output
  record := ⟨fun _ => ⟨rfl, rfl⟩, fun e => by simp at e, fun _ => ⟨rfl, rfl⟩⟩
  model := fun hm => (h.model hm).congr rfl rfl rfl rfl rfl rfl
  draws := h.draws

theorem State.Inv.withPending (h : s.Inv) (rest : List HostEvent) : (s.withPending rest).Inv where
  memories := h.memories
  output := h.output
  record := h.record
  model := fun hm => (h.model hm).congr rfl rfl rfl rfl rfl rfl
  draws := h.draws

/-- Old draws stay past, and a store records the draw it was made at. -/
theorem marks_store {α : Type} {m : Memory α} {d base : Nat} {values : List α} (h : ∀ p ∈ m.marks, p.2 < d) :
    ∀ p ∈ (m.store base values d).marks, p.2 < d + 1 := by
  intro p hp
  rcases mem_store_marks hp with e | hp
  · omega
  · have := h p hp; omega

theorem marks_later {α : Type} {m : Memory α} {d : Nat} (h : ∀ p ∈ m.marks, p.2 < d) : ∀ p ∈ m.marks, p.2 < d + 1 :=
  fun p hp => Nat.lt_succ_of_lt (h p hp)

theorem State.Inv.storeTable (h : s.Inv) (t : List FtEntry) (ht : t.length ≤ 256) : (s.storeTable t).Inv where
  memories := by
    obtain ⟨a, b, c, d, e, f⟩ := h.memories
    exact ⟨store_wf a (by simpa using ht) _, store_wf b (by simpa using ht) _, c, d, e, f⟩
  output := h.output
  record := h.record
  model := fun hm => by simp at hm
  draws := by
    obtain ⟨z, a, b, c, d, e, f⟩ := h.draws
    exact ⟨Nat.succ_pos _, marks_store a, marks_store b, marks_later c, marks_later d, marks_later e, marks_later f⟩

theorem State.Inv.buildModel (h : s.Inv) (ht : TableOk s.table) :
    (s.storeModel (buildNodes s.table) (ctOf (codesOf (buildNodes s.table) (rootOf s.table))) (rootOf s.table)).Inv where
  memories := by
    obtain ⟨a, b, c, d, e, f⟩ := h.memories
    have hl := length_buildNodes ht
    have := ht.2.1
    refine ⟨a, b, store_wf c ?_ _, store_wf d ?_ _, e, f⟩
    · simp only [Config.nodeMax]; omega
    · rw [length_ctOf]
  output := h.output
  record := h.record
  model := fun _ => storeModel_holds s ht
  draws := by
    obtain ⟨z, a, b, c, d, e, f⟩ := h.draws
    exact ⟨Nat.succ_pos _, marks_later a, marks_later b, marks_store c, marks_store d, marks_later e, marks_later f⟩

theorem State.Inv.forgetModel (h : s.Inv) : s.forgetModel.Inv where
  memories := by
    obtain ⟨a, b, c, d, e, f⟩ := h.memories
    exact ⟨a, b, forget_wf c _, forget_wf d _, e, f⟩
  output := h.output
  record := h.record
  model := fun hm => by simp at hm
  draws := by
    obtain ⟨z, a, b, c, d, e, f⟩ := h.draws
    exact ⟨Nat.succ_pos _, marks_later a, marks_later b, marks_store c, marks_store d, marks_later e, marks_later f⟩

/-- An output that fits, above a base within the output held so far. -/
theorem State.Inv.storeOutput (h : s.Inv) (base : Nat) (y : List Byte) (hb : base ≤ s.outLen.toNat)
    (hfit : base + y.length ≤ s.params.bufBytes) : (s.storeOutput base y).Inv where
  memories := by
    obtain ⟨a, b, c, d, e, f⟩ := h.memories
    exact ⟨a, b, c, d, e, store_wf f hfit _⟩
  output := by
    have hl := outLen_storeOutput s base y hfit
    refine ⟨by rw [hl]; exact hfit, ?_⟩
    intro k hk
    rw [hl] at hk
    rw [storeOutput_obuf, known_store]
    by_cases hkb : k < base
    · rw [if_pos hkb]
      exact h.output.2 k (by omega)
    · rw [if_neg hkb, List.getElem?_eq_getElem (by omega)]
      rfl
  record := h.record
  model := fun hm => (h.model hm).congr rfl rfl rfl rfl rfl rfl
  draws := by
    obtain ⟨z, a, b, c, d, e, f⟩ := h.draws
    exact ⟨Nat.succ_pos _, marks_later a, marks_later b, marks_later c, marks_later d, marks_later e, marks_store f⟩

theorem State.Inv.hostRead (h : s.Inv) (sp : Space) (idx size : Nat) : (s.hostRead sp idx size).Inv where
  memories := h.memories
  output := h.output
  record := h.record
  model := fun hm => (h.model hm).congr rfl rfl rfl rfl rfl rfl
  draws := by
    obtain ⟨z, a, b, c, d, e, f⟩ := h.draws
    exact ⟨Nat.succ_pos _, marks_later a, marks_later b, marks_later c, marks_later d, marks_later e, marks_later f⟩

theorem State.Inv.writeReg (h : s.Inv) (off : Nat) (v : Word) : (s.writeReg off v).Inv := by
  unfold State.writeReg
  split
  · exact h.accept v
  split
  · exact ⟨h.memories, h.output, h.record, fun hm => (h.model hm).congr rfl rfl rfl rfl rfl rfl, h.draws⟩
  split
  · exact ⟨h.memories, h.output, h.record, fun hm => (h.model hm).congr rfl rfl rfl rfl rfl rfl, h.draws⟩
  split
  · exact ⟨h.memories, h.output, h.record, fun hm => by simp at hm, h.draws⟩
  split
  · exact ⟨h.memories, h.output, h.record, fun hm => (h.model hm).congr rfl rfl rfl rfl rfl rfl, h.draws⟩
  · exact h

theorem State.Inv.writeFtWord (h : s.Inv) (j : Nat) (hj : j < 512) (v : Word) : (s.writeFtWord j v).Inv := by
  obtain ⟨a, b, c, d, e, f⟩ := h.memories
  unfold State.writeFtWord
  split
  · exact ⟨⟨write_wf a (by omega) _, b, c, d, e, f⟩, h.output, h.record, fun hm => by simp at hm, h.draws⟩
  · exact ⟨⟨a, write_wf b (by omega) _, c, d, e, f⟩, h.output, h.record, fun hm => by simp at hm, h.draws⟩

theorem State.Inv.hostWrite (h : s.Inv) (sp : Space) (idx size : Nat) (v : Word) : (s.hostWrite sp idx size v).Inv := by
  unfold State.hostWrite
  split
  · exact h
  · next hl =>
    simp only [Bool.or_eq_true, Bool.not_eq_true', not_or, Bool.not_eq_false] at hl
    obtain ⟨-, hl⟩ := hl
    cases sp with
    | reg => exact h.writeReg idx v
    | ft =>
      refine h.writeFtWord idx ?_ v
      simp [accessLegal] at hl
      exact hl.2
    | node => exact h
    | ct => exact h
    | ibuf =>
      obtain ⟨a, b, c, d, e, f⟩ := h.memories
      simp [accessLegal] at hl
      exact ⟨⟨a, b, c, d, write_wf e hl.2 _, f⟩, h.output, h.record,
        fun hm => (h.model hm).congr rfl rfl rfl rfl rfl rfl, h.draws⟩
    | obuf => exact h

theorem State.Inv.busRead (h : s.Inv) (addr size : Nat) : (s.busRead addr size).Inv := by
  unfold State.busRead
  split
  · exact h.hostRead _ _ _
  · obtain ⟨z, a, b, c, d, e, f⟩ := h.draws
    exact ⟨h.memories, h.output, h.record, fun hm => (h.model hm).congr rfl rfl rfl rfl rfl rfl,
      ⟨Nat.succ_pos _, marks_later a, marks_later b, marks_later c, marks_later d, marks_later e, marks_later f⟩⟩

theorem State.Inv.busWrite (h : s.Inv) (addr size : Nat) (v : Word) : (s.busWrite addr size v).Inv := by
  unfold State.busWrite
  split
  · exact h.hostWrite _ _ _ _
  · exact h

theorem State.Inv.skipIfErr (h : s.Inv) (n : Nat) : (s.skipIfErr n).Inv := by
  unfold State.skipIfErr
  split
  · exact h.withPending _
  · exact h

theorem afterReset_wf {α : Type} {m : Memory α} {size : Nat} (h : m.wf size) (kept : Bool) (d : Nat) :
    (m.afterReset kept d).wf size := by
  unfold Memory.afterReset
  split
  · exact h
  · exact forget_wf h d

theorem marks_afterReset {α : Type} {m : Memory α} {d : Nat} (h : ∀ p ∈ m.marks, p.2 < d) (kept : Bool) :
    ∀ p ∈ (m.afterReset kept d).marks, p.2 < d + 1 := by
  unfold Memory.afterReset
  split
  · exact marks_later h
  · exact marks_store h

theorem State.Inv.afterReset (h : s.Inv) : s.afterReset.Inv := by
  obtain ⟨a, b, c, d, e, f⟩ := h.memories
  obtain ⟨z, ma, mb, mc, md, me, mf⟩ := h.draws
  refine ⟨⟨afterReset_wf a _ _, afterReset_wf b _ _, afterReset_wf c _ _, afterReset_wf d _ _, afterReset_wf e _ _,
    afterReset_wf f _ _⟩, ⟨Nat.zero_le _, fun k hk => ?_⟩, ⟨fun _ => ⟨rfl, rfl⟩, fun e => ?_, fun e => ?_⟩, fun hm => ?_,
    ⟨Nat.succ_pos _, marks_afterReset ma _, marks_afterReset mb _, marks_afterReset mc _, marks_afterReset md _,
      marks_afterReset me _, marks_afterReset mf _⟩⟩
  · simp [State.afterReset, State.resetOf] at hk
  · simp [State.afterReset, State.resetOf] at e
  · simp [State.afterReset, State.resetOf] at e
  · simp [State.afterReset, State.resetOf] at hm

end Sys2Proof.Machine
end

