-- ==== Sys2Proof/Laws/PerInstr.lean ====
section
/-! SUPPORT. Statements made per instruction, one lemma per constructor of Instr. -/

namespace Sys2Proof.Laws.Encoding

/-- The fields of a command's word pass the checks of R94, they decode to the command, and the word they make splits
into them again. -/
def Statement (i : Instr) : Prop :=
  (commandOf i).wellFormed = true ∧ decodeCommand (commandOf i) = .ok i ∧ splitCommand (encodeCmd i) = commandOf i

theorem clear : Statement .clear := by unfold Statement; decide

theorem count : Statement .count := by unfold Statement; decide

theorem build : Statement .build := by unfold Statement; decide

theorem encode (append : Bool) : Statement (.encode append) := by unfold Statement; revert append; decide

theorem decode : Statement .decode := by unfold Statement; decide

theorem ftser : Statement .ftser := by unfold Statement; decide

theorem ftparse : Statement .ftparse := by unfold Statement; decide

end Sys2Proof.Laws.Encoding
end

