-- ==== Sys2Proof/Tests/Slice0.lean ====
section
/-! SUPPORT. Tests: words, single steps with the results of spec/95_test_vectors.md (the vector is named in each
docstring), and for every statement that has hypotheses a `witness_` theorem that meets them, clause by clause. -/

namespace Sys2Proof.Tests

set_option Elab.async false

open Sys2Proof Sys2Proof.Machine

/-! ### Small states -/

/-- A memory that holds a list of values from index 0 up. -/
def mem {α : Type} (l : List α) : Memory α := ⟨cellsFrom 0 l, []⟩

/-- The state an outcome answers. -/
def after (o : Host.Outcome State Fault Refusal) : State :=
  match o with
  | .next t => t
  | .fault _ => State.reset
  | .refused _ => State.reset

/-- Whether an outcome is a next state. -/
def isNext (o : Host.Outcome State Fault Refusal) : Bool :=
  match o with
  | .next _ => true
  | .fault _ => false
  | .refused _ => false

theorem next_after {o : Host.Outcome State Fault Refusal} (h : isNext o = true) : o = .next (after o) := by
  cases o with
  | next t => rfl
  | fault r => cases h
  | refused r => cases h

/-- Reset with a frequency table. -/
def withTable (t : List (Byte × Word)) : State :=
  { State.reset with ftSym := mem (t.map Prod.fst), ftCount := mem (t.map Prod.snd), nsym := BitVec.ofNat 9 t.length }

/-- The state after BUILD of a table. -/
def built (t : List (Byte × Word)) : State := after (exec .build (withTable t))

/-- A state with a window that starts at IBUF index 0. -/
def loaded (s : State) (w : List Byte) : State :=
  { s with ibuf := mem w, inOff := 0, inLen := BitVec.ofNat 32 w.length }

/-- A state with BUF_BYTES = 1282, the least. -/
def small (s : State) : State := { s with params := ⟨1282, 0, by decide, by decide⟩ }

/-- V-B1's table. -/
def tableB1 : List (Byte × Word) := [(0x61, 5), (0x62, 2), (0x63, 1), (0x64, 1)]

/-- V-B8's table, of one entry. -/
def tableB8 : List (Byte × Word) := [(0x61, 4)]

/-- V-B9's symbols, with codes of one bit. -/
def tableB9 : List (Byte × Word) := [(0x00, 1), (0xFF, 1)]

/-- A full table (V-B15). -/
def tableB15 : List FtEntry := (List.range 256).map (fun n => ⟨BitVec.ofNat 8 n, 1⟩)

/-- "abacabad". -/
def abacabad : List Byte := [0x61, 0x62, 0x61, 0x63, 0x61, 0x62, 0x61, 0x64]

/-! ### Words (R90 to R94) -/

theorem test_ill_formed_reserved : (splitCommand 0x204).wellFormed = false ∧ decodeCmd 0x204 = .error .reservedBits := by
  decide

theorem test_ill_formed_opcode_zero : (splitCommand 0x000).wellFormed = false ∧ decodeCmd 0x000 = .error .unknownOpcode := by
  decide

theorem test_ill_formed_opcode_eight : (splitCommand 0x008).wellFormed = false ∧ decodeCmd 0x008 = .error .unknownOpcode := by
  decide

theorem test_ill_formed_append : (splitCommand 0x105).wellFormed = false ∧ decodeCmd 0x105 = .error .appendFlag := by
  decide

theorem test_ill_formed_top_bit : (splitCommand 0x80000001).wellFormed = false ∧ decodeTableWord 32 0x80000001 = none := by
  decide

theorem test_decode_clear : decodeCmd 0b0000000000000000000000_0_0_00000001 = .ok .clear := by decide

theorem test_decode_count : decodeCmd 0b0000000000000000000000_0_0_00000010 = .ok .count := by decide

theorem test_decode_build : decodeCmd 0b0000000000000000000000_0_0_00000011 = .ok .build := by decide

theorem test_decode_encode : decodeCmd 0b0000000000000000000000_0_0_00000100 = .ok (.encode false) := by decide

theorem test_decode_encode_append : decodeCmd 0b0000000000000000000000_0_1_00000100 = .ok (.encode true) := by decide

theorem test_decode_decode : decodeCmd 0b0000000000000000000000_0_0_00000101 = .ok .decode := by decide

theorem test_decode_ftser : decodeCmd 0b0000000000000000000000_0_0_00000110 = .ok .ftser := by decide

theorem test_decode_ftparse : decodeCmd 0b0000000000000000000000_0_0_00000111 = .ok .ftparse := by decide

/-! ### Single steps, with the results of spec/95_test_vectors.md -/

/-- V-X1: CLEAR leaves STATUS 0x02 and the registers 0. -/
theorem test_clear : (after (step ((loaded (built tableB1) abacabad).withFetchWord 32 0x001))).statusWord = 0x02 ∧
    (after (exec .clear (loaded (built tableB1) abacabad))).inLen = 0 := by decide +kernel

/-- R120's worked example. -/
theorem test_count : (after (exec .count (loaded State.reset abacabad))).table =
    [⟨0x61, 4⟩, ⟨0x62, 2⟩, ⟨0x63, 1⟩, ⟨0x64, 1⟩] := by decide +kernel

/-- An empty window gives NSYM = 0 (R120). -/
theorem test_count_empty : (after (exec .count State.reset)).nsym = 0 := by decide +kernel

/-- V-B1: node 6 and the codeword of c, as the host reads them. -/
theorem test_build : (built tableB1).readValue .node 27 4 = some 0x00000005 ∧
    (built tableB1).readValue .ct 1584 4 = some 0x80000003 ∧
    (built tableB1).readValue .ct 1585 4 = some 0x40000000 := by decide +kernel

/-- V-B24: the zero count at index 0 is reported, not the duplicate at 1. -/
theorem test_build_bad_table : (built [(0x61, 0), (0x61, 0), (0x62, 1)]).errinfo = 0x00010000 := by decide +kernel

/-- V-E1. -/
theorem test_encode : (after (exec (.encode false) (loaded (built tableB1) abacabad))).outputBytes = [0x02, 0x95, 0x2C] := by
  decide +kernel

/-- V-E31 at IN_OFF = 1: the detail word is the IBUF index of the unknown symbol. -/
theorem test_encode_unknown : (after (exec (.encode true)
    { loaded (built tableB1) [0x61, 0x61, 0x62, 0x78] with inOff := 1 })).errinfo = 3 := by decide +kernel

/-- V-D1. -/
theorem test_decode_stream : (after (exec .decode (loaded (built tableB1) [0x02, 0x95, 0x2C]))).outputBytes = abacabad := by
  decide +kernel

/-- V-D20: the degenerate model. -/
theorem test_decode_degenerate : (after (exec .decode { loaded (built tableB8) [0x08, 0x00] with seqLen := 4 })).outputBytes =
    [0x61, 0x61, 0x61, 0x61] := by decide +kernel

/-- V-F3: counts of 32 bits, most significant byte first. -/
theorem test_ftser : (after (exec .ftser (withTable [(0x00, 0xFFFFFFFE), (0x01, 0x01020304)]))).outputBytes =
    [0x00, 0x02, 0x00, 0xFF, 0xFF, 0xFF, 0xFE, 0x01, 0x01, 0x02, 0x03, 0x04] := by decide +kernel

/-- V-F17's section. -/
theorem test_ftparse : (after (exec .ftparse (loaded State.reset
    [0x00, 0x02, 0x61, 0x00, 0x00, 0x00, 0x00, 0x61, 0x00, 0x00, 0x01, 0x05, 0x08, 0x00]))).table =
      [⟨0x61, 0⟩, ⟨0x61, 0x105⟩] := by decide +kernel

/-- V-F17: IN_OFF stands on the stream. -/
theorem test_ftparse_offset : (after (exec .ftparse (loaded State.reset
    [0x00, 0x02, 0x61, 0x00, 0x00, 0x00, 0x00, 0x61, 0x00, 0x00, 0x01, 0x05, 0x08, 0x00]))).inOff = 12 := by decide +kernel

/-- R241's worked example: an illegal word after reset, and with a degenerate model valid. -/
theorem test_illegal : (after (step (State.reset.withFetchWord 32 0x000))).statusWord = 0x806 ∧
    (after (step ((built tableB8).withFetchWord 32 0x000))).statusWord = 0x81E := by decide +kernel

/-! ### Witnesses: helpers -/

/-- BUILD of a well-formed table leaves a state that holds its model. -/
theorem built_holds (t : List (Byte × Word)) (h : TableOk (withTable t).table) : (built t).HoldsModel := by
  have e : built t = ((withTable t).storeModel (buildNodes (withTable t).table)
      (ctOf (codesOf (buildNodes (withTable t).table) (rootOf (withTable t).table))) (rootOf (withTable t).table)).complete := by
    show after (execBuild (withTable t)) = _
    rw [execBuild_ok _ h]; rfl
  rw [e]
  exact (storeModel_holds _ h).congr rfl rfl rfl rfl rfl rfl

theorem ok_tableB1 : TableOk (withTable tableB1).table := by unfold TableOk; decide +kernel

theorem ok_tableB8 : TableOk (withTable tableB8).table := by unfold TableOk; decide +kernel

theorem ok_tableB9 : TableOk (withTable tableB9).table := by unfold TableOk; decide +kernel

theorem holds_loaded (t : List (Byte × Word)) (w : List Byte) (h : TableOk (withTable t).table) :
    (loaded (built t) w).HoldsModel := (built_holds t h).congr rfl rfl rfl rfl rfl rfl

/-- The scan of a run of bits that are each a codeword. -/
theorem scan_replicate (inv : Bits → Option Byte) (x : Byte) (h : inv [false] = some x) (n : Nat) :
    scan inv [] (List.replicate n false) = (List.replicate n x, []) := by
  induction n with
  | zero => rfl
  | succ n ih => simp [List.replicate_succ, scan, h, ih]

/-! ### Witnesses: words and the step -/

theorem witness_DecodeThenEncodeGivesWord : decodeCmd 0x104 = .ok (.encode true) ∧ decodeCmd 0x007 = .ok .ftparse := by decide

theorem witness_LegalWordsAreTheEight : ¬ (∃ i, decodeCmd 0x000 = .ok i) ∧ ¬ (∃ i, decodeCmd 0x104F0 = .ok i) ∧
    State.reset.phase = .idle := by
  refine ⟨?_, ?_, rfl⟩ <;> rintro ⟨i, h⟩ <;> cases i <;> revert h <;> decide +revert

theorem witness_StepRunsTheDecodedCommand :
    (∃ (s : State) (i : Instr), decodeCmd s.cmdlatch = .ok i ∧ s.phase = .run ∧ s.host.pending = []) ∧
    (∃ (s : State) (i : Instr) (k : Nat) (rest : List HostEvent) (t : State), decodeCmd s.cmdlatch = .ok i ∧
      s.phase = .run ∧ s.host.pending = .wait k :: rest ∧ exec i (s.withPending rest) = .next t) :=
  ⟨⟨State.reset.accept 1, .clear, by decide, rfl, rfl⟩,
    ⟨State.reset.withFetchWord 32 1, .clear, 0, [], _, by decide, rfl, rfl, rfl⟩⟩

theorem witness_StepTakesTheNextHostEvent : ∀ e : HostEvent, ∃ (s : State) (rest : List HostEvent),
    s.phase = .idle ∧ s.host.pending = e :: rest :=
  fun e => ⟨State.reset.withPending [e], [], rfl, rfl⟩

theorem witness_IdleEngineHoldsItsState : State.reset.phase = .idle ∧ State.reset.host.pending = [] := by decide

theorem witness_IllegalWordReportsAndChangesNothing : ∀ i, decodeCmd 0x00000008 ≠ .ok i := by
  intro i; cases i <;> decide +revert

theorem witness_AcceptedCommandCompletes : (State.reset.accept 0x003).phase = .run ∧
    HostEvent.rst ∉ (State.reset.accept 0x003).host.pending := by decide

/-- Every code of R251 is reached: by a command, and code 8 by an illegal word. -/
theorem witness_ErrorCodesMatchTheirCommands :
    (exec .build State.reset = .next (built []) ∧ (built []).errcode = 1) ∧
    (after (exec (.encode false) (loaded (built tableB1) [0x78]))).errcode = 2 ∧
    (after (exec .decode (loaded (built tableB1) []))).errcode = 3 ∧
    (after (exec .ftparse (loaded State.reset []))).errcode = 4 ∧
    (after (exec .ftser { State.reset with nsym := 257 })).errcode = 5 ∧
    (after (exec .count { State.reset with inOff := 1 })).errcode = 6 ∧
    (after (exec .decode State.reset)).errcode = 7 ∧
    (after (runCommand State.reset)).errcode = 8 ∧ (after (exec .clear State.reset)).errcode = 0 := by
  refine ⟨⟨rfl, by decide +kernel⟩, ?_⟩
  decide +kernel

theorem witness_EveryCompletionLeavesItsRecord :
    (∃ t, runCommand (State.reset.accept 1) = .next t ∧ t.err = false) ∧
    (∃ t, runCommand (State.reset.accept 3) = .next t ∧ t.err = true) := ⟨⟨_, rfl, rfl⟩, ⟨_, rfl, by decide⟩⟩

/-! ### Witnesses: the host port -/

/-- CommandWriteIsAcceptance, OperandRegisterAccess and ClearResetsTheRegisters ask for a phase alone. -/
theorem witness_idle_and_running : State.reset.phase = .idle ∧ (State.reset.accept 1).phase = .run := by decide

theorem witness_BusyHostAccesses : (State.reset.accept 1).phase = .run ∧
    ¬ (Space.reg = .reg ∧ (offCmd = offStatus ∨ offCmd = offBufsz) ∧ (4 : Nat) = 4) := by decide

theorem witness_HostReadsHaveNoSideEffect : State.reset.readValue .reg offStatus 4 = some 0 ∧
    State.reset.readValue .reg 0xFFC 4 = some 0 ∧ State.reset.readValue .reg 0x1000 4 = none := by decide

theorem witness_FrequencyTableHostView : State.reset.phase = .idle ∧ (0 : Nat) < 256 ∧ (255 : Nat) < 256 := by decide

theorem witness_WritesThatClearModelValid : (State.reset.phase = .idle ∧ 511 < 512 ∧ 65535 < State.reset.params.bufBytes) ∧
    (∃ t, exec .count State.reset = .next t ∧ t.err = false) ∧
    (∃ t, exec .ftparse (loaded State.reset [0x00, 0x00]) = .next t ∧ t.err = false) :=
  ⟨by decide, ⟨_, next_after (by decide +kernel), by decide +kernel⟩, ⟨_, next_after (by decide +kernel), by decide +kernel⟩⟩

theorem witness_IgnoredHostAccesses :
    accessLegal State.reset.params .ft 511 4 = true ∧ accessLegal State.reset.params .ft 512 4 = false ∧
    accessLegal State.reset.params .node 2043 4 = true ∧ accessLegal State.reset.params .node 2044 4 = false ∧
    accessLegal State.reset.params .ct 4095 4 = true ∧ accessLegal State.reset.params .ct 4096 4 = false ∧
    accessLegal State.reset.params .reg 0xFFC 4 = true ∧ accessLegal State.reset.params .reg 0x1000 4 = false ∧
    accessLegal State.reset.params .reg 0x02 4 = false ∧ accessLegal State.reset.params .ibuf 65535 1 = true ∧
    accessLegal State.reset.params .obuf 65536 1 = false ∧ accessLegal State.reset.params .ibuf 0 4 = false ∧
    (0x28 : Nat) ∉ [0x00, 0x0C, 0x10, 0x18, 0x1C] ∧ State.reset.phase = .idle := by decide

theorem witness_NodeHostViewLayout : (built tableB1).phase = .idle ∧ (built tableB1).mv = true ∧ (0 : Nat) < 511 ∧
    (510 : Nat) < 511 ∧ State.reset.phase = .idle ∧ State.reset.mv = false := by decide +kernel

theorem witness_CodeHostViewLayout : (built tableB1).phase = .idle ∧ (built tableB1).mv = true ∧
    ((built tableB1).ctAt 0xFF).valid = false ∧ ((built tableB1).ctAt 0x61).valid = true ∧
    ((built tableB1).ctAt 0x61).code.length ≤ 255 ∧ State.reset.mv = false := by decide +kernel

/-- The last element of each region, the neighbours that are reserved, and each end of a reserved range. -/
theorem witness_FlatMapLocatesTheElements :
    locate State.reset.params 0xFFC = some (.reg, 0xFFC) ∧ locate State.reset.params 0x17FC = some (.ft, 511) ∧
    locate State.reset.params (0x2000 + 8172) = some (.node, 2043) ∧ locate State.reset.params 0x7FFC = some (.ct, 4095) ∧
    locate State.reset.params 0x100FFFF = some (.ibuf, 65535) ∧ locate State.reset.params 0x200FFFF = some (.obuf, 65535) ∧
    accessLegal State.reset.params .obuf 65535 1 = true ∧
    locate State.reset.params 0x1800 = none ∧ locate State.reset.params 0x1FFF = none ∧
    locate State.reset.params (0x2000 + 8176) = none ∧ locate State.reset.params 0x3FFF = none ∧
    locate State.reset.params 0x8000 = none ∧ locate State.reset.params 0xFFFFFF = none ∧
    locate State.reset.params 0x1010000 = none ∧ locate State.reset.params 0x1FFFFFF = none ∧
    locate State.reset.params 0x2010000 = none := by decide +kernel

/-! ### Witnesses: reset and the invariant -/

theorem witness_ResetGivesTheRegisterValues : State.reset = State.resetOf Config.defaultParams := rfl

theorem witness_ResetInputForgetsAndKeeps : State.reset.phase = .idle ∧
    ∀ i : Instr, (State.reset.accept (encodeCmd i)).phase = .run ∧
      decodeCmd (State.reset.accept (encodeCmd i)).cmdlatch = .ok i := by
  refine ⟨rfl, fun i => ⟨rfl, ?_⟩⟩
  cases i with
  | encode a => cases a <;> decide
  | _ => decide

theorem inv_reset : State.reset.Inv where
  memories := by unfold State.MemoriesWf Memory.wf; decide
  output := ⟨by decide, fun k h => absurd h (by simp [State.reset, State.resetOf])⟩
  record := ⟨fun _ => ⟨rfl, rfl⟩, fun h => absurd h (by decide), fun h => absurd h (by decide)⟩
  model := fun h => absurd h (by decide)
  draws := ⟨by decide, by decide, by decide, by decide, by decide, by decide, by decide⟩

theorem witness_StepKeepsTheInvariant : State.reset.Inv ∧ ∃ t, step State.reset = .next t := ⟨inv_reset, _, rfl⟩

theorem witness_ParametersAreConstant : ∃ t, step (State.reset.withFetchWord 32 2) = .next t := ⟨_, rfl⟩

/-! ### Witnesses: COUNT and BUILD -/

theorem witness_CountBuildsTheFirstOccurrenceTable : (loaded State.reset abacabad).windowLegal = true ∧
    State.reset.windowLegal = true ∧ ({ State.reset with inOff := 1 } : State).windowLegal = false ∧
    ({ State.reset with inLen := 65537 } : State).windowLegal = false := by decide

theorem witness_WindowIsCheckedAndIsAllThatIsRead :
    ({ State.reset with inLen := 65536 } : State).windowLegal = true ∧
    (({ built tableB1 with inOff := 1 } : State).windowLegal = false ∧ (built tableB1).mv = true) ∧
    (∃ (s t : State) (m : Memory Byte), s.windowLegal = true ∧
      (∀ k, s.inOff.toNat ≤ k → k < s.inLen.toNat → m.read Config.freeIbuf k = s.ibuf.read Config.freeIbuf k) ∧
      exec .count s = .next t) :=
  ⟨by decide, by decide +kernel, loaded State.reset [0x61], _, mem [0x61, 0x62], by decide,
    fun k _ h => by
      have : k = 0 := by
        have h' : k < 1 := h
        omega
      rw [this]; rfl, rfl⟩

theorem witness_CountedTablePassesBuild : (loaded State.reset abacabad).windowLegal = true ∧
    (loaded State.reset abacabad).window ≠ [] := by decide +kernel

/-- For BuildStoresTheModelOfItsTable, BuiltTreeIsFull, BuiltCodeIsPrefixFree and CodeTableIsTheLeafPaths: a table of one
entry, of four, and of 256. -/
theorem witness_TableOk : TableOk (withTable tableB8).table ∧ TableOk (withTable tableB1).table ∧
    TableOk (State.reset.storeTable tableB15).table ∧ (State.reset.storeTable tableB15).nsym = 256 := by
  refine ⟨ok_tableB8, ok_tableB1, ?_, by decide +kernel⟩
  rw [table_storeTable _ _ (by decide +kernel)]
  refine ⟨by decide +kernel, by decide +kernel, by simp [tableB15], ?_⟩
  rw [tableB15, List.map_map]
  refine List.Nodup.map_on (fun a ha b hb h => ?_) List.nodup_range
  simp only [List.mem_range] at ha hb
  have := congrArg BitVec.toNat h
  simp only [Function.comp_apply, BitVec.toNat_ofNat] at this
  omega

theorem witness_BuildRejectsIllFormedTables : State.reset.nsym.toNat = 0 ∧ 256 < (257 : NodeIdx).toNat ∧
    ((withTable [(0x61, 1), (0x62, 0)]).EntryAccepted 0 ∧ ((withTable [(0x61, 1), (0x62, 0)]).ftEntry 1).count = 0) ∧
    ((withTable [(0x61, 1), (0x61, 2)]).EntryAccepted 0 ∧ ((withTable [(0x61, 1), (0x61, 2)]).ftEntry 1).count ≠ 0 ∧
      ((withTable [(0x61, 1), (0x61, 2)]).ftEntry 0).sym = ((withTable [(0x61, 1), (0x61, 2)]).ftEntry 1).sym) ∧
    ((withTable [(0x61, 0)]).ftEntry 0).count = 0 ∧
    (∀ i, i < 2 → (withTable tableB9).EntryAccepted i) := by
  unfold State.EntryAccepted; decide +kernel

theorem witness_BuildIsDeterminedByTheTable : ∃ s1 s2 t1 t2 : State, s1.table = s2.table ∧ exec .build s1 = .next t1 ∧
    exec .build s2 = .next t2 ∧ s1 ≠ s2 ∧ t1.mv = true :=
  ⟨withTable tableB1, loaded (withTable tableB1) abacabad, _, _, rfl, rfl, rfl, by decide +kernel, by decide +kernel⟩

theorem witness_ExtractMinTakesTheLeastKey : ([0, 1] : List Nat) ≠ [] := by decide

theorem witness_MergeStepJoinsTheTwoLeast : ([0, 1, 2] : List Nat).Nodup ∧ 2 ≤ [0, 1].length ∧ [0].length < 2 := by decide

theorem witness_BuiltCodeIsPrefixFree : (withTable tableB8).nsym.toNat = 1 ∧ 2 ≤ (withTable tableB9).nsym.toNat ∧
    ((built tableB9).ctAt 0x00).valid = true ∧ ((built tableB9).ctAt 0xFF).valid = true ∧
    TableOk (withTable tableB9).table := by
  refine ⟨?_, ?_, ?_, ?_, ok_tableB9⟩ <;> decide +kernel

theorem witness_InverseCodeFollowsTheTree : (built tableB1).HoldsModel ∧ (built tableB8).HoldsModel :=
  ⟨built_holds _ ok_tableB1, built_holds _ ok_tableB8⟩

theorem witness_SingleEntryModelIsDegenerate : (withTable tableB8).nsym.toNat = 1 ∧
    ((withTable tableB8).ftEntry 0).count ≠ 0 := by decide +kernel

/-! ### Witnesses: ENCODE -/

/-- An empty window (V-E3), and a window of every symbol of the table; with and without the append flag. -/
theorem witness_EncodeWritesThePackedStream :
    (∀ a, (built tableB1).mv = true ∧ (built tableB1).windowLegal = true ∧ (built tableB1).window = [] ∧
      (built tableB1).encodeBase a + 2 + 0 / 8 ≤ (built tableB1).params.bufBytes) ∧
    (∀ a, (loaded (built tableB1) abacabad).mv = true ∧ (loaded (built tableB1) abacabad).windowLegal = true ∧
      (∀ x ∈ (loaded (built tableB1) abacabad).window, ((loaded (built tableB1) abacabad).ctAt x).valid = true) ∧
      (loaded (built tableB1) abacabad).encodeBase a + 2 + 14 / 8 ≤ (loaded (built tableB1) abacabad).params.bufBytes) := by
  decide +kernel

/-- V-E30. -/
theorem witness_EncodeReportsTheFirstUnknownSymbol :
    (loaded (built tableB1) [0x61, 0x62, 0x78]).mv = true ∧ (loaded (built tableB1) [0x61, 0x62, 0x78]).windowLegal = true ∧
    (loaded (built tableB1) [0x61, 0x62, 0x78]).inOff.toNat ≤ 2 ∧ 2 < (loaded (built tableB1) [0x61, 0x62, 0x78]).inLen.toNat ∧
    ((built tableB1).ctAt ((loaded (built tableB1) [0x61, 0x62, 0x78]).ibufAt 2)).valid = false ∧
    (∀ j, j < 2 → ((built tableB1).ctAt ((loaded (built tableB1) [0x61, 0x62, 0x78]).ibufAt j)).valid = true) := by
  decide +kernel

/-- V-E39: ENCODE.A of an empty window at OUT_LEN = BUF_BYTES - 1; and V-E37's limit for ENCODE is BUF_BYTES itself. -/
theorem witness_EncodeOverflowIsRangeError :
    ({ built tableB1 with outLen := 65535 } : State).mv = true ∧
    ({ built tableB1 with outLen := 65535 } : State).windowLegal = true ∧
    ({ built tableB1 with outLen := 65535 } : State).window = [] ∧
    ({ built tableB1 with outLen := 65535 } : State).params.bufBytes <
      ({ built tableB1 with outLen := 65535 } : State).encodeBase true + 2 + 0 / 8 := by decide +kernel

theorem witness_EncodeAndDecodeNeedAModel : State.reset.mv = false := rfl

/-! ### Witnesses: DECODE -/

theorem witness_TreeWalkComputesTheScan : (built tableB9).HoldsModel ∧ 2 ≤ (built tableB9).nsym.toNat ∧
    scan (inverseCode (built tableB9).ctAt) [] [false, false] = ([0x00, 0x00], []) :=
  ⟨built_holds _ ok_tableB9, by decide +kernel, scan_replicate _ _ (by decide +kernel) 2⟩

/-- V-D14, and V-D5 whose data is empty. -/
theorem witness_DecodeDeliversTheScannedSymbols :
    (loaded (built tableB1) [0x00, 0x95]).mv = true ∧ (loaded (built tableB1) [0x00, 0x95]).HoldsModel ∧
    2 ≤ (loaded (built tableB1) [0x00, 0x95]).nsym.toNat ∧ (loaded (built tableB1) [0x00, 0x95]).windowLegal = true ∧
    (loaded (built tableB1) [0x00, 0x95]).window = [0x00, 0x95] ∧ (0x00 : Byte).toNat ≤ 8 * [0x95].length ∧
    (scan (inverseCode (loaded (built tableB1) [0x00, 0x95]).ctAt) [] ((bitsOf [0x95]).take 8)).2 = [] ∧
    (scan (inverseCode (loaded (built tableB1) [0x00, 0x95]).ctAt) [] ((bitsOf [0x95]).take 8)).1 =
      [0x61, 0x62, 0x61, 0x63, 0x61] ∧
    (loaded (built tableB1) [0x08, 0x00]).window = [0x08, 0x00] ∧ (0x08 : Byte).toNat ≤ 8 * [0x00].length :=
  ⟨by decide +kernel, holds_loaded _ _ ok_tableB1, by decide +kernel, by decide +kernel, by decide +kernel, by decide,
    (scan_eq_walk_of_holds _ (holds_loaded _ _ ok_tableB1) (by decide +kernel) _).2.2 (by decide +kernel),
    (scan_eq_walk_of_holds _ (holds_loaded _ _ ok_tableB1) (by decide +kernel) _).1.trans (by decide +kernel),
    by decide +kernel, by decide⟩

/-- V-D4, V-D7, V-D3 and V-D22: one state for each cause. -/
theorem witness_DecodeRejectsMalformedStreams :
    ((built tableB1).mv = true ∧ (built tableB1).windowLegal = true ∧ (built tableB1).window = []) ∧
    ((loaded (built tableB1) [0x09, 0x00]).window = [0x09, 0x00] ∧ 8 * [0x00].length < (0x09 : Byte).toNat) ∧
    ((loaded (built tableB1) [0x02, 0x95]).window = [0x02, 0x95] ∧ (0x02 : Byte).toNat ≤ 8 * [0x95].length ∧
      (loaded (built tableB1) [0x02, 0x95]).HoldsModel ∧ 2 ≤ (loaded (built tableB1) [0x02, 0x95]).nsym.toNat ∧
      (scan (inverseCode (loaded (built tableB1) [0x02, 0x95]).ctAt) [] ((bitsOf [0x95]).take 6)).2 ≠ []) ∧
    ((loaded (built tableB8) [0x07, 0x00]).mv = true ∧ (loaded (built tableB8) [0x07, 0x00]).windowLegal = true ∧
      (loaded (built tableB8) [0x07, 0x00]).window = [0x07, 0x00] ∧ (0x07 : Byte).toNat < 8 * [0x00].length ∧
      (loaded (built tableB8) [0x07, 0x00]).degen = true) :=
  ⟨by decide +kernel, by decide +kernel,
    ⟨by decide +kernel, by decide, holds_loaded _ _ ok_tableB1, by decide +kernel, fun h =>
      absurd ((scan_eq_walk_of_holds _ (holds_loaded _ _ ok_tableB1) (by decide +kernel) _).2.1 h) (by decide +kernel)⟩,
    by decide +kernel⟩

/-- V-D20, V-D21 and V-D23. -/
theorem witness_DegenerateDecodeRepeatsTheSymbol :
    (loaded (built tableB8) [0x08, 0x00]).mv = true ∧ (loaded (built tableB8) [0x08, 0x00]).root = 0 ∧
    (loaded (built tableB8) [0x08, 0x00]).windowLegal = true ∧
    (loaded (built tableB8) [0x08, 0x00]).window = [0x08, 0x00] ∧ (0x08 : Byte).toNat = 8 * [0x00].length ∧
    (loaded (built tableB8) [0x00]).window = [0x00] ∧ (loaded (built tableB8) [0x00]).seqLen = 0 := by decide +kernel

/-- A run of 1288 one-bit codewords into an OBUF of 1282 bytes, as in V-D32. -/
theorem witness_DecodeOverflowIsRangeError_scan :
    (small (loaded (built tableB9) (0x00 :: List.replicate 161 0x00))).mv = true ∧
    (small (loaded (built tableB9) (0x00 :: List.replicate 161 0x00))).windowLegal = true ∧
    (small (loaded (built tableB9) (0x00 :: List.replicate 161 0x00))).window = 0x00 :: List.replicate 161 0x00 ∧
    (small (loaded (built tableB9) (0x00 :: List.replicate 161 0x00))).HoldsModel ∧
    2 ≤ (small (loaded (built tableB9) (0x00 :: List.replicate 161 0x00))).nsym.toNat ∧
    (bitsOf (List.replicate 161 0x00)).take (8 * 161 - (0x00 : Byte).toNat) = List.replicate 1288 false ∧
    scan (inverseCode (built tableB9).ctAt) [] (List.replicate 1288 false) = (List.replicate 1288 0x00, []) ∧
    (small (loaded (built tableB9) [])).params.bufBytes < 1288 :=
  ⟨by decide +kernel, by decide +kernel, by decide +kernel,
    (built_holds _ ok_tableB9).congr rfl rfl rfl rfl rfl rfl, by decide +kernel, by decide +kernel,
    scan_replicate _ _ (by decide +kernel) _, by decide⟩

/-- V-D26. -/
theorem witness_DecodeOverflowIsRangeError_degenerate :
    (loaded (built tableB8) [0x08, 0x00]).degen = true ∧ (loaded (built tableB8) [0x08, 0x00]).windowLegal = true ∧
    (0x08 : Byte).toNat = 8 * [0x00].length ∧
    ({ loaded (built tableB8) [0x08, 0x00] with seqLen := 65537 } : State).params.bufBytes < (65537 : Word).toNat := by
  decide +kernel

/-- V-R1 and, for the degenerate model, V-R7. -/
theorem witness_EncodeThenDecodeRoundTrip :
    (∃ s t u : State, s.mv = true ∧ s.HoldsModel ∧ exec (.encode false) s = .next t ∧ t.err = false ∧ SameTable s u ∧
      SameModel s u ∧ u.params = s.params ∧ u.windowLegal = true ∧ u.window = t.outputBytes.drop (s.encodeBase false) ∧
      u.seqLen = t.seqLen ∧ 2 ≤ s.nsym.toNat) ∧
    (∃ s t u : State, s.mv = true ∧ s.HoldsModel ∧ exec (.encode true) s = .next t ∧ t.err = false ∧ SameTable s u ∧
      SameModel s u ∧ u.params = s.params ∧ u.windowLegal = true ∧ u.window = t.outputBytes.drop (s.encodeBase true) ∧
      u.seqLen = t.seqLen ∧ s.nsym = 1) :=
  ⟨⟨loaded (built tableB1) abacabad, _, { loaded (built tableB1) [0x02, 0x95, 0x2C] with seqLen := 8 }, by decide +kernel,
      holds_loaded _ _ ok_tableB1, rfl, by decide +kernel, ⟨rfl, fun _ => rfl⟩, ⟨rfl, rfl, fun _ => rfl, fun _ => rfl⟩, rfl,
      by decide +kernel, by decide +kernel, by decide +kernel, by decide +kernel⟩,
    ⟨loaded (built tableB8) [0x61, 0x61, 0x61, 0x61], _, { loaded (built tableB8) [0x08, 0x00] with seqLen := 4 },
      by decide +kernel, holds_loaded _ _ ok_tableB8, rfl, by decide +kernel, ⟨rfl, fun _ => rfl⟩,
      ⟨rfl, rfl, fun _ => rfl, fun _ => rfl⟩, rfl, by decide +kernel, by decide +kernel, by decide +kernel, by decide +kernel⟩⟩

/-! ### Witnesses: FTSER, FTPARSE, the whole machine -/

theorem witness_FtserWritesTheSection : (withTable tableB1).nsym.toNat ≤ 256 ∧ (256 : NodeIdx).toNat ≤ 256 ∧
    256 < ({ State.reset with nsym := 257 } : State).nsym.toNat := by decide +kernel

/-- V-F15 and V-F17. -/
theorem witness_FtparseReadsTheSection :
    ((loaded State.reset [0x00, 0x00]).windowLegal = true ∧ (loaded State.reset [0x00, 0x00]).inLen = 2 ∧
      ((loaded State.reset [0x00, 0x00]).ibufAt 0).toNat * 256 + ((loaded State.reset [0x00, 0x00]).ibufAt 1).toNat = 0) ∧
    ((loaded State.reset [0x00, 0x01, 0x61, 0x00, 0x00, 0x00, 0x05, 0x08, 0x00]).windowLegal = true ∧
      ((loaded State.reset [0x00, 0x01, 0x61, 0x00, 0x00, 0x00, 0x05, 0x08, 0x00]).ibufAt 0).toNat * 256 +
        ((loaded State.reset [0x00, 0x01, 0x61, 0x00, 0x00, 0x00, 0x05, 0x08, 0x00]).ibufAt 1).toNat = 1 ∧
      2 + 5 * 1 ≤ (loaded State.reset [0x00, 0x01, 0x61, 0x00, 0x00, 0x00, 0x05, 0x08, 0x00]).inLen.toNat) := by
  decide +kernel

/-- V-F11, V-F13 and V-F14: one state for each cause. -/
theorem witness_FtparseRejectsTruncatedSections :
    ((loaded State.reset [0x00]).windowLegal = true ∧ (loaded State.reset [0x00]).inLen.toNat < 2) ∧
    ((loaded State.reset [0x01, 0x01]).windowLegal = true ∧ 2 ≤ (loaded State.reset [0x01, 0x01]).inLen.toNat ∧
      256 < ((loaded State.reset [0x01, 0x01]).ibufAt 0).toNat * 256 + ((loaded State.reset [0x01, 0x01]).ibufAt 1).toNat) ∧
    ((loaded State.reset [0x00, 0x01, 0x61]).windowLegal = true ∧
      ((loaded State.reset [0x00, 0x01, 0x61]).ibufAt 0).toNat * 256 +
        ((loaded State.reset [0x00, 0x01, 0x61]).ibufAt 1).toNat = 1 ∧
      2 ≤ (loaded State.reset [0x00, 0x01, 0x61]).inLen.toNat ∧
      (loaded State.reset [0x00, 0x01, 0x61]).inLen.toNat < 2 + 5 * 1) := by decide +kernel

theorem witness_SectionRoundTrip : ∃ (s t u : State) (stream : List Byte), s.nsym.toNat ≤ 256 ∧
    exec .ftser s = .next t ∧ u.windowLegal = true ∧ u.window = t.outputBytes ++ stream ∧
    (∃ v, exec .ftparse u = .next v) ∧ (∃ b, exec .build s = .next b ∧ b.mv = true) :=
  ⟨withTable tableB8, _, loaded State.reset [0x00, 0x01, 0x61, 0x00, 0x00, 0x00, 0x04, 0x08, 0x00], [0x08, 0x00],
    by decide +kernel, next_after (by decide +kernel), by decide +kernel, by decide +kernel,
    ⟨_, next_after (by decide +kernel)⟩, ⟨_, next_after (by decide +kernel), by decide +kernel⟩⟩

theorem witness_CommandsNeverWriteTheInput : ∃ t, exec .ftparse (loaded State.reset [0x00, 0x00]) = .next t :=
  ⟨_, next_after (by decide +kernel)⟩

theorem witness_OnlyBuildSetsModelValid : ∃ t, step ((withTable tableB1).withFetchWord 32 0x003) = .next t ∧ t.mv = true :=
  ⟨_, rfl, by decide +kernel⟩

/-- An illegal word, and for each command that has errors a state in which it ends with one; for ENCODE and DECODE one
before and one after the window check. -/
theorem witness_StateAfterAnError :
    (∃ t, runCommand State.reset = .next t) ∧ (after (exec .count { State.reset with inOff := 1 })).err = true ∧
    (after (exec .build State.reset)).err = true ∧
    (after (exec (.encode true) State.reset)).errcode = 7 ∧
    (after (exec (.encode true) (loaded (built tableB1) [0x78]))).errcode = 2 ∧
    (after (exec .decode (loaded (built tableB1) [0x09, 0x00]))).errcode = 3 ∧
    (after (exec .ftser { State.reset with nsym := 257 })).err = true ∧ (after (exec .ftparse State.reset)).err = true := by
  refine ⟨⟨_, rfl⟩, ?_⟩
  decide +kernel

end Sys2Proof.Tests
end

section
/-! What a step can answer: one inversion lemma for the engine's turn, for an event's turn and for the step, on top of
`exec_result` (10_state.md R42, 20_memory.md R71). -/

namespace Sys2Proof.Machine

/-- All that the engine's turn can end in (R42): IDLE holds the state, RUN completes a command or an illegal word. -/
inductive EngineResult (s : State) : State → Prop
  | idle : s.busy = false → EngineResult s s
  | command {i t} : s.busy = true → decodeCmd s.cmdlatch = .ok i → ExecResult s i t → EngineResult s t
  | illegal {r} : s.busy = true → decodeCmd s.cmdlatch = .error r →
      EngineResult s (s.raise .illegalCommand s.cmdlatch)

theorem engineTurn_result {s t : State} (h : engineTurn s = .next t) : EngineResult s t := by
  unfold engineTurn at h
  cases hb : s.busy with
  | false =>
    rw [hb] at h
    obtain rfl := next_inj h
    exact .idle hb
  | true =>
    rw [hb, if_pos rfl, runCommand] at h
    cases hd : decodeCmd s.cmdlatch with
    | ok i =>
      rw [hd] at h
      exact .command hb hd (exec_result h)
    | error r =>
      rw [hd] at h
      obtain rfl := next_inj h
      exact .illegal hb hd

/-- All that the turn of an event can end in (R71). -/
inductive EventResult (s : State) : HostEvent → State → Prop
  | write (sp idx size v) : EventResult s (.write sp idx size v) (s.hostWrite sp idx size v)
  | read (sp idx size) : EventResult s (.read sp idx size) (s.hostRead sp idx size)
  | busWrite (addr size v) : EventResult s (.busWrite addr size v) (s.busWrite addr size v)
  | busRead (addr size) : EventResult s (.busRead addr size) (s.busRead addr size)
  | wait (n) {t} : EngineResult s t → EventResult s (.wait n) (t.skipIfErr n)
  | rst : EventResult s .rst s.afterReset

theorem waitTurn_next {n : Nat} {s t : State} (h : waitTurn n s = .next t) :
    ∃ u, engineTurn s = .next u ∧ t = u.skipIfErr n := by
  unfold waitTurn at h
  cases he : engineTurn s with
  | next u =>
    rw [he] at h
    exact ⟨u, rfl, (next_inj h).symm⟩
  | fault r => nomatch r
  | refused r =>
    rw [he] at h
    cases h

theorem eventTurn_result {e : HostEvent} {s t : State} (h : eventTurn e s = .next t) : EventResult s e t := by
  cases e with
  | write sp idx size v =>
    obtain rfl := next_inj h
    exact .write sp idx size v
  | read sp idx size =>
    obtain rfl := next_inj h
    exact .read sp idx size
  | busWrite addr size v =>
    obtain rfl := next_inj h
    exact .busWrite addr size v
  | busRead addr size =>
    obtain rfl := next_inj h
    exact .busRead addr size
  | wait n =>
    obtain ⟨u, hu, rfl⟩ := waitTurn_next h
    exact .wait n (engineTurn_result hu)
  | rst =>
    obtain rfl := next_inj h
    exact .rst

/-- A step is the turn of the next event, or the engine's turn when no event is left (R71). -/
theorem step_result {s t : State} (h : step s = .next t) :
    (s.host.pending = [] ∧ EngineResult s t) ∨
      ∃ e rest, s.host.pending = e :: rest ∧ EventResult (s.withPending rest) e t := by
  unfold step at h
  cases hp : s.host.pending with
  | nil =>
    rw [hp] at h
    exact .inl ⟨rfl, engineTurn_result h⟩
  | cons e rest =>
    rw [hp] at h
    exact .inr ⟨e, rest, rfl, eventTurn_result h⟩

end Sys2Proof.Machine
end

section
/-! The instance's parameters are constants (10_state.md R43): every operation of the host port, every command and
reset leave them, hence so does every step. -/

namespace Sys2Proof.Machine

/-! ### The host port and reset -/

section HostPort

variable (s : State)

@[simp] theorem writeReg_params (off : Nat) (v : Word) : (s.writeReg off v).params = s.params := by
  unfold State.writeReg
  split_ifs <;> rfl

@[simp] theorem writeFtWord_params (j : Nat) (v : Word) : (s.writeFtWord j v).params = s.params := by
  unfold State.writeFtWord
  split_ifs <;> rfl

@[simp] theorem hostRead_params (sp : Space) (idx size : Nat) : (s.hostRead sp idx size).params = s.params := rfl

@[simp] theorem hostWrite_params (sp : Space) (idx size : Nat) (v : Word) :
    (s.hostWrite sp idx size v).params = s.params := by
  unfold State.hostWrite
  split_ifs
  · rfl
  · cases sp with
    | reg => exact writeReg_params s idx v
    | ft => exact writeFtWord_params s idx v
    | node | ct | ibuf | obuf => rfl

@[simp] theorem busRead_params (addr size : Nat) : (s.busRead addr size).params = s.params := by
  unfold State.busRead
  split <;> rfl

@[simp] theorem busWrite_params (addr size : Nat) (v : Word) : (s.busWrite addr size v).params = s.params := by
  unfold State.busWrite
  split
  · exact hostWrite_params s _ _ _ _
  · rfl

@[simp] theorem skipIfErr_params (n : Nat) : (s.skipIfErr n).params = s.params := by
  unfold State.skipIfErr
  split_ifs <;> rfl

@[simp] theorem afterReset_params : s.afterReset.params = s.params := rfl

end HostPort

/-! ### Commands, turns and steps -/

section Results

variable {s t : State}

/-- Each result of a command is made of operations that leave the parameters. -/
theorem ExecResult.params_eq {i : Instr} (h : ExecResult s i t) : t.params = s.params := by
  cases h <;> rfl

theorem EngineResult.params_eq (h : EngineResult s t) : t.params = s.params := by
  cases h with
  | idle => rfl
  | command _ _ hx => exact hx.params_eq
  | illegal => exact raise_params s _ _

theorem EventResult.params_eq {e : HostEvent} (h : EventResult s e t) : t.params = s.params := by
  cases h with
  | write => exact hostWrite_params s _ _ _ _
  | read => exact hostRead_params s _ _ _
  | busWrite => exact busWrite_params s _ _ _
  | busRead => exact busRead_params s _ _
  | wait n he => exact (skipIfErr_params _ n).trans he.params_eq
  | rst => exact afterReset_params s

end Results

/-- Settles O28: by the inversion of the step, each turn leaves the parameters. -/
theorem parametersAreConstant : Obligations.ParametersAreConstant := by
  intro s t h
  obtain ⟨-, he⟩ | ⟨e, rest, -, he⟩ := step_result h
  · exact he.params_eq
  · exact he.params_eq.trans (withPending_params s rest)

end Sys2Proof.Machine
end

section
/-! The invariant of the machine (10_state.md R27, R38): every command, every event and every step keeps it, and the
reset state meets it, whatever the parameters. -/

namespace Sys2Proof.Machine

section Updates

variable {s : State}

/-- What the invariant says does not depend on IN_OFF. -/
theorem State.Inv.setInOff (h : s.Inv) (v : Word) : ({ s with inOff := v } : State).Inv where
  memories := h.memories
  output := h.output
  record := h.record
  model := fun hm => (h.model hm).congr rfl rfl rfl rfl rfl rfl
  draws := h.draws

/-- What the invariant says does not depend on SEQ_LEN. -/
theorem State.Inv.setSeqLen (h : s.Inv) (v : Word) : ({ s with seqLen := v } : State).Inv where
  memories := h.memories
  output := h.output
  record := h.record
  model := fun hm => (h.model hm).congr rfl rfl rfl rfl rfl rfl
  draws := h.draws

/-- CLEAR empties the output and drops the model; the memories stand (R240). -/
theorem State.Inv.clearRegisters (h : s.Inv) :
    ({ s with inOff := 0, inLen := 0, outLen := 0, nsym := 0, seqLen := 0, root := 0, mv := false } : State).Inv where
  memories := h.memories
  output := ⟨Nat.zero_le _, fun _ hk => absurd hk (Nat.not_lt_zero _)⟩
  record := h.record
  model := fun hm => nomatch hm
  draws := h.draws

/-- ENCODE's base lies within the output held so far (R177). -/
theorem encodeBase_le_outLen (s : State) (a : Bool) : s.encodeBase a ≤ s.outLen.toNat := by
  cases a with
  | true => exact le_rfl
  | false => exact Nat.zero_le _

/-- What a failed ENCODE leaves: the output cut at the base (R262). -/
theorem State.Inv.cutOutput (h : s.Inv) {base : Nat} (hb : base ≤ s.outLen.toNat) : (s.storeOutput base []).Inv :=
  h.storeOutput base [] hb (hb.trans h.output.1)

/-- An output at index 0 need only fit OBUF. -/
theorem State.Inv.replaceOutput (h : s.Inv) {y : List Byte} (hy : y.length ≤ s.params.bufBytes) :
    (s.storeOutput 0 y).Inv :=
  h.storeOutput 0 y (Nat.zero_le _) (by omega)

/-- The largest frequency section fits OBUF (R8). -/
theorem sectionBytes_fits (h : s.nsym.toNat ≤ 256) : (sectionBytes s.table).length ≤ s.params.bufBytes := by
  have hfit := s.params.sectionFits
  rw [length_sectionBytes, length_table]
  omega

end Updates

section Results

variable {s t : State}

/-- Every result of a command keeps the invariant: its writes fit their memories, and only BUILD's sets MV. -/
theorem ExecResult.inv {i : Instr} (hi : s.Inv) (h : ExecResult s i t) : t.Inv := by
  cases h with
  | clear => exact hi.clearRegisters.complete
  | countRange | encodeNoModel | encodeRange | decodeNoModel | decodeRange | ftserBad | ftparseRange | ftparseFormat =>
    exact hi.raise _ _
  | countOk => exact (hi.storeTable _ (length_countTable_le _)).complete
  | buildError => exact hi.forgetModel.raise _ _
  | buildOk ht => exact (hi.buildModel ht).complete
  | encodeUnknown a | encodeOverflow a => exact (hi.cutOutput (encodeBase_le_outLen s a)).raise _ _
  | encodeOk a d _ _ _ hfit =>
    exact ((hi.storeOutput _ _ (encodeBase_le_outLen s a) hfit).setSeqLen _).complete
  | decodeMalformed | decodeOverflow => exact (hi.cutOutput (Nat.zero_le _)).raise _ _
  | decodeOk y _ _ hfit => exact (hi.replaceOutput hfit).complete
  | ftserOk hn => exact (hi.replaceOutput (sectionBytes_fits hn)).complete
  | ftparseOk _ hn => exact ((hi.storeTable _ (by rwa [length_parsedTable])).setInOff _).complete

theorem EngineResult.inv (hi : s.Inv) (h : EngineResult s t) : t.Inv := by
  cases h with
  | idle => exact hi
  | command _ _ hx => exact hx.inv hi
  | illegal => exact hi.raise _ _

theorem EventResult.inv {e : HostEvent} (hi : s.Inv) (h : EventResult s e t) : t.Inv := by
  cases h with
  | write => exact hi.hostWrite _ _ _ _
  | read => exact hi.hostRead _ _ _
  | busWrite => exact hi.busWrite _ _ _
  | busRead => exact hi.busRead _ _
  | wait n he => exact (he.inv hi).skipIfErr n
  | rst => exact hi.afterReset

end Results

/-- Settles O27: by the inversion of the step, each turn keeps the invariant. -/
theorem stepKeepsTheInvariant : Obligations.StepKeepsTheInvariant := by
  intro s t hi h
  obtain ⟨-, he⟩ | ⟨e, rest, -, he⟩ := step_result h
  · exact he.inv hi
  · exact he.inv (hi.withPending rest)

theorem resetOf_inv (p : Config.Params) : (State.resetOf p).Inv where
  memories := ⟨unknown_wf _, unknown_wf _, unknown_wf _, unknown_wf _, unknown_wf _, unknown_wf _⟩
  output := ⟨Nat.zero_le _, fun _ hk => absurd hk (Nat.not_lt_zero _)⟩
  record := ⟨fun _ => ⟨rfl, rfl⟩, fun h => absurd h Bool.false_ne_true, fun _ => ⟨rfl, rfl⟩⟩
  model := fun hm => nomatch hm
  draws := by simp [State.DrawsPast, State.resetOf, Memory.unknown]

/-- Settles O26: nothing is known, held or raised in a reset state. -/
theorem resetMeetsTheInvariant : Obligations.ResetMeetsTheInvariant := resetOf_inv

end Sys2Proof.Machine
end

section
/-! Completion (10_state.md R42; 60_exceptions.md R261, R303): every command answers a next state, that state is idle
with the record of its outcome, and a running engine gets there. -/

namespace Sys2Proof.Machine

/-! ### The record of a completion -/

/-- The record a completion leaves (R42, R261): without an error, or with one and its detail word. -/
def Completed (t : State) : Prop := CompletedOk t ∨ ∃ e info, CompletedWith e info t

section Record

variable {s t : State}

theorem complete_completed (s : State) : Completed s.complete := .inl ⟨rfl, rfl, rfl, rfl, rfl⟩

theorem raise_completed (s : State) (e : HceError) (info : Word) : Completed (s.raise e info) :=
  .inr ⟨e, info, raise_completedWith s e info⟩

theorem Completed.idle_done (h : Completed t) : t.phase = .idle ∧ t.done = true := by
  obtain ⟨hp, hd, -⟩ | ⟨e, info, hp, hd, -⟩ := h
  · exact ⟨hp, hd⟩
  · exact ⟨hp, hd⟩

/-- Every result of a command ends in `complete` or in `raise`. -/
theorem ExecResult.completed {i : Instr} (h : ExecResult s i t) : Completed t := by
  cases h with
  | clear | countOk | buildOk | encodeOk | decodeOk | ftserOk | ftparseOk => exact complete_completed _
  | _ => exact raise_completed _ _ _

theorem runCommand_completed (h : runCommand s = .next t) : Completed t := by
  unfold runCommand at h
  cases hd : decodeCmd s.cmdlatch with
  | ok i =>
    rw [hd] at h
    exact (exec_result h).completed
  | error r =>
    rw [hd] at h
    obtain rfl := next_inj h
    exact raise_completed _ _ _

/-- Settles O12: the record of a completion, read off its two forms. -/
theorem everyCompletionLeavesItsRecord : Obligations.EveryCompletionLeavesItsRecord := by
  intro s t h
  have hc := runCommand_completed h
  obtain ⟨hp, hd⟩ := hc.idle_done
  refine ⟨hp, by simp [State.busy, hp], hd, fun he => ?_, fun he => ?_⟩
  · obtain ⟨-, -, -, hcode, hinfo⟩ | ⟨e, info, -, -, herr, -⟩ := hc
    · exact ⟨hcode, hinfo⟩
    · exact absurd he (by simp [herr])
  · obtain ⟨-, -, herr, -⟩ | hw := hc
    · exact absurd he (by simp [herr])
    · exact hw

end Record

/-! ### Every command answers a next state -/

theorem decodeDegenerate_next (s : State) (data : Bits) : ∃ t, s.decodeDegenerate data = .next t := by
  unfold State.decodeDegenerate State.decodeFailed State.decodeDone
  split_ifs <;> exact ⟨_, rfl⟩

theorem decodeWalk_next (s : State) (data : Bits) : ∃ t, s.decodeWalk data = .next t := by
  unfold State.decodeWalk State.decodeFailed State.decodeDone
  dsimp only
  split_ifs <;> exact ⟨_, rfl⟩

theorem execEncode_next (a : Bool) (s : State) : ∃ t, execEncode a s = .next t := by
  cases hm : s.mv with
  | false => exact ⟨_, execEncode_noModel s a hm⟩
  | true =>
    cases hw : s.windowLegal with
    | false => exact ⟨_, execEncode_range s a hm hw⟩
    | true =>
      cases hc : concatCodes s.ctAt s.inOff.toNat s.window with
      | error k => exact ⟨_, execEncode_unknown s a hm hw hc⟩
      | ok d =>
        by_cases hf : s.params.bufBytes < s.encodeBase a + (packStream d).length
        · exact ⟨_, execEncode_overflow s a hm hw hc hf⟩
        · exact ⟨_, execEncode_ok s a hm hw hc (Nat.le_of_not_lt hf)⟩

theorem execDecode_next (s : State) : ∃ t, execDecode s = .next t := by
  cases hm : s.mv with
  | false => exact ⟨_, execDecode_noModel s hm⟩
  | true =>
    cases hw : s.windowLegal with
    | false => exact ⟨_, execDecode_range s hm hw⟩
    | true =>
      cases hx : s.window with
      | nil => exact ⟨_, execDecode_empty s hm hw hx⟩
      | cons header body =>
        by_cases hp : 8 * body.length < header.toNat
        · exact ⟨_, execDecode_padding s hm hw hx hp⟩
        · cases hd : s.degen with
          | true =>
            rw [execDecode_degenerate s hm hw hx (Nat.le_of_not_lt hp) hd]
            exact decodeDegenerate_next s _
          | false =>
            rw [execDecode_walk s hm hw hx (Nat.le_of_not_lt hp) hd]
            exact decodeWalk_next s _

theorem exec_next (i : Instr) (s : State) : ∃ t, exec i s = .next t := by
  cases i with
  | clear | build => exact ⟨_, rfl⟩
  | count =>
    unfold exec execCount
    split_ifs <;> exact ⟨_, rfl⟩
  | encode a => exact execEncode_next a s
  | decode => exact execDecode_next s
  | ftser =>
    unfold exec execFtser
    split_ifs <;> exact ⟨_, rfl⟩
  | ftparse =>
    unfold exec execFtparse
    split_ifs <;> exact ⟨_, rfl⟩

theorem runCommand_next (s : State) : ∃ t, runCommand s = .next t := by
  unfold runCommand
  cases decodeCmd s.cmdlatch with
  | ok i => exact exec_next i s
  | error r => exact ⟨_, rfl⟩

/-! ### The engine's turn -/

theorem engineTurn_run {s : State} (hp : s.phase = .run) : engineTurn s = runCommand s := by
  simp [engineTurn, State.busy, hp]

theorem engineTurn_idle {s : State} (hp : s.phase = .idle) : engineTurn s = .next s := by
  simp [engineTurn, State.busy, hp]

theorem step_nil {s : State} (h : s.host.pending = []) : step s = engineTurn s := by
  simp only [step, h]

theorem step_cons {s : State} {e : HostEvent} {rest : List HostEvent} (h : s.host.pending = e :: rest) :
    step s = eventTurn e (s.withPending rest) := by
  simp only [step, h]

/-- A `wait` changes nothing but the list of coming events, beyond what the engine's turn does (R100). -/
theorem skipIfErr_eq_withPending (n : Nat) (s : State) : ∃ rest, s.skipIfErr n = s.withPending rest := by
  unfold State.skipIfErr
  split_ifs
  · exact ⟨_, rfl⟩
  · exact ⟨s.host.pending, rfl⟩

@[simp] theorem skipIfErr_zero (s : State) : s.skipIfErr 0 = s := by
  unfold State.skipIfErr
  split_ifs <;> rfl

theorem waitTurn_of_next {n : Nat} {s t : State} (h : engineTurn s = .next t) :
    waitTurn n s = .next (t.skipIfErr n) := by
  simp only [waitTurn, h]

/-- A wait that drops nothing is the engine's turn. -/
theorem waitTurn_zero (s : State) : waitTurn 0 s = engineTurn s := by
  unfold waitTurn
  cases engineTurn s with
  | next t => simp only [skipIfErr_zero]
  | fault r => rfl
  | refused r => rfl

/-- Settles O7: an idle engine's turn answers the state it has. -/
theorem idleEngineHoldsItsState : Obligations.IdleEngineHoldsItsState :=
  ⟨fun _ hp hn => (step_nil hn).trans (engineTurn_idle hp), rfl⟩

/-- The encoder's word decodes to its command (R94), put together from the laws of the fields. -/
theorem decodeCmd_encodeCmd (i : Instr) : decodeCmd (encodeCmd i) = .ok i := by
  have h : Laws.Encoding.Statement i := by
    cases i with
    | clear => exact Laws.Encoding.clear
    | count => exact Laws.Encoding.count
    | build => exact Laws.Encoding.build
    | encode a => exact Laws.Encoding.encode a
    | decode => exact Laws.Encoding.decode
    | ftser => exact Laws.Encoding.ftser
    | ftparse => exact Laws.Encoding.ftparse
  obtain ⟨-, hdec, hsplit⟩ := h
  rw [decodeCmd, hsplit, hdec]

theorem engineTurn_of_decode {s : State} {i : Instr} (hd : decodeCmd s.cmdlatch = .ok i) (hp : s.phase = .run) :
    engineTurn s = exec i s := by
  rw [engineTurn_run hp, runCommand, hd]

/-- The next step after `withFetchWord` is the engine's turn on the accepted state (log 10). -/
theorem step_withFetchWord (s : State) (w : Word) : step (s.withFetchWord 32 w.toNat) = engineTurn (s.accept w) := by
  have hw : BitVec.ofNat 32 (w.toNat % 2 ^ 32) = w := by
    rw [Nat.mod_eq_of_lt w.isLt, BitVec.ofNat_toNat, BitVec.setWidth_eq]
  rw [State.withFetchWord, hw]
  exact waitTurn_zero (s.accept w)

/-- Settles O5: the engine's turn decodes the latch, which acceptance has loaded with the word. -/
theorem stepRunsTheDecodedCommand : Obligations.StepRunsTheDecodedCommand := by
  refine fun s i => ⟨fun hd hp => ⟨fun hn => ?_, fun k rest t hn hx => ?_⟩, ?_⟩
  · rw [step_nil hn, engineTurn_of_decode hd hp]
  · rw [step_cons hn]
    exact waitTurn_of_next ((engineTurn_of_decode (s := s.withPending rest) hd hp).trans hx)
  · rw [step_withFetchWord]
    exact engineTurn_of_decode (decodeCmd_encodeCmd i) rfl

/-! ### A running engine reaches IDLE -/

section Liveness

variable {s : State}

theorem busWrite_busy (hp : s.phase = .run) (addr size : Nat) (v : Word) : s.busWrite addr size v = s := by
  unfold State.busWrite
  split
  · exact hostWrite_busy s hp _ _ _ _
  · rfl

theorem busRead_phase_pending (s : State) (addr size : Nat) :
    (s.busRead addr size).phase = s.phase ∧ (s.busRead addr size).host.pending = s.host.pending := by
  unfold State.busRead
  split <;> exact ⟨rfl, rfl⟩

/-- A running engine's turn completes the command. -/
theorem engineTurn_completes (hp : s.phase = .run) : ∃ t, engineTurn s = .next t ∧ Completed t := by
  obtain ⟨t, ht⟩ := runCommand_next s
  exact ⟨t, (engineTurn_run hp).trans ht, runCommand_completed ht⟩

/-- While a command runs, an event's turn either leaves it running with the same events to come, or ends it: by its
completion, or by `rst` (R73, R293). -/
theorem eventTurn_run (hp : s.phase = .run) (e : HostEvent) : ∃ t, eventTurn e s = .next t ∧
    ((t.phase = .run ∧ t.host.pending = s.host.pending) ∨ (t.phase = .idle ∧ (e ≠ .rst → t.done = true))) := by
  cases e with
  | write sp idx size v =>
    refine ⟨_, rfl, .inl ?_⟩
    rw [hostWrite_busy s hp]
    exact ⟨hp, rfl⟩
  | busWrite addr size v =>
    refine ⟨_, rfl, .inl ?_⟩
    rw [busWrite_busy hp]
    exact ⟨hp, rfl⟩
  | read sp idx size => exact ⟨_, rfl, .inl ⟨hp, rfl⟩⟩
  | busRead addr size =>
    obtain ⟨hphase, hpend⟩ := busRead_phase_pending s addr size
    exact ⟨_, rfl, .inl ⟨hphase.trans hp, hpend⟩⟩
  | wait n =>
    obtain ⟨t, ht, hc⟩ := engineTurn_completes hp
    obtain ⟨hidle, hdone⟩ := hc.idle_done
    obtain ⟨rest, hskip⟩ := skipIfErr_eq_withPending n t
    refine ⟨_, waitTurn_of_next ht, .inr ?_⟩
    rw [hskip]
    exact ⟨hidle, fun _ => hdone⟩
  | rst => exact ⟨_, rfl, .inr ⟨rfl, fun h => absurd rfl h⟩⟩

theorem run_succ_of_step {k : Nat} {s t : State} (h : step s = .next t) :
    Sys2Proof.core.run (k + 1) s = Sys2Proof.core.run k t := by
  have h' : Sys2Proof.core.step s = .next t := h
  simp only [Host.Core.run, h']

theorem run_reaches_idle (pending : List HostEvent) : ∀ s : State, s.phase = .run → s.host.pending = pending →
    ∃ k t, k ≤ pending.length + 1 ∧ Sys2Proof.core.run k s = .next t ∧ t.phase = .idle ∧
      (HostEvent.rst ∉ pending → t.done = true) := by
  induction pending with
  | nil =>
    intro s hp hn
    obtain ⟨t, ht, hc⟩ := engineTurn_completes hp
    obtain ⟨hidle, hdone⟩ := hc.idle_done
    exact ⟨1, t, le_rfl, run_succ_of_step ((step_nil hn).trans ht), hidle, fun _ => hdone⟩
  | cons e rest ih =>
    intro s hp hn
    obtain ⟨t, ht, hcase⟩ := eventTurn_run (s := s.withPending rest) hp e
    have hstep : step s = .next t := (step_cons hn).trans ht
    obtain ⟨hrun, hpend⟩ | ⟨hidle, hdone⟩ := hcase
    · obtain ⟨k, u, hk, hu, huidle, hudone⟩ := ih t hrun hpend
      refine ⟨k + 1, u, ?_, (run_succ_of_step hstep).trans hu, huidle, fun hr => hudone ?_⟩
      · rw [List.length_cons]
        omega
      · exact fun hm => hr (List.mem_cons_of_mem e hm)
    · refine ⟨1, t, by omega, run_succ_of_step hstep, hidle, fun hr => hdone ?_⟩
      exact fun he => hr (he ▸ List.mem_cons_self)

end Liveness

/-- Settles O10: by induction on the events to come, each of which completes the command or leaves it running. -/
theorem acceptedCommandCompletes : Obligations.AcceptedCommandCompletes :=
  fun s hp => run_reaches_idle s.host.pending s hp rfl

end Sys2Proof.Machine
end

section
/-! What a command and a step leave alone (10_state.md R23, R38, R43; 20_memory.md R68): IBUF and the surroundings always,
and FT and NSYM while MV stays set. -/

namespace Sys2Proof.Machine

section Commands

variable {s t : State} {i : Instr}

theorem ExecResult.sameInput (h : ExecResult s i t) : SameInput s t := by
  cases h <;> exact fun _ => rfl

theorem ExecResult.sameSurroundings (h : ExecResult s i t) : SameSurroundings s t := by
  cases h <;> exact ⟨rfl, rfl, rfl⟩

theorem ExecResult.inLen_eq (h : ExecResult s i t) (hi : i ≠ .clear) : t.inLen = s.inLen := by
  cases h with
  | clear => exact absurd rfl hi
  | _ => rfl

theorem ExecResult.inOff_eq (h : ExecResult s i t) (h1 : i ≠ .clear) (h2 : i ≠ .ftparse) : t.inOff = s.inOff := by
  cases h with
  | clear => exact absurd rfl h1
  | ftparseRange | ftparseFormat | ftparseOk => exact absurd rfl h2
  | _ => rfl

/-- Settles O58: no result of a command writes them. -/
theorem commandsNeverWriteTheInput : Obligations.CommandsNeverWriteTheInput := by
  intro i s t h
  have hr := exec_result h
  exact ⟨hr.sameInput, hr.sameSurroundings, hr.inLen_eq, hr.inOff_eq⟩

theorem State.HoldsModel.complete (h : s.HoldsModel) : s.complete.HoldsModel := h.congr rfl rfl rfl rfl rfl rfl

/-- Settles O33: on a well-formed table BUILD's checks pass and what it stores is the model of that table. -/
theorem buildStoresTheModelOfItsTable : Obligations.BuildStoresTheModelOfItsTable := by
  intro s ht
  have hm := (storeModel_holds s ht).complete
  exact ⟨_, execBuild_ok s ht, ⟨rfl, rfl, rfl, rfl, rfl⟩, rfl, hm, hm.degen rfl, ⟨rfl, fun _ => rfl⟩, fun _ => rfl,
    ⟨rfl, rfl⟩, ⟨rfl, fun _ => rfl⟩, rfl, ⟨rfl, rfl, rfl⟩⟩

end Commands

/-! ### Where MV can come from -/

/-- MV is set now only if it was set before, and then FT and NSYM read as before. -/
def KeepsModelValid (s t : State) : Prop := t.mv = true → s.mv = true ∧ SameTable s t

/-- The completion of a BUILD without error (R38). -/
def CompletesBuild (s t : State) : Prop := s.phase = .run ∧ decodeCmd s.cmdlatch = .ok .build ∧ t.err = false

section ModelValid

variable {s t : State}

theorem keepsModelValid_of_same (hmv : t.mv = s.mv) (ht : SameTable s t) : KeepsModelValid s t :=
  fun h => ⟨hmv.symm.trans h, ht⟩

theorem keepsModelValid_of_cleared (hmv : t.mv = false) : KeepsModelValid s t :=
  fun h => absurd (hmv.symm.trans h) Bool.false_ne_true

theorem keepsModelValid_refl (s : State) : KeepsModelValid s s := keepsModelValid_of_same rfl ⟨rfl, fun _ => rfl⟩

/-- A write of NSYM clears MV, and no other register write touches the table (R68). -/
theorem writeReg_keepsModelValid (s : State) (off : Nat) (v : Word) : KeepsModelValid s (s.writeReg off v) := by
  unfold State.writeReg
  split_ifs with hcmd hinOff hinLen hnsym hseqLen
  · exact keepsModelValid_of_same rfl ⟨rfl, fun _ => rfl⟩
  · exact keepsModelValid_of_same rfl ⟨rfl, fun _ => rfl⟩
  · exact keepsModelValid_of_same rfl ⟨rfl, fun _ => rfl⟩
  · exact keepsModelValid_of_cleared rfl
  · exact keepsModelValid_of_same rfl ⟨rfl, fun _ => rfl⟩
  · exact keepsModelValid_refl s

theorem writeFtWord_mv (s : State) (j : Nat) (v : Word) : (s.writeFtWord j v).mv = false := by
  unfold State.writeFtWord
  split_ifs <;> rfl

theorem hostWrite_keepsModelValid (s : State) (sp : Space) (idx size : Nat) (v : Word) :
    KeepsModelValid s (s.hostWrite sp idx size v) := by
  unfold State.hostWrite
  split_ifs
  · exact keepsModelValid_refl s
  · cases sp with
    | reg => exact writeReg_keepsModelValid s idx v
    | ft => exact keepsModelValid_of_cleared (writeFtWord_mv s idx v)
    | ibuf => exact keepsModelValid_of_same rfl ⟨rfl, fun _ => rfl⟩
    | node | ct | obuf => exact keepsModelValid_refl s

theorem busWrite_keepsModelValid (s : State) (addr size : Nat) (v : Word) :
    KeepsModelValid s (s.busWrite addr size v) := by
  unfold State.busWrite
  split
  · exact hostWrite_keepsModelValid s _ _ _ _
  · exact keepsModelValid_refl s

theorem busRead_keepsModelValid (s : State) (addr size : Nat) : KeepsModelValid s (s.busRead addr size) := by
  unfold State.busRead
  split <;> exact keepsModelValid_of_same rfl ⟨rfl, fun _ => rfl⟩

/-- Every command but a BUILD without error keeps MV or clears it, and only those that clear it write the table. -/
theorem ExecResult.modelValid {i : Instr} (h : ExecResult s i t) :
    KeepsModelValid s t ∨ (i = .build ∧ t.err = false ∧ SameTable s t) := by
  cases h with
  | clear | countOk | buildError | ftparseOk => exact .inl (keepsModelValid_of_cleared rfl)
  | buildOk => exact .inr ⟨rfl, rfl, rfl, fun _ => rfl⟩
  | _ => exact .inl (keepsModelValid_of_same rfl ⟨rfl, fun _ => rfl⟩)

theorem EngineResult.modelValid (h : EngineResult s t) :
    KeepsModelValid s t ∨ (CompletesBuild s t ∧ SameTable s t) := by
  cases h with
  | idle => exact .inl (keepsModelValid_refl s)
  | illegal => exact .inl (keepsModelValid_of_same rfl ⟨rfl, fun _ => rfl⟩)
  | command hb hd hx =>
    obtain hk | ⟨rfl, herr, ht⟩ := hx.modelValid
    · exact .inl hk
    · exact .inr ⟨⟨by simpa [State.busy] using hb, hd, herr⟩, ht⟩

theorem EventResult.modelValid {e : HostEvent} (h : EventResult s e t) :
    KeepsModelValid s t ∨ (CompletesBuild s t ∧ SameTable s t) := by
  cases h with
  | write => exact .inl (hostWrite_keepsModelValid s _ _ _ _)
  | read => exact .inl (keepsModelValid_of_same rfl ⟨rfl, fun _ => rfl⟩)
  | busWrite => exact .inl (busWrite_keepsModelValid s _ _ _)
  | busRead => exact .inl (busRead_keepsModelValid s _ _)
  | @wait n u he =>
    obtain ⟨rest, hskip⟩ := skipIfErr_eq_withPending n u
    rw [hskip]
    exact he.modelValid
  | rst => exact .inl (keepsModelValid_of_cleared rfl)

theorem step_modelValid (h : step s = .next t) : KeepsModelValid s t ∨ (CompletesBuild s t ∧ SameTable s t) := by
  obtain ⟨-, he⟩ | ⟨e, rest, -, he⟩ := step_result h
  · exact he.modelValid
  · exact he.modelValid

end ModelValid

/-- Settles O59: a step that is no BUILD without error keeps MV or clears it. -/
theorem onlyBuildSetsModelValid : Obligations.OnlyBuildSetsModelValid := by
  intro s t h hmv
  obtain hk | ⟨hb, ht⟩ := step_modelValid h
  · obtain ⟨hs, ht⟩ := hk hmv
    exact ⟨.inl hs, ht⟩
  · exact ⟨.inr hb, ht⟩

end Sys2Proof.Machine
end

section
/-! The host's view of the registers and of the tables (10_state.md R21 to R35; 20_memory.md R60 to R63, R68). -/

namespace Sys2Proof.Machine

variable {s : State}

/-! ### Legal accesses while idle -/

theorem hostWrite_of_illegal {sp : Space} {idx size : Nat} (h : accessLegal s.params sp idx size = false) (v : Word) :
    s.hostWrite sp idx size v = s := by
  simp [State.hostWrite, h]

theorem readValue_of_illegal {sp : Space} {idx size : Nat} (h : accessLegal s.params sp idx size = false) :
    s.readValue sp idx size = none := by
  simp [State.readValue, h]

theorem hostWrite_reg (hp : s.phase = .idle) {off : Nat} (h4 : off % 4 = 0) (hle : off ≤ 0xFFC) (v : Word) :
    s.hostWrite .reg off 4 v = s.writeReg off v := by
  simp [State.hostWrite, State.busy, hp, accessLegal, h4, hle]

theorem readValue_reg (hp : s.phase = .idle) {off : Nat} (h4 : off % 4 = 0) (hle : off ≤ 0xFFC) :
    s.readValue .reg off 4 = some (s.readReg off) := by
  simp [State.readValue, State.busy, hp, accessLegal, h4, hle]

theorem readValue_ft (hp : s.phase = .idle) {j : Nat} (hj : j < 512) : s.readValue .ft j 4 = some (s.ftWord j) := by
  simp [State.readValue, State.busy, hp, accessLegal, hj]

/-- A NODE word has a value while MV is set (R34). -/
theorem readValue_node (hp : s.phase = .idle) {i w : Nat} (hi : i < 511) (hw : w < 4) :
    s.readValue .node (4 * i + w) 4 = if s.mv then some (nodeWord (s.nodeAt i) w) else none := by
  have hlt : 4 * i + w < 2044 := by omega
  have hdiv : (4 * i + w) / 4 = i := by omega
  have hmod : (4 * i + w) % 4 = w := by omega
  simp [State.readValue, State.busy, hp, accessLegal, hlt, hdiv, hmod]

/-- A CT word has a value while MV is set (R35). -/
theorem readValue_ct (hp : s.phase = .idle) (x : Byte) {w : Nat} (hw : w < 16) :
    s.readValue .ct (16 * x.toNat + w) 4 = if s.mv then some (ctWord (s.ctAt x) w) else none := by
  have hx : x.toNat < 256 := x.isLt
  have hlt : 16 * x.toNat + w < 4096 := by omega
  have hdiv : (16 * x.toNat + w) / 16 = x.toNat := by omega
  have hmod : (16 * x.toNat + w) % 16 = w := by omega
  simp [State.readValue, State.busy, hp, accessLegal, hlt, hdiv, hmod]

/-! ### Registers -/

/-- Settles O13: a write to CMD is acceptance, or is ignored while busy. -/
theorem commandWriteIsAcceptance : Obligations.CommandWriteIsAcceptance := by
  refine fun s w => ⟨fun hp => ?_, fun hp => hostWrite_busy s hp _ _ _ _, fun hp => ?_⟩
  · rw [hostWrite_cmd s hp]
    exact ⟨rfl, rfl, rfl, rfl, rfl, rfl, rfl,
      ⟨⟨rfl, fun _ => rfl⟩, ⟨rfl, rfl, fun _ => rfl, fun _ => rfl⟩, fun _ => rfl, ⟨rfl, rfl⟩, ⟨rfl, fun _ => rfl⟩, rfl⟩,
      rfl, rfl⟩
  · rw [readValue_reg hp (by decide) (by decide)]
    rfl

/-- A 9-bit register reads back as bits 8:0 of the word written (R28). -/
theorem extractLsb'_nine_setWidth (v : Word) : (v.extractLsb' 0 9).setWidth 32 = v &&& 0x1FF := by
  apply BitVec.eq_of_toNat_eq
  have hmask : v.toNat &&& 0x1FF = v.toNat % 2 ^ 9 := Nat.and_two_pow_sub_one_eq_mod v.toNat 9
  rw [BitVec.toNat_and, BitVec.toNat_setWidth, BitVec.extractLsb'_toNat, Nat.shiftRight_zero]
  exact (Nat.mod_eq_of_lt (by omega)).trans hmask.symm

/-- Settles O17: each write is the store of its register, and each register's word is its field. -/
theorem operandRegisterAccess : Obligations.OperandRegisterAccess := by
  intro s v hp
  have inOff : s.hostWrite .reg offInOff 4 v = { s with inOff := v } := hostWrite_reg hp rfl (by decide) v
  have inLen : s.hostWrite .reg offInLen 4 v = { s with inLen := v } := hostWrite_reg hp rfl (by decide) v
  have seqLen : s.hostWrite .reg offSeqLen 4 v = { s with seqLen := v } := hostWrite_reg hp rfl (by decide) v
  have nsym : s.hostWrite .reg offNsym 4 v = { s with nsym := v.extractLsb' 0 9, mv := false } :=
    hostWrite_reg hp rfl (by decide) v
  refine ⟨inOff, inLen, seqLen, nsym, ?_, ?_, ?_, ?_, readValue_reg hp rfl (by decide),
    readValue_reg hp rfl (by decide), readValue_reg hp rfl (by decide), readValue_reg hp rfl (by decide)⟩
  · rw [inOff]
    exact readValue_reg (s := { s with inOff := v }) hp rfl (by decide)
  · rw [inLen]
    exact readValue_reg (s := { s with inLen := v }) hp rfl (by decide)
  · rw [seqLen]
    exact readValue_reg (s := { s with seqLen := v }) hp rfl (by decide)
  · rw [nsym, ← extractLsb'_nine_setWidth]
    exact readValue_reg (s := { s with nsym := v.extractLsb' 0 9, mv := false }) hp rfl (by decide)

/-- No register but the five writable ones stores anything (R21). -/
theorem writeReg_readOnly {off : Nat} (h : off ∉ [0x00, 0x0C, 0x10, 0x18, 0x1C]) (v : Word) : s.writeReg off v = s := by
  simp only [List.mem_cons, List.not_mem_nil, or_false, not_or] at h
  obtain ⟨hcmd, hinOff, hinLen, hnsym, hseqLen⟩ := h
  simp [State.writeReg, offCmd, offInOff, offInLen, offNsym, offSeqLen, hcmd, hinOff, hinLen, hnsym, hseqLen]

/-- The reserved offsets read 0 (R21). -/
theorem readReg_reserved {off : Nat} (h : 0x28 ≤ off) : s.readReg off = 0 := by
  have hne : ∀ r, r < 0x28 → off ≠ r := by omega
  simp [State.readReg, offStatus, offErrinfo, offInOff, offInLen, offOutLen, offNsym, offSeqLen, offRoot, offBufsz, hne]

theorem hostWrite_reg_readOnly {off : Nat} (h : off ∉ [0x00, 0x0C, 0x10, 0x18, 0x1C]) (size : Nat) (v : Word) :
    s.hostWrite .reg off size v = s := by
  unfold State.hostWrite
  split_ifs
  · rfl
  · exact writeReg_readOnly h v

theorem hostWrite_readOnly {sp : Space} (h : sp = .node ∨ sp = .ct ∨ sp = .obuf) (idx size : Nat) (v : Word) :
    s.hostWrite sp idx size v = s := by
  unfold State.hostWrite
  split_ifs
  · rfl
  · obtain rfl | rfl | rfl := h <;> rfl

/-- The legal accesses (R60 to R63). -/
theorem accessLegal_iff (p : Config.Params) (sp : Space) (idx size : Nat) : accessLegal p sp idx size = true ↔
    match sp with
    | .reg => size = 4 ∧ idx % 4 = 0 ∧ idx ≤ 0xFFC
    | .ft => size = 4 ∧ idx ≤ 511
    | .node => size = 4 ∧ idx ≤ 2043
    | .ct => size = 4 ∧ idx ≤ 4095
    | .ibuf => size = 1 ∧ idx < p.bufBytes
    | .obuf => size = 1 ∧ idx < p.bufBytes := by
  cases sp <;> simp [accessLegal] <;> omega

/-- Settles O20: what the port ignores, and what it reads at the reserved offsets. -/
theorem ignoredHostAccesses : Obligations.IgnoredHostAccesses := by
  refine fun s sp idx size v => ⟨accessLegal_iff s.params sp idx size,
    fun h => ⟨hostWrite_of_illegal h v, readValue_of_illegal h⟩, fun h => hostWrite_readOnly h idx size v,
    fun h => hostWrite_reg_readOnly h size v, fun hp hlo hle h4 => ?_⟩
  rw [readValue_reg hp h4 hle, readReg_reserved hlo]

/-! ### STATUS -/

/-- STATUS is readable in either phase (R73). -/
theorem readValue_status (s : State) : s.readValue .reg offStatus 4 = some s.statusWord := by
  simp [State.readValue, accessLegal, offStatus, State.readReg]

theorem statusWord_errcode (s : State) : s.statusWord.extractLsb' 8 8 = s.errcode := by
  apply BitVec.eq_of_getLsbD_eq
  intro k hk
  rw [BitVec.getLsbD_extractLsb', statusWord_getLsbD]
  simp only [hk, decide_true, Bool.true_and]
  have h : 8 ≤ 8 + k ∧ 8 + k < 16 := by omega
  rw [if_neg (by omega), if_neg (by omega), if_neg (by omega), if_neg (by omega), if_neg (by omega), if_pos h,
    Nat.add_sub_cancel_left]

theorem statusWord_reserved (s : State) {k : Nat} (h : k = 5 ∨ k = 6 ∨ k = 7 ∨ 16 ≤ k) :
    s.statusWord.getLsbD k = false := by
  rw [statusWord_getLsbD, if_neg (by omega), if_neg (by omega), if_neg (by omega), if_neg (by omega),
    if_neg (by omega), if_neg (by omega)]

/-- Settles O14: the bits of STATUS one by one. -/
theorem statusWordLayout : Obligations.StatusWordLayout := by
  intro s
  have bit := statusWord_getLsbD s
  exact ⟨readValue_status s, bit 0, bit 1, bit 2, bit 3, bit 4, statusWord_errcode s, fun _ => statusWord_reserved s,
    (bit 0).symm, (bit 1).symm, (bit 2).symm⟩

theorem statusWord_eq_zero (hp : s.phase = .idle) (hd : s.done = false) (he : s.err = false) (hmv : s.mv = false)
    (hc : s.errcode = 0) : s.statusWord = 0 := by
  rw [State.statusWord, State.busy, State.degen, hp, hd, he, hmv, hc, Bool.false_and]
  rfl

/-- Clearing MV clears bits 3 and 4 of STATUS, MV and DEGEN, and leaves the others (R23). -/
theorem statusWord_of_mv_cleared {t : State} (hp : t.phase = s.phase) (hd : t.done = s.done) (he : t.err = s.err)
    (hc : t.errcode = s.errcode) (hmv : t.mv = false) : t.statusWord = s.statusWord &&& ~~~(0x18 : Word) := by
  apply BitVec.eq_of_getLsbD_eq
  intro k hk
  have hmask : ∀ j < 32, (~~~(0x18 : Word)).getLsbD j = !(j == 3 || j == 4) := by decide
  rw [BitVec.getLsbD_and, hmask k hk, statusWord_getLsbD, statusWord_getLsbD, State.busy, State.degen, hp, hd, he, hc,
    hmv]
  by_cases h3 : k = 3
  · simp [h3]
  · by_cases h4 : k = 4
    · simp [h4]
    · simp [h3, h4, State.busy]

/-! ### The tables -/

theorem ftWord_even (s : State) (i : Nat) : s.ftWord (2 * i) = (s.ftEntry i).sym.setWidth 32 := by
  simp [State.ftWord]

theorem ftWord_odd (s : State) (i : Nat) : s.ftWord (2 * i + 1) = (s.ftEntry i).count := by
  have hdiv : (2 * i + 1) / 2 = i := by omega
  simp [State.ftWord, hdiv]

/-- The state with other contents of FT and MV cleared: what a host write of FT leaves (R68). -/
def State.withFt (s : State) (syms : Memory Byte) (counts : Memory Word) : State :=
  { s with ftSym := syms, ftCount := counts, mv := false }

/-- A host write of either word of an FT entry is a write of that cell alone, with MV cleared (R33, R68). -/
theorem hostWrite_ft_eq_withFt (hp : s.phase = .idle) {i : Nat} (hi : i < 256) {v : Word} {t : State}
    (ht : t = s.hostWrite .ft (2 * i) 4 v ∨ t = s.hostWrite .ft (2 * i + 1) 4 v) :
    ∃ syms counts, t = s.withFt syms counts ∧ ∀ j, j ≠ i → (s.withFt syms counts).ftEntry j = s.ftEntry j := by
  obtain rfl | rfl := ht
  · refine ⟨s.ftSym.write i (v.setWidth 8), s.ftCount, hostWrite_ft_sym s hp hi v, fun j hj => ?_⟩
    simp only [State.ftEntry, State.withFt, read_write_other _ hj]
  · refine ⟨s.ftSym, s.ftCount.write i v, hostWrite_ft_count s hp hi v, fun j hj => ?_⟩
    simp only [State.ftEntry, State.withFt, read_write_other _ hj]

/-- Settles O18: each word of an entry is one field, and a write of it is the write of that cell with MV cleared. -/
theorem frequencyTableHostView : Obligations.FrequencyTableHostView := by
  intro s i v hp hi
  refine ⟨?_, ?_, ?_, ?_, fun t ht => ?_⟩
  · rw [readValue_ft hp (by omega), ftWord_even]
  · rw [readValue_ft hp (by omega), ftWord_odd]
  · rw [hostWrite_ft_sym s hp hi v]
    simp only [State.ftEntry, read_write_same]
    rfl
  · rw [hostWrite_ft_count s hp hi v]
    simp only [State.ftEntry, read_write_same]
  · obtain ⟨syms, counts, rfl, hothers⟩ := hostWrite_ft_eq_withFt hp hi ht
    exact ⟨rfl, rfl, rfl, hothers, fun _ => rfl, fun _ => rfl, fun _ => rfl, ⟨rfl, rfl⟩, ⟨rfl, fun _ => rfl⟩, rfl,
      statusWord_of_mv_cleared rfl rfl rfl rfl rfl, rfl, ⟨rfl, rfl, rfl⟩⟩

/-- The low and the high word of a weight (R34). -/
theorem nodeWord_weight (e : Node) :
    (nodeWord e 0).toNat = e.weight.toNat % 2 ^ 32 ∧ (nodeWord e 1).toNat = e.weight.toNat / 2 ^ 32 := by
  have hw : e.weight.toNat < 2 ^ 40 := e.weight.isLt
  constructor
  · simp [nodeWord]
  · have hhigh : e.weight.toNat / 2 ^ 32 < 2 ^ 8 := by omega
    simp only [nodeWord, Nat.one_ne_zero, if_false, if_true, BitVec.toNat_setWidth, BitVec.extractLsb'_toNat,
      Nat.shiftRight_eq_div_pow]
    omega

theorem nodeWord_two_fields (e : Node) : (nodeWord e 2).getLsbD 31 = e.leaf ∧
    (nodeWord e 2).extractLsb' 0 8 = e.sym ∧ (nodeWord e 2).extractLsb' 8 23 = 0 := by
  refine ⟨nodeWord_two_getLsbD e 31, ?_, ?_⟩
  · apply BitVec.eq_of_getLsbD_eq
    intro k hk
    simp [nodeWord_two_getLsbD, hk]
  · apply BitVec.eq_of_getLsbD_eq
    intro k hk
    have h31 : 8 + k ≠ 31 := by omega
    simp [nodeWord_two_getLsbD, h31]

theorem nodeWord_three_fields (e : Node) :
    (nodeWord e 3).extractLsb' 0 9 = e.left ∧ (nodeWord e 3).extractLsb' 9 7 = 0 ∧
      (nodeWord e 3).extractLsb' 16 9 = e.right ∧ (nodeWord e 3).extractLsb' 25 7 = 0 := by
  refine ⟨?_, ?_, ?_, ?_⟩ <;> apply BitVec.eq_of_getLsbD_eq <;> intro k hk
  · simp [nodeWord_three_getLsbD, hk]
  · have h16 : ¬ 16 ≤ 9 + k := by omega
    simp [nodeWord_three_getLsbD, h16]
  · have h9 : ¬ 16 + k < 9 := by omega
    have h25 : 16 + k < 25 := by omega
    simp [nodeWord_three_getLsbD, hk, h9, h25]
  · have h9 : ¬ 25 + k < 9 := by omega
    simp [nodeWord_three_getLsbD, h9]

/-- Settles O21: the four words hold their fields and nothing else. -/
theorem nodeHostViewLayout : Obligations.NodeHostViewLayout := by
  refine fun s i hp hi => ⟨fun hmv => ?_, fun hmv k hk => ?_⟩
  · have word (w : Nat) (hw : w < 4) : s.readValue .node (4 * i + w) 4 = some (nodeWord (s.nodeAt i) w) := by
      rw [readValue_node hp hi hw, hmv, if_pos rfl]
    obtain ⟨hlow, hhigh⟩ := nodeWord_weight (s.nodeAt i)
    obtain ⟨hleaf, hsym, hzero⟩ := nodeWord_two_fields (s.nodeAt i)
    obtain ⟨hleft, hzero1, hright, hzero2⟩ := nodeWord_three_fields (s.nodeAt i)
    exact ⟨_, _, _, _, word 0 (by decide), word 1 (by decide), word 2 (by decide), word 3 (by decide), hlow, hhigh, hleaf,
      hsym, hzero, hleft, hzero1, hright, hzero2⟩
  · rw [readValue_node hp hi hk, hmv, if_neg Bool.false_ne_true]

theorem ctWord_invalid {e : CtEntry} (h : e.valid = false) (w : Nat) : ctWord e w = 0 := by
  simp [ctWord, h]

theorem ctWord_zero {e : CtEntry} (h : e.valid = true) (hl : e.code.length ≤ 255) :
    ctWord e 0 = 0x80000000 + BitVec.ofNat 32 e.code.length := by
  have hlen : e.len.toNat = e.code.length := by
    rw [CtEntry.len, BitVec.toNat_ofNat]
    exact Nat.mod_eq_of_lt (Nat.lt_succ_of_le hl)
  have hword : ctWord e 0 = ((0x800000 : BitVec 24) ++ e.len : BitVec (24 + 8)) := by
    rw [ctWord, h]
    rfl
  apply BitVec.eq_of_toNat_eq
  rw [hword, BitVec.toNat_append, ← Nat.shiftLeft_add_eq_or_of_lt e.len.isLt, hlen, Nat.shiftLeft_eq]
  simp only [BitVec.toNat_add, BitVec.toNat_ofNat, BitVec.reduceToNat]
  omega

theorem ctWord_code {e : CtEntry} (h : e.valid = true) {k : Nat} (hk : k < 256) :
    (ctWord e (1 + k / 32)).getLsbD (31 - k % 32) = e.code.getD k false := by
  have h0 : ¬ 1 + k / 32 = 0 := by omega
  have h8 : 1 + k / 32 ≤ 8 := by omega
  have hpos : 32 * (1 + k / 32 - 1) + k % 32 = k := by omega
  rw [ctWord, h, if_neg (by simp), if_neg h0, if_pos h8, codeWord_getLsbD _ _ _ (by omega), hpos]

theorem ctWord_upper {e : CtEntry} {w : Nat} (hw : 9 ≤ w) : ctWord e w = 0 := by
  have h0 : ¬ w = 0 := by omega
  have h8 : ¬ w ≤ 8 := by omega
  simp [ctWord, h0, h8]

/-- Settles O22: the sixteen words of an entry, by whether it is valid. -/
theorem codeHostViewLayout : Obligations.CodeHostViewLayout := by
  refine fun s x hp => ⟨fun hmv w hw => ?_, fun hmv => ?_⟩
  · rw [readValue_ct hp x hw, hmv, if_neg Bool.false_ne_true]
  · have word (w : Nat) (hw : w < 16) : s.readValue .ct (16 * x.toNat + w) 4 = some (ctWord (s.ctAt x) w) := by
      rw [readValue_ct hp x hw, hmv, if_pos rfl]
    refine ⟨fun hv w hw => ?_, fun hv hl => ⟨?_, fun k hk => ?_, fun w h9 hw => ?_⟩⟩
    · rw [word w hw, ctWord_invalid hv]
    · rw [← ctWord_zero hv hl]
      exact word 0 (by decide)
    · exact ⟨_, word _ (by omega), ctWord_code hv hk⟩
    · rw [word w hw, ctWord_upper h9]

end Sys2Proof.Machine
end

section
/-! Reset (10_state.md R46; 70_reset_and_hazards.md R290, R293): the register values, and which memories are forgotten. -/

namespace Sys2Proof.Machine

/-- Settles O24: the reset state is written out field by field, and its memories list no cell. -/
theorem resetGivesTheRegisterValues : Obligations.ResetGivesTheRegisterValues := by
  intro s hs
  obtain ⟨p, rfl⟩ : ∃ p, s = State.resetOf p := hs.elim (fun h => ⟨_, h⟩) id
  exact ⟨statusWord_eq_zero rfl rfl rfl rfl rfl, rfl, rfl, rfl, rfl, rfl, rfl, rfl, rfl, rfl, rfl, rfl, rfl, rfl,
    readValue_reg rfl rfl (by decide), rfl, fun _ => ⟨rfl, rfl, rfl, rfl, rfl, rfl⟩⟩

section AfterReset

variable (s : State)

@[simp] theorem afterReset_forgotten {α : Type} (m : Memory α) (d k : Nat) : (m.afterReset false d).known k = none :=
  known_forget m d k

@[simp] theorem afterReset_kept {α : Type} (m : Memory α) (d : Nat) : m.afterReset true d = m := rfl

@[simp] theorem afterReset_ftSym : s.afterReset.ftSym = s.ftSym.afterReset (s.keptByReset .ft) s.draws := rfl
@[simp] theorem afterReset_ftCount : s.afterReset.ftCount = s.ftCount.afterReset (s.keptByReset .ft) s.draws := rfl
@[simp] theorem afterReset_node : s.afterReset.node = s.node.afterReset (s.keptByReset .node) s.draws := rfl
@[simp] theorem afterReset_ct : s.afterReset.ct = s.ct.afterReset (s.keptByReset .ct) s.draws := rfl
@[simp] theorem afterReset_ibuf : s.afterReset.ibuf = s.ibuf.afterReset (s.keptByReset .ibuf) s.draws := rfl
@[simp] theorem afterReset_obuf : s.afterReset.obuf = s.obuf.afterReset (s.keptByReset .obuf) s.draws := rfl

/-! ### A memory that reset keeps -/

theorem sameInput_afterReset {s : State} (h : s.keptByReset .ibuf = true) : SameInput s s.afterReset := by
  intro k
  simp [State.ibufAt, h]

theorem ftEntry_afterReset {s : State} (h : s.keptByReset .ft = true) (k : Nat) :
    s.afterReset.ftEntry k = s.ftEntry k := by
  simp [State.ftEntry, h]

theorem nodeAt_afterReset {s : State} (h : s.keptByReset .node = true) (k : Nat) :
    s.afterReset.nodeAt k = s.nodeAt k := by
  simp [State.nodeAt, h]

theorem ctAt_afterReset {s : State} (h : s.keptByReset .ct = true) (x : Byte) : s.afterReset.ctAt x = s.ctAt x := by
  simp [State.ctAt, h]

/-! ### A memory that reset forgets -/

theorem ft_unknown_afterReset {s : State} (h : s.keptByReset .ft = false) (k : Nat) :
    s.afterReset.ftSym.known k = none ∧ s.afterReset.ftCount.known k = none := by
  simp [h]

theorem node_unknown_afterReset {s : State} (h : s.keptByReset .node = false) (k : Nat) :
    s.afterReset.node.known k = none := by
  simp [h]

theorem ct_unknown_afterReset {s : State} (h : s.keptByReset .ct = false) (k : Nat) :
    s.afterReset.ct.known k = none := by
  simp [h]

theorem ibuf_unknown_afterReset {s : State} (h : s.keptByReset .ibuf = false) (k : Nat) :
    s.afterReset.ibuf.known k = none := by
  simp [h]

theorem obuf_unknown_afterReset {s : State} (h : s.keptByReset .obuf = false) (k : Nat) :
    s.afterReset.obuf.known k = none := by
  simp [h]

/-! ### Which memories reset keeps -/

/-- An idle engine keeps none (R290, R291). -/
theorem keptByReset_idle {s : State} (hp : s.phase = .idle) (sp : Space) : s.keptByReset sp = false := by
  simp [State.keptByReset, State.busy, hp]

/-- A running engine keeps those its command reads and does not write (R293). -/
theorem keptByReset_run {s : State} {i : Instr} (hp : s.phase = .run) (hd : decodeCmd s.cmdlatch = .ok i) (sp : Space) :
    s.keptByReset sp = (readsOnly i).contains sp := by
  simp [State.keptByReset, State.busy, hp, hd]

end AfterReset

/-- Settles O25: the registers as in the reset state, and each memory kept or forgotten by the command's row of R95. -/
theorem resetInputForgetsAndKeeps : Obligations.ResetInputForgetsAndKeeps := by
  refine fun s => ⟨⟨statusWord_eq_zero rfl rfl rfl rfl rfl, rfl, rfl, rfl, rfl, rfl, rfl, rfl, rfl, rfl, rfl⟩,
    fun hp k => ?_, fun hp i hd => ?_⟩
  · have hk := keptByReset_idle hp
    obtain ⟨hsym, hcount⟩ := ft_unknown_afterReset (hk .ft) k
    exact ⟨hsym, hcount, node_unknown_afterReset (hk .node) k, ct_unknown_afterReset (hk .ct) k,
      ibuf_unknown_afterReset (hk .ibuf) k, obuf_unknown_afterReset (hk .obuf) k⟩
  · have hk := keptByReset_run hp hd
    refine ⟨?_, ?_, ?_, ?_, ?_⟩
    · rintro (rfl | rfl)
      · exact ⟨sameInput_afterReset (hk .ibuf), ft_unknown_afterReset (hk .ft)⟩
      · exact ⟨sameInput_afterReset (hk .ibuf), ft_unknown_afterReset (hk .ft)⟩
    · rintro rfl
      exact ⟨ftEntry_afterReset (hk .ft),
        fun k => ⟨node_unknown_afterReset (hk .node) k, ct_unknown_afterReset (hk .ct) k⟩⟩
    · rintro a rfl
      exact ⟨sameInput_afterReset (hk .ibuf), ctAt_afterReset (hk .ct), obuf_unknown_afterReset (hk .obuf)⟩
    · rintro rfl
      exact ⟨sameInput_afterReset (hk .ibuf), nodeAt_afterReset (hk .node), obuf_unknown_afterReset (hk .obuf)⟩
    · rintro rfl
      exact ⟨ftEntry_afterReset (hk .ft), obuf_unknown_afterReset (hk .obuf)⟩

end Sys2Proof.Machine
end

section
/-! The turns of the host's events and the host's accesses (20_memory.md R67, R68, R71, R73): which event does what, what
the port does while busy, that no read has a side effect, and which writes clear MV. -/

namespace Sys2Proof.Machine

variable {s : State}

/-- Settles O6: a step is the turn of the next event, and an idle engine's turn at a wait answers the state it has. -/
theorem stepTakesTheNextHostEvent : Obligations.StepTakesTheNextHostEvent := by
  refine fun s rest => ⟨fun _ _ _ _ => step_cons, fun _ _ _ => step_cons, fun _ _ _ => step_cons, fun _ _ => step_cons,
    step_cons, fun k hp hn => ?_⟩
  have hidle : engineTurn (s.withPending rest) = .next (s.withPending rest) := engineTurn_idle hp
  rw [step_cons hn, eventTurn, waitTurn_of_next hidle, State.skipIfErr, withPending_err]
  split_ifs <;> rfl

/-! ### Reads -/

theorem hostRead_toArch (s : State) (sp : Space) (idx size : Nat) : (s.hostRead sp idx size).toArch = s.toArch := rfl

theorem busRead_toArch (s : State) (addr size : Nat) : (s.busRead addr size).toArch = s.toArch := by
  unfold State.busRead
  split <;> rfl

/-- What a host read returns depends on the architectural state and the parameters alone. -/
theorem readValue_congr {t : State} (ha : t.toArch = s.toArch) (hp : t.params = s.params) (sp : Space) (idx size : Nat) :
    t.readValue sp idx size = s.readValue sp idx size := by
  cases s
  cases t
  subst ha hp
  rfl

theorem hostReadData_of_some {sp : Space} {idx size : Nat} {v : Word} (h : s.readValue sp idx size = some v) :
    s.hostReadData sp idx size = v := by
  rw [State.hostReadData, h]

theorem hostReadData_of_none {sp : Space} {idx size : Nat} (h : s.readValue sp idx size = none) :
    s.hostReadData sp idx size = Config.freeRead s.draws := by
  rw [State.hostReadData, h]

/-- Settles O16: a read leaves `Arch` and the parameters, and what a read returns depends on nothing else. -/
theorem hostReadsHaveNoSideEffect : Obligations.HostReadsHaveNoSideEffect := by
  intro s sp idx size
  exact ⟨hostRead_toArch s sp idx size, hostRead_params s sp idx size, rfl, rfl, fun _ => hostReadData_of_some,
    readValue_congr (hostRead_toArch s sp idx size) (hostRead_params s sp idx size),
    fun addr => ⟨busRead_toArch s addr size, readValue_congr (busRead_toArch s addr size) (busRead_params s addr size)⟩⟩

/-! ### While busy -/

/-- BUFSZ is readable in either phase (R73). -/
theorem readValue_bufsz (s : State) : s.readValue .reg offBufsz 4 = some (BitVec.ofNat 32 s.params.bufBytes) := by
  simp [State.readValue, accessLegal, State.readReg, offBufsz, offStatus, offErrinfo, offInOff, offInLen, offOutLen,
    offNsym, offSeqLen, offRoot]

/-- While busy no other read has a value (R73): an illegal access has none, and a legal one is not of STATUS or BUFSZ. -/
theorem readValue_busy (hp : s.phase = .run) {sp : Space} {idx size : Nat}
    (h : ¬ (sp = .reg ∧ (idx = offStatus ∨ idx = offBufsz) ∧ size = 4)) : s.readValue sp idx size = none := by
  cases hl : accessLegal s.params sp idx size with
  | false => exact readValue_of_illegal hl
  | true =>
    have hother : ¬ (sp = .reg ∧ (idx = offStatus ∨ idx = offBufsz)) := by
      rintro ⟨rfl, hidx⟩
      exact h ⟨rfl, hidx, ((accessLegal_iff _ _ _ _).1 hl).1⟩
    have hguard : (s.busy && !(sp == .reg && (idx == offStatus || idx == offBufsz))) = true := by
      simpa [State.busy, hp, imp_iff_not_or] using hother
    unfold State.readValue
    rw [hl, if_neg (by decide), if_pos hguard]

/-- Settles O15: the port's guard is closed while busy to all but the reads of STATUS and BUFSZ. -/
theorem busyHostAccesses : Obligations.BusyHostAccesses := by
  intro s hp
  refine ⟨readValue_status s, readValue_bufsz s, hostWrite_busy s hp, busWrite_busy hp, fun sp idx size h => ?_,
    hostRead_toArch s, busRead_toArch s⟩
  have hnone := readValue_busy hp h
  exact ⟨hnone, hostReadData_of_none hnone⟩

/-! ### Writes with side effects -/

/-- Every legal write of FT clears MV (R68). -/
theorem hostWrite_ft_mv (hp : s.phase = .idle) {j : Nat} (hj : j < 512) (v : Word) :
    (s.hostWrite .ft j 4 v).mv = false := by
  have h : s.hostWrite .ft j 4 v = s.writeFtWord j v := by
    simp [State.hostWrite, State.busy, hp, accessLegal, hj]
  rw [h, writeFtWord_mv]

/-- COUNT and FTPARSE clear MV when they complete without error (R68). -/
theorem ExecResult.mv_of_storesTable {i : Instr} {t : State} (h : ExecResult s i t) (hi : i = .count ∨ i = .ftparse)
    (he : t.err = false) : t.mv = false := by
  obtain rfl | rfl := hi
  · cases h with
    | countRange => exact absurd he (by simp)
    | countOk => rfl
  · cases h with
    | ftparseRange | ftparseFormat => exact absurd he (by simp)
    | ftparseOk => rfl

/-- Settles O19: the writes one by one, and the results of the two commands that store a table. -/
theorem writesThatClearModelValid : Obligations.WritesThatClearModelValid := by
  refine ⟨fun s v hp => ?_, fun i s t hi h he => (exec_result h).mv_of_storesTable hi he⟩
  obtain ⟨hinOff, hinLen, hseqLen, hnsym, -⟩ := operandRegisterAccess s v hp
  refine ⟨hostWrite_cmd s hp v, by rw [hnsym], fun j hj => hostWrite_ft_mv hp hj v, hinOff, hinLen, hseqLen,
    fun k hk => ?_⟩
  rw [hostWrite_ibuf s hp hk]
  exact ⟨read_write_same _ _ _ _, fun m hm => read_write_other _ hm _ _, rfl⟩

end Sys2Proof.Machine
end

section
/-! The flat map (20_memory.md R76): an element's address is located as that element, and what is located is an element's
address. -/

namespace Sys2Proof.Machine

/-! ### Regions of words -/

theorem flatWord_element (sp : Space) (start : Nat) {words idx : Nat} (h : idx < words) :
    flatWord sp start words (start + 4 * idx) = some (sp, idx) := by
  have hin : start ≤ start + 4 * idx ∧ start + 4 * idx < start + 4 * words ∧ (start + 4 * idx - start) % 4 = 0 := by
    omega
  have hidx : (start + 4 * idx - start) / 4 = idx := by omega
  rw [flatWord, if_pos hin, hidx]

theorem flatWord_eq_some {sp sp' : Space} {start words off idx : Nat} (h : flatWord sp start words off = some (sp', idx)) :
    sp' = sp ∧ off = start + 4 * idx := by
  unfold flatWord at h
  split_ifs at h with hin
  obtain ⟨rfl, rfl⟩ := Prod.mk.inj (Option.some.inj h)
  exact ⟨rfl, by omega⟩

theorem flatWord_beyond (sp : Space) {start words off : Nat} (h : start + 4 * words ≤ off) :
    flatWord sp start words off = none := by
  rw [flatWord, if_neg]
  omega

/-! ### Offsets from BASE -/

/-- The offset from BASE of element `idx` of a space. -/
def flatOffset (sp : Space) (idx : Nat) : Nat :=
  match sp with
  | .reg => idx
  | .ft => 0x1000 + 4 * idx
  | .node => 0x2000 + 4 * idx
  | .ct => 0x4000 + 4 * idx
  | .ibuf => 0x1000000 + idx
  | .obuf => 0x2000000 + idx

theorem flatAddress_eq (p : Config.Params) (sp : Space) (idx : Nat) : flatAddress p sp idx = p.base + flatOffset sp idx := by
  cases sp <;> rfl

theorem locate_base_add (p : Config.Params) (off : Nat) : locate p (p.base + off) = locateOffset p off := by
  rw [locate, if_pos (Nat.le_add_right _ _), Nat.add_sub_cancel_left]

section Regions

variable (p : Config.Params) {off : Nat}

theorem locateOffset_reg (h : off < 0x1000) : locateOffset p off = some (.reg, off) := by
  rw [locateOffset, if_pos h]

theorem locateOffset_ft (hlo : 0x1000 ≤ off) (hhi : off < 0x2000) :
    locateOffset p off = flatWord .ft 0x1000 512 off := by
  rw [locateOffset, if_neg (by omega), if_pos hhi]

theorem locateOffset_node (hlo : 0x2000 ≤ off) (hhi : off < 0x4000) :
    locateOffset p off = flatWord .node 0x2000 2044 off := by
  rw [locateOffset, if_neg (by omega), if_neg (by omega), if_pos hhi]

theorem locateOffset_ct (hlo : 0x4000 ≤ off) (hhi : off < 0x1000000) :
    locateOffset p off = flatWord .ct 0x4000 4096 off := by
  rw [locateOffset, if_neg (by omega), if_neg (by omega), if_neg (by omega), if_pos hhi]

theorem locateOffset_ibuf (hlo : 0x1000000 ≤ off) (hhi : off < 0x1000000 + p.bufBytes) :
    locateOffset p off = some (.ibuf, off - 0x1000000) := by
  rw [locateOffset, if_neg (by omega), if_neg (by omega), if_neg (by omega), if_neg (by omega), if_pos hhi]

/-- From the end of IBUF on only OBUF's region is left. -/
theorem locateOffset_above_ibuf (hlo : 0x1000000 + p.bufBytes ≤ off) : locateOffset p off =
    if 0x2000000 ≤ off ∧ off < 0x2000000 + p.bufBytes then some (.obuf, off - 0x2000000) else none := by
  rw [locateOffset, if_neg (by omega), if_neg (by omega), if_neg (by omega), if_neg (by omega), if_neg (by omega)]

end Regions

theorem locateOffset_flatOffset {p : Config.Params} {sp : Space} {idx size : Nat}
    (h : accessLegal p sp idx size = true) : locateOffset p (flatOffset sp idx) = some (sp, idx) := by
  have hl := (accessLegal_iff p sp idx size).1 h
  cases sp with
  | reg =>
    obtain ⟨-, -, hidx⟩ := hl
    exact locateOffset_reg p (Nat.lt_of_le_of_lt hidx (by decide))
  | ft =>
    obtain ⟨-, hidx⟩ := hl
    rw [flatOffset, locateOffset_ft p (by omega) (by omega), flatWord_element .ft 0x1000 (by omega)]
  | node =>
    obtain ⟨-, hidx⟩ := hl
    rw [flatOffset, locateOffset_node p (by omega) (by omega), flatWord_element .node 0x2000 (by omega)]
  | ct =>
    obtain ⟨-, hidx⟩ := hl
    rw [flatOffset, locateOffset_ct p (by omega) (by omega), flatWord_element .ct 0x4000 (by omega)]
  | ibuf =>
    obtain ⟨-, hidx⟩ := hl
    rw [flatOffset, locateOffset_ibuf p (by omega) (by omega), Nat.add_sub_cancel_left]
  | obuf =>
    obtain ⟨-, hidx⟩ := hl
    have hbuf := p.lengthsFit
    rw [flatOffset, locateOffset_above_ibuf p (by omega), if_pos (by omega), Nat.add_sub_cancel_left]

theorem flatOffset_of_locateOffset {p : Config.Params} {off idx : Nat} {sp : Space}
    (h : locateOffset p off = some (sp, idx)) : flatOffset sp idx = off := by
  unfold locateOffset at h
  split_ifs at h with hreg hft hnode hct hibuf hobuf
  · obtain ⟨rfl, rfl⟩ := Prod.mk.inj (Option.some.inj h)
    rfl
  · obtain ⟨rfl, hoff⟩ := flatWord_eq_some h
    exact hoff.symm
  · obtain ⟨rfl, hoff⟩ := flatWord_eq_some h
    exact hoff.symm
  · obtain ⟨rfl, hoff⟩ := flatWord_eq_some h
    exact hoff.symm
  · obtain ⟨rfl, rfl⟩ := Prod.mk.inj (Option.some.inj h)
    exact Nat.add_sub_cancel' (by omega)
  · obtain ⟨rfl, rfl⟩ := Prod.mk.inj (Option.some.inj h)
    exact Nat.add_sub_cancel' hobuf.1

/-- The offsets between and beyond the regions are no element's (R76). -/
theorem locateOffset_reserved {p : Config.Params} {off : Nat}
    (h : (0x1800 ≤ off ∧ off < 0x2000) ∨ (0x2000 + 8176 ≤ off ∧ off < 0x4000) ∨ (0x8000 ≤ off ∧ off < 0x1000000) ∨
      (0x1000000 + p.bufBytes ≤ off ∧ off < 0x2000000) ∨ 0x2000000 + p.bufBytes ≤ off) :
    locateOffset p off = none := by
  obtain ⟨hlo, hhi⟩ | ⟨hlo, hhi⟩ | ⟨hlo, hhi⟩ | ⟨hlo, hhi⟩ | hlo := h
  · rw [locateOffset_ft p (by omega) hhi, flatWord_beyond .ft hlo]
  · rw [locateOffset_node p (by omega) hhi, flatWord_beyond .node hlo]
  · rw [locateOffset_ct p (by omega) hhi, flatWord_beyond .ct hlo]
  · rw [locateOffset_above_ibuf p hlo, if_neg (by omega)]
  · rw [locateOffset_above_ibuf p (by omega), if_neg (by omega)]

/-! ### Addresses -/

theorem locate_flatAddress {p : Config.Params} {sp : Space} {idx size : Nat} (h : accessLegal p sp idx size = true) :
    locate p (flatAddress p sp idx) = some (sp, idx) := by
  rw [flatAddress_eq, locate_base_add, locateOffset_flatOffset h]

theorem flatAddress_of_locate {p : Config.Params} {addr idx : Nat} {sp : Space} (h : locate p addr = some (sp, idx)) :
    flatAddress p sp idx = addr := by
  unfold locate at h
  split_ifs at h with hbase
  rw [flatAddress_eq, flatOffset_of_locateOffset h, Nat.add_sub_cancel' hbase]

section Access

variable {s : State} {addr : Nat}

theorem busWrite_located {sp : Space} {idx : Nat} (h : locate s.params addr = some (sp, idx)) (size : Nat) (v : Word) :
    s.busWrite addr size v = s.hostWrite sp idx size v := by
  rw [State.busWrite, h]

theorem busRead_located {sp : Space} {idx : Nat} (h : locate s.params addr = some (sp, idx)) (size : Nat) :
    s.busRead addr size = s.hostRead sp idx size := by
  rw [State.busRead, h]

theorem busWrite_reserved (h : locate s.params addr = none) (size : Nat) (v : Word) : s.busWrite addr size v = s := by
  rw [State.busWrite, h]

theorem busRead_reserved (h : locate s.params addr = none) (size : Nat) :
    (s.busRead addr size).host.readData = s.host.readData ++ [Config.freeRead s.draws] := by
  rw [State.busRead, h]

end Access

/-- Settles O23: the address of an element is located as it, what is located is an element's address, and the reserved
ranges are located as nothing. -/
theorem flatMapLocatesTheElements : Obligations.FlatMapLocatesTheElements := by
  refine fun s => ⟨fun sp idx size hl => ?_, fun addr sp idx => flatAddress_of_locate, fun off size v h => ?_⟩
  · have hloc := locate_flatAddress hl
    exact ⟨hloc, busWrite_located hloc size, busRead_located hloc size⟩
  · have hloc : locate s.params (s.params.base + off) = none := by
      rw [locate_base_add, locateOffset_reserved h]
    exact ⟨busWrite_reserved hloc size v, busRead_reserved hloc size⟩

end Sys2Proof.Machine
end

section
/-! The input window (20_memory.md R69): an illegal one is RangeError(1) with nothing changed, and a command reads IBUF
through a legal window only, so it commutes with replacing the rest of IBUF. -/

namespace Sys2Proof.Machine

/-! ### An illegal window -/

/-- An error entry changes nothing but the record (R261). -/
theorem raise_unchanged (s : State) (e : HceError) (info : Word) : Unchanged s (s.raise e info) :=
  ⟨⟨⟨rfl, fun _ => rfl⟩, ⟨rfl, rfl, fun _ => rfl, fun _ => rfl⟩, fun _ => rfl, ⟨rfl, rfl⟩, ⟨rfl, fun _ => rfl⟩, rfl⟩,
    ⟨rfl, rfl, rfl⟩⟩

/-- The four commands that read the window check it (R69), ENCODE and DECODE after MV (R260). -/
theorem exec_of_illegalWindow {s : State} (hw : s.windowLegal = false) {i : Instr}
    (hi : i = .count ∨ i = .ftparse ∨ (s.mv = true ∧ (i = .decode ∨ ∃ a, i = .encode a))) :
    exec i s = .next (s.raise .range 1) := by
  obtain rfl | rfl | ⟨hm, rfl | ⟨a, rfl⟩⟩ := hi
  · exact execCount_range s hw
  · exact execFtparse_range s hw
  · exact execDecode_range s hm hw
  · exact execEncode_range s a hm hw

/-! ### Replacing the contents of IBUF -/

/-- The state with other contents of IBUF. -/
def State.withInput (s : State) (m : Memory Byte) : State := { s with ibuf := m }

/-- A change of the next state an outcome answers. -/
def mapNext (f : State → State) : Host.Outcome State Fault Refusal → Host.Outcome State Fault Refusal
  | .next t => .next (f t)
  | .fault r => .fault r
  | .refused r => .refused r

/-- The contents `m` agree with IBUF on a legal window. -/
def AgreesOnWindow (s : State) (m : Memory Byte) : Prop :=
  s.windowLegal = true → ∀ k, s.inOff.toNat ≤ k → k < s.inLen.toNat →
    m.read Config.freeIbuf k = s.ibuf.read Config.freeIbuf k

section Input

variable {s : State} {m : Memory Byte}

theorem window_withInput (h : AgreesOnWindow s m) (hw : s.windowLegal = true) : (s.withInput m).window = s.window := by
  refine List.map_congr_left fun k hk => ?_
  obtain ⟨hlo, hhi⟩ := List.mem_range'_1.1 hk
  obtain ⟨hle, -⟩ := (windowLegal_iff s).1 hw
  exact h hw k hlo (hhi.trans_eq (Nat.add_sub_cancel' hle))

theorem execCount_withInput (h : AgreesOnWindow s m) :
    execCount (s.withInput m) = mapNext (·.withInput m) (execCount s) := by
  cases hw : s.windowLegal with
  | false =>
    rw [execCount_range s hw]
    exact execCount_range (s.withInput m) hw
  | true =>
    rw [execCount_ok s hw, execCount_ok (s.withInput m) hw, window_withInput h hw]
    rfl

theorem execBuild_withInput (s : State) (m : Memory Byte) :
    execBuild (s.withInput m) = mapNext (·.withInput m) (execBuild s) := by
  obtain ⟨ht, -⟩ | ⟨e, info, hf⟩ := execBuild_cases s
  · rw [execBuild_ok s ht]
    exact execBuild_ok (s.withInput m) ht
  · rw [execBuild_error s hf]
    exact execBuild_error (s.withInput m) hf

theorem execEncode_withInput (a : Bool) (h : AgreesOnWindow s m) :
    execEncode a (s.withInput m) = mapNext (·.withInput m) (execEncode a s) := by
  cases hm : s.mv with
  | false =>
    rw [execEncode_noModel s a hm]
    exact execEncode_noModel (s.withInput m) a hm
  | true =>
    cases hw : s.windowLegal with
    | false =>
      rw [execEncode_range s a hm hw]
      exact execEncode_range (s.withInput m) a hm hw
    | true =>
      have hcodes : ∀ r, concatCodes s.ctAt s.inOff.toNat s.window = r →
          concatCodes (s.withInput m).ctAt (s.withInput m).inOff.toNat (s.withInput m).window = r := by
        rw [window_withInput h hw]
        exact fun _ => id
      cases hc : concatCodes s.ctAt s.inOff.toNat s.window with
      | error k =>
        rw [execEncode_unknown s a hm hw hc]
        exact execEncode_unknown (s.withInput m) a hm hw (hcodes _ hc)
      | ok d =>
        by_cases hf : s.params.bufBytes < s.encodeBase a + (packStream d).length
        · rw [execEncode_overflow s a hm hw hc hf]
          exact execEncode_overflow (s.withInput m) a hm hw (hcodes _ hc) hf
        · rw [execEncode_ok s a hm hw hc (Nat.le_of_not_lt hf)]
          exact execEncode_ok (s.withInput m) a hm hw (hcodes _ hc) (Nat.le_of_not_lt hf)

theorem decodeDegenerate_withInput (s : State) (m : Memory Byte) (data : Bits) :
    (s.withInput m).decodeDegenerate data = mapNext (·.withInput m) (s.decodeDegenerate data) := by
  unfold State.decodeDegenerate
  rw [apply_ite (mapNext _), apply_ite (mapNext _)]
  rfl

theorem decodeWalk_withInput (s : State) (m : Memory Byte) (data : Bits) :
    (s.withInput m).decodeWalk data = mapNext (·.withInput m) (s.decodeWalk data) := by
  unfold State.decodeWalk
  dsimp only
  rw [apply_ite (mapNext _), apply_ite (mapNext _)]
  rfl

theorem execDecode_withInput (h : AgreesOnWindow s m) :
    execDecode (s.withInput m) = mapNext (·.withInput m) (execDecode s) := by
  cases hm : s.mv with
  | false =>
    rw [execDecode_noModel s hm]
    exact execDecode_noModel (s.withInput m) hm
  | true =>
    cases hw : s.windowLegal with
    | false =>
      rw [execDecode_range s hm hw]
      exact execDecode_range (s.withInput m) hm hw
    | true =>
      have hwin := window_withInput h hw
      cases hx : s.window with
      | nil =>
        rw [execDecode_empty s hm hw hx]
        exact execDecode_empty (s.withInput m) hm hw (hwin.trans hx)
      | cons header body =>
        by_cases hp : 8 * body.length < header.toNat
        · rw [execDecode_padding s hm hw hx hp]
          exact execDecode_padding (s.withInput m) hm hw (hwin.trans hx) hp
        · have hp' := Nat.le_of_not_lt hp
          cases hd : s.degen with
          | true =>
            rw [execDecode_degenerate s hm hw hx hp' hd, ← decodeDegenerate_withInput]
            exact execDecode_degenerate (s.withInput m) hm hw (hwin.trans hx) hp' hd
          | false =>
            rw [execDecode_walk s hm hw hx hp' hd, ← decodeWalk_withInput]
            exact execDecode_walk (s.withInput m) hm hw (hwin.trans hx) hp' hd

theorem execFtser_withInput (s : State) (m : Memory Byte) :
    execFtser (s.withInput m) = mapNext (·.withInput m) (execFtser s) := by
  unfold execFtser
  rw [apply_ite (mapNext _)]
  rfl

theorem execFtparse_withInput (h : AgreesOnWindow s m) :
    execFtparse (s.withInput m) = mapNext (·.withInput m) (execFtparse s) := by
  cases hw : s.windowLegal with
  | false =>
    rw [execFtparse_range s hw]
    exact execFtparse_range (s.withInput m) hw
  | true =>
    unfold execFtparse
    rw [window_withInput h hw, apply_ite (mapNext _), apply_ite (mapNext _), apply_ite (mapNext _),
      apply_ite (mapNext _)]
    rfl

/-- A command carries contents of IBUF that agree on its legal window through unread (R69). -/
theorem exec_withInput (i : Instr) (h : AgreesOnWindow s m) :
    exec i (s.withInput m) = mapNext (·.withInput m) (exec i s) := by
  cases i with
  | clear => rfl
  | count => exact execCount_withInput h
  | build => exact execBuild_withInput s m
  | encode a => exact execEncode_withInput a h
  | decode => exact execDecode_withInput h
  | ftser => exact execFtser_withInput s m
  | ftparse => exact execFtparse_withInput h

end Input

/-- Settles O31: the window's laws, its check by the four commands, and that every command commutes with replacing the
contents of IBUF outside a legal window. -/
theorem windowIsCheckedAndIsAllThatIsRead : Obligations.WindowIsCheckedAndIsAllThatIsRead := by
  refine ⟨fun s => ⟨windowLegal_iff s, fun _ => ⟨length_window s, getElem?_window s⟩, fun hw i hi => ?_⟩,
    fun i s t m h hx => ?_⟩
  · exact ⟨_, exec_of_illegalWindow hw hi, raise_completedWith s _ _, raise_unchanged s _ _⟩
  · have hmap := exec_withInput i h
    rwa [hx] at hmap

end Sys2Proof.Machine
end

section
/-! ENCODE and ENCODE.A of a window whose symbols all have codewords (42_encode.md R170 to R178): the packed stream at
the base when it fits, RangeError(2) when it does not. -/

namespace Sys2Proof.Machine

variable {s : State}

/-- A stored output reads as its bytes (R70). -/
theorem map_obufAt_storeOutput (s : State) (base : Nat) (y : List Byte) :
    (List.range' base y.length).map (s.storeOutput base y).obufAt = y := by
  apply List.ext_getElem
  · simp
  · intro j _ hj
    rw [List.getElem_map, List.getElem_range', Nat.one_mul, obufAt_storeOutput s base y j hj]

/-- A stored packed stream reads as the padding count, and behind it the bits and the padding (R174 to R176). -/
theorem obufAt_storeOutput_packStream (s : State) (base : Nat) (d : Bits) :
    ((s.storeOutput base (packStream d)).obufAt base).toNat = 8 - d.length % 8 ∧
      bitsOf ((List.range' (base + 1) (1 + d.length / 8)).map (s.storeOutput base (packStream d)).obufAt) =
        d ++ List.replicate (8 - d.length % 8) false := by
  obtain ⟨body, hy, hlen, hbits⟩ := packStream_spec d
  have hread := map_obufAt_storeOutput s base (packStream d)
  have hsize : (packStream d).length = body.length + 1 := congrArg List.length hy
  rw [hsize, List.range'_succ, List.map_cons, hlen] at hread
  obtain ⟨hheader, hbody⟩ := List.cons.inj (hread.trans hy)
  have hpad : padCount d.length < 2 ^ 8 := by
    have := (padCount_spec d.length).2.1
    omega
  constructor
  · rw [hheader, BitVec.toNat_ofNat, Nat.mod_eq_of_lt hpad, padCount]
  · rw [hbody, hbits]
    rfl

/-- Settles O43: the concatenation succeeds, the stream fits, and it is what is stored at the base. -/
theorem encodeWritesThePackedStream : Obligations.EncodeWritesThePackedStream := by
  rintro s a D hm hw hcodes rfl hfit
  rw [Nat.add_assoc, ← length_packStream] at hfit
  have hconcat := concatCodes_ok s.ctAt s.inOff.toNat s.window hcodes
  obtain ⟨hheader, hbits⟩ := obufAt_storeOutput_packStream s (s.encodeBase a) (s.window.flatMap fun x => (s.ctAt x).code)
  refine ⟨rfl, _, execEncode_ok s a hm hw hconcat hfit, ⟨rfl, rfl, rfl, rfl, rfl⟩, ?_, hheader, hbits,
    obufAt_storeOutput_below s _ _, ?_, ⟨rfl, fun _ => rfl⟩, ⟨rfl, rfl, fun _ => rfl, fun _ => rfl⟩, fun _ => rfl,
    ⟨rfl, rfl⟩, ⟨rfl, rfl, rfl⟩⟩
  · rw [Nat.add_assoc, ← length_packStream]
    exact outLen_storeOutput s _ _ hfit
  · exact Nat.mod_eq_of_lt (windowLength_lt s)

/-- An ENCODE that cuts the output at its base and enters an error leaves what R262 says. -/
theorem encodeFails_of_cut {a : Bool} {e : HceError} {info : Word}
    (h : execEncode a s = .next ((s.storeOutput (s.encodeBase a) []).raise e info)) : EncodeFails a s e info :=
  ⟨_, h, raise_completedWith _ e info, rfl, obufAt_storeOutput_below s _ _, ⟨rfl, fun _ => rfl⟩,
    ⟨rfl, rfl, fun _ => rfl, fun _ => rfl⟩, fun _ => rfl, ⟨rfl, rfl⟩, rfl, ⟨rfl, rfl, rfl⟩⟩

/-- Settles O45: the concatenation succeeds, and by the length law its stream does not fit. -/
theorem encodeOverflowIsRangeError : Obligations.EncodeOverflowIsRangeError := by
  intro s a hm hw hcodes hlong
  rw [Nat.add_assoc, ← length_packStream] at hlong
  exact encodeFails_of_cut (execEncode_overflow s a hm hw (concatCodes_ok s.ctAt s.inOff.toNat s.window hcodes) hlong)

end Sys2Proof.Machine
end

section
/-! Command words (30_encoding.md R90 to R94): a word is its fields, and its fields are legal exactly when they are those
of a command, so the decoder and the encoder are inverse to each other. -/

namespace Sys2Proof.Machine

/-! ### The fields of a word -/

/-- The fields are the whole word (R90). -/
theorem joinCommand_splitCommand (w : Word) : joinCommand (splitCommand w) = w := by
  have hbit : BitVec.ofBool (w.getLsbD 8) = w.extractLsb' 8 1 := by
    ext k hk
    obtain rfl : k = 0 := by omega
    simp
  calc joinCommand (splitCommand w)
      = w.extractLsb' 9 23 ++ w.extractLsb' 8 1 ++ w.extractLsb' 0 8 := by rw [← hbit]; rfl
    _ = w.extractLsb' 8 24 ++ w.extractLsb' 0 8 :=
      congrArg (· ++ w.extractLsb' 0 8) (BitVec.extractLsb'_append_extractLsb'_eq_extractLsb' rfl)
    _ = w.extractLsb' 0 32 := BitVec.extractLsb'_append_extractLsb'_eq_extractLsb' rfl
    _ = w := BitVec.extractLsb'_eq_self

/-- An opcode stands for the command that has it, and ENCODE alone takes the append flag (R91, R92). -/
theorem fields_of_instrOfOpcode {op : Byte} {a : Bool} {i : Instr} (h : instrOfOpcode op a = some i) :
    op = opcodeOf i ∧ (a && op == 0x04) = appendOf i := by
  unfold instrOfOpcode at h
  split_ifs at h with h1 h2 h3 h4 h5 h6 h7 <;> obtain rfl := Option.some.inj h <;> subst op <;>
    simp [opcodeOf, appendOf]

/-- Where the append flag is allowed, it is set on ENCODE only (R92). -/
theorem append_and_of_appendAllowed {c : Command} (h : c.appendAllowed = true) :
    (c.append && c.op == 0x04) = c.append := by
  unfold Command.appendAllowed at h
  cases hc : c.append with
  | false => rfl
  | true => simpa [hc] using h

/-- What the decoder of fields accepts are the fields of the command it answers (R94). -/
theorem eq_commandOf_of_decodeCommand {c : Command} {i : Instr} (h : decodeCommand c = .ok i) : c = commandOf i := by
  unfold decodeCommand at h
  cases hj : instrOfOpcode c.op c.append with
  | none =>
    simp only [hj] at h
    split_ifs at h
  | some j =>
    simp only [hj] at h
    split_ifs at h with hr ha
    obtain rfl := Except.ok.inj h
    obtain ⟨hop, happend⟩ := fields_of_instrOfOpcode hj
    rw [append_and_of_appendAllowed ha] at happend
    have hres : c.reserved = 0 := by simpa [Command.reservedClear] using hr
    calc c = ⟨c.op, c.append, c.reserved⟩ := rfl
      _ = commandOf j := by rw [hop, happend, hres, commandOf]

/-! ### Words and commands -/

/-- A word decodes to a command exactly when it is the encoder's word of it (R94). -/
theorem decodeCmd_eq_ok_iff {w : Word} {i : Instr} : decodeCmd w = .ok i ↔ w = encodeCmd i := by
  constructor
  · intro h
    calc w = joinCommand (splitCommand w) := (joinCommand_splitCommand w).symm
      _ = encodeCmd i := congrArg joinCommand (eq_commandOf_of_decodeCommand h)
  · rintro rfl
    exact decodeCmd_encodeCmd i

/-- Settles O2: a word that decodes is the encoder's word of its command. -/
theorem decodeThenEncodeGivesWord : Obligations.DecodeThenEncodeGivesWord :=
  fun _ _ h => (decodeCmd_eq_ok_iff.mp h).symm

/-- On 32 bits the decoder of the opcode table is the decoder of words. -/
theorem decodeTableWord_of_decodeCmd {w : Word} {i : Instr} (h : decodeCmd w = .ok i) :
    decodeTableWord 32 w.toNat = some i := by
  have hw : BitVec.ofNat 32 (w.toNat % 2 ^ 32) = w := by
    rw [Nat.mod_eq_of_lt w.isLt, BitVec.ofNat_toNat, BitVec.setWidth_eq]
  rw [decodeTableWord, if_pos le_rfl, hw, h]

/-- Settles O1: the round trip of words, read by either decoder. -/
theorem encodeThenDecodeIsIdentity : Obligations.EncodeThenDecodeIsIdentity :=
  fun i => ⟨decodeCmd_encodeCmd i, decodeTableWord_of_decodeCmd (decodeCmd_encodeCmd i)⟩

/-! ### Which words are legal -/

/-- The legal words are those whose fields are a command's (R94). -/
theorem decodes_iff_splitCommand {w : Word} : (∃ i, decodeCmd w = .ok i) ↔ ∃ i, splitCommand w = commandOf i := by
  refine exists_congr fun i => ⟨eq_commandOf_of_decodeCommand, fun h => decodeCmd_eq_ok_iff.mpr ?_⟩
  rw [← joinCommand_splitCommand w, h, encodeCmd]

/-- A command's fields, as R94 gives them: no reserved bit, and an opcode of the table, with the flag on ENCODE only. -/
theorem exists_commandOf_iff {c : Command} : (∃ i, c = commandOf i) ↔
    c.reserved = 0 ∧
      ((c.op ∈ ([0x01, 0x02, 0x03, 0x05, 0x06, 0x07] : List Byte) ∧ c.append = false) ∨ c.op = 0x04) := by
  constructor
  · rintro ⟨i, rfl⟩
    cases i <;> simp [commandOf, opcodeOf, appendOf]
  · obtain ⟨op, a, r⟩ := c
    rintro ⟨rfl, ⟨hop, rfl⟩ | rfl⟩
    · simp only [List.mem_cons, List.not_mem_nil, or_false] at hop
      obtain rfl | rfl | rfl | rfl | rfl | rfl := hop
      · exact ⟨.clear, rfl⟩
      · exact ⟨.count, rfl⟩
      · exact ⟨.build, rfl⟩
      · exact ⟨.decode, rfl⟩
      · exact ⟨.ftser, rfl⟩
      · exact ⟨.ftparse, rfl⟩
    · exact ⟨.encode a, rfl⟩

/-- The opcodes between 0x01 and 0x07 are those of the table (R91). -/
theorem knownOpcode_iff {c : Command} : c.knownOpcode = true ↔
    c.op ∈ ([0x01, 0x02, 0x03, 0x05, 0x06, 0x07] : List Byte) ∨ c.op = 0x04 := by
  simp only [Command.knownOpcode, Bool.and_eq_true, decide_eq_true_eq, BitVec.ofNat_eq_ofNat, List.mem_cons,
    ← BitVec.toNat_inj, BitVec.toNat_ofNat, Nat.reducePow, Nat.one_mod, Nat.reduceMod, List.not_mem_nil, or_false]
  omega

/-- The three checks of R94 pass exactly on the fields of a command. -/
theorem wellFormed_iff {c : Command} : c.wellFormed = true ↔ ∃ i, c = commandOf i := by
  rw [exists_commandOf_iff]
  simp only [Command.wellFormed, Bool.and_eq_true, knownOpcode_iff, Command.reservedClear, Command.appendAllowed,
    beq_iff_eq, Bool.or_eq_true, Bool.not_eq_true']
  tauto

/-- The encoder's words are the eight of R94. -/
theorem exists_encodeCmd_iff {w : Word} : (∃ i, w = encodeCmd i) ↔
    w ∈ ([0x001, 0x002, 0x003, 0x004, 0x104, 0x005, 0x006, 0x007] : List Word) := by
  constructor
  · rintro ⟨i, rfl⟩
    cases i with
    | encode a => cases a <;> decide
    | _ => decide
  · simp only [List.mem_cons, List.not_mem_nil, or_false]
    rintro (rfl | rfl | rfl | rfl | rfl | rfl | rfl | rfl)
    · exact ⟨.clear, rfl⟩
    · exact ⟨.count, rfl⟩
    · exact ⟨.build, rfl⟩
    · exact ⟨.encode false, rfl⟩
    · exact ⟨.encode true, rfl⟩
    · exact ⟨.decode, rfl⟩
    · exact ⟨.ftser, rfl⟩
    · exact ⟨.ftparse, rfl⟩

/-- A latched word that is no command completes as IllegalCommandError with the word as its detail (R94, R241). -/
theorem runCommand_of_illegal {s : State} (h : ¬ ∃ i, decodeCmd s.cmdlatch = .ok i) :
    runCommand s = .next (s.raise .illegalCommand s.cmdlatch) := by
  unfold runCommand
  cases hd : decodeCmd s.cmdlatch with
  | ok i => exact absurd ⟨i, hd⟩ h
  | error r => rfl

/-- Settles O3: legality by the fields, by the eight words and by the checks is being a command's word; any other word is
accepted and raised. -/
theorem legalWordsAreTheEight : Obligations.LegalWordsAreTheEight := by
  refine fun w => ⟨decodes_iff_splitCommand.trans exists_commandOf_iff,
    (exists_congr fun _ => decodeCmd_eq_ok_iff).trans exists_encodeCmd_iff,
    wellFormed_iff.trans decodes_iff_splitCommand.symm, fun hw s hp => ⟨hostWrite_cmd s hp w, ?_⟩⟩
  have hrun : runCommand (s.accept w) = .next ((s.accept w).raise .illegalCommand w) := runCommand_of_illegal hw
  exact ⟨_, hrun, raise_completedWith _ _ w, (raise_unchanged (s.accept w) .illegalCommand w).1, rfl, rfl⟩

/-! ### Words written out -/

/-- Settles O4: the legal words are the encoder's, and each illegal word fails one check. -/
theorem writtenOutWordsDecodeAsTabled : Obligations.WrittenOutWordsDecodeAsTabled :=
  ⟨decodeCmd_encodeCmd .clear, decodeCmd_encodeCmd .count, decodeCmd_encodeCmd .build,
    decodeCmd_encodeCmd (.encode false), decodeCmd_encodeCmd (.encode true), decodeCmd_encodeCmd .decode,
    decodeCmd_encodeCmd .ftser, decodeCmd_encodeCmd .ftparse, by decide, by decide, by decide, by decide⟩

end Sys2Proof.Machine
end

section
/-! COUNT (40_frequency_table.md R120 to R122): the table it stores is the first-occurrence table of the window, and the
model BUILD makes of that table has a codeword for every symbol of the window. -/

namespace Sys2Proof.Machine

variable {s : State}

/-! ### The state COUNT leaves -/

/-- What COUNT leaves of a state with a legal window (R120). -/
def State.counted (s : State) : State := (s.storeTable (countTable s.window)).complete

theorem exec_count (hw : s.windowLegal = true) : exec .count s = .next s.counted := execCount_ok s hw

@[simp] theorem counted_table (s : State) : s.counted.table = countTable s.window :=
  table_storeTable s _ (length_countTable_le _)

theorem counted_nsym (s : State) : s.counted.nsym.toNat = (countTable s.window).length := by
  rw [← length_table, counted_table]

theorem length_window_lt (s : State) : s.window.length < 2 ^ 32 := length_window s ▸ windowLength_lt s

/-- Settles O30: the stored table obeys the laws of counting, and an illegal window is an error entry. -/
theorem countBuildsTheFirstOccurrenceTable : Obligations.CountBuildsTheFirstOccurrenceTable := by
  intro s
  constructor
  · intro hw
    refine ⟨s.counted, exec_count hw, ⟨rfl, rfl, rfl, rfl, rfl⟩, rfl, ?_, ?_, ?_, rfl, fun _ => rfl, fun _ => rfl,
      fun _ => rfl, ⟨rfl, rfl⟩, ⟨rfl, fun _ => rfl⟩, rfl, ⟨rfl, rfl, rfl⟩⟩ <;> rw [counted_table]
    · exact countTable_order s.window
    · exact mem_syms_countTable s.window
    · exact countTable_counts s.window (length_window_lt s)
  · intro hw
    exact ⟨_, exec_of_illegalWindow hw (.inl rfl), raise_completedWith s _ _, raise_unchanged s _ _⟩

/-! ### BUILD and ENCODE after COUNT -/

/-- A counted table has no more entries than the window has symbols (R122 a). -/
theorem length_countTable_le_length (w : List Byte) : (countTable w).length ≤ w.length := by
  have hsub : (countTable w).map FtEntry.sym ⊆ w := fun x => (mem_syms_countTable w x).1
  simpa using ((countTable_nodup w).subperm hsub).length_le

/-- A window whose symbols all have codewords is not reported as holding an unknown symbol (R173). -/
theorem encode_not_unknownSymbol {a : Bool} {t : State} (h : exec (.encode a) s = .next t) (hm : s.mv = true)
    (hw : s.windowLegal = true) (hcodes : ∀ x ∈ s.window, (s.ctAt x).valid = true) :
    t.errcode ≠ HceError.unknownSymbol.code := by
  change execEncode a s = .next t at h
  have hconcat := concatCodes_ok s.ctAt s.inOff.toNat s.window hcodes
  obtain hfit | hlong := le_or_gt (s.encodeBase a + (packStream _).length) s.params.bufBytes
  · rw [execEncode_ok s a hm hw hconcat hfit] at h
    obtain rfl := next_inj h
    show (0 : Byte) ≠ HceError.unknownSymbol.code
    decide
  · rw [execEncode_overflow s a hm hw hconcat hlong] at h
    obtain rfl := next_inj h
    show HceError.range.code ≠ HceError.unknownSymbol.code
    decide

/-- BUILD of a well-formed table that lists the symbols of the window gives each of them a codeword (R149), so ENCODE of
the window knows them all. -/
theorem build_knows_window (hok : TableOk s.table) (hw : s.windowLegal = true)
    (hsyms : ∀ x ∈ s.window, x ∈ s.table.map FtEntry.sym) :
    ∃ u, exec .build s = .next u ∧ CompletedOk u ∧ u.mv = true ∧ (∀ x ∈ s.window, (u.ctAt x).valid = true) ∧
      ∀ a v, exec (.encode a) u = .next v → v.errcode ≠ HceError.unknownSymbol.code := by
  refine ⟨_, execBuild_ok s hok, ⟨rfl, rfl, rfl, rfl, rfl⟩, rfl, ?codes,
    fun _ _ h => encode_not_unknownSymbol h rfl hw ?codes⟩
  intro x hx
  rw [complete_ctAt, ctAt_storeModel]
  exact (ctEntryFor_valid hok x).2 (hsyms x hx)

/-- Settles O32: by the laws of counting the table passes BUILD's checks and lists the symbols of the window. -/
theorem countedTablePassesBuild : Obligations.CountedTablePassesBuild := by
  intro s hw hne
  have hok : TableOk (countTable s.window) := countTable_ok hne (length_window_lt s)
  have hsyms := mem_syms_countTable s.window
  have hbuild := build_knows_window (s := s.counted) (by rwa [counted_table]) hw
    (by rw [counted_table]; exact fun x hx => (hsyms x).2 hx)
  obtain ⟨hpos, hle, hcount, hnodup⟩ := hok
  refine ⟨s.counted, exec_count hw, ⟨rfl, rfl, rfl, rfl, rfl⟩, ?_, ?_, ?_, ?_, ?_, ?_, hbuild⟩ <;>
    simp only [counted_nsym, counted_table]
  · exact hpos
  · exact le_min (length_countTable_le_length s.window) hle
  · exact hnodup
  · exact fun e he => Nat.pos_of_ne_zero (BitVec.toNat_ne.1 (hcount e he))
  · exact countTable_sum s.window (length_window_lt s)
  · exact fun x => (hsyms x).symm.trans List.mem_map

end Sys2Proof.Machine
end

section
/-! BUILD as a function of the table (41_model_builder.md R140, R141, R152, R154): the state it leaves of a well-formed
table, the error it enters on any other, and that equal tables give equal models; with FTSER and FTPARSE (R221, R223,
R228), which carry a table from one engine to another. -/

namespace Sys2Proof.Machine

variable {s : State}

/-! ### The two outcomes of BUILD -/

/-- What BUILD leaves of a state with a well-formed table (R140). -/
def State.built (s : State) : State :=
  (s.storeModel (buildNodes s.table) (ctOf (codesOf (buildNodes s.table) (rootOf s.table))) (rootOf s.table)).complete

theorem exec_build (hok : TableOk s.table) : exec .build s = .next s.built := execBuild_ok s hok

theorem built_completedOk (s : State) : CompletedOk s.built := ⟨rfl, rfl, rfl, rfl, rfl⟩

@[simp] theorem built_mv (s : State) : s.built.mv = true := rfl

@[simp] theorem built_nsym (s : State) : s.built.nsym = s.nsym := rfl

@[simp] theorem built_table (s : State) : s.built.table = s.table := rfl

theorem built_holdsModel (hok : TableOk s.table) : s.built.HoldsModel := (storeModel_holds s hok).complete

theorem exec_build_of_tableFault {e : HceError} {info : Word} (h : tableFault s.nsym.toNat s.table = some (e, info)) :
    exec .build s = .next (s.forgetModel.raise e info) := execBuild_error s h

theorem buildRejects_of_tableFault {e : HceError} {info : Word}
    (h : tableFault s.nsym.toNat s.table = some (e, info)) : BuildRejects s e info :=
  ⟨_, exec_build_of_tableFault h, raise_completedWith _ e info, rfl, ⟨rfl, fun _ => rfl⟩, fun _ => rfl, ⟨rfl, rfl⟩,
    ⟨rfl, fun _ => rfl⟩, rfl, ⟨rfl, rfl, rfl⟩⟩

/-! ### Equal tables -/

theorem nsym_eq_of_table_eq {s1 s2 : State} (h : s1.table = s2.table) : s1.nsym = s2.nsym :=
  BitVec.eq_of_toNat_eq (by rw [← length_table, h, length_table])

/-- Two states that hold a model of the same table hold the same model (R152). -/
theorem State.HoldsModel.unique {s1 s2 : State} (h1 : s1.HoldsModel) (h2 : s2.HoldsModel)
    (htable : s1.table = s2.table) : s1.root = s2.root ∧
      (∀ i, i < 2 * s1.nsym.toNat - 1 → s1.nodeAt i = s2.nodeAt i) ∧ ∀ x, s1.ctAt x = s2.ctAt x := by
  have hnsym := nsym_eq_of_table_eq htable
  obtain ⟨-, hroot1, hnode1, hct1⟩ := h1
  obtain ⟨-, hroot2, hnode2, hct2⟩ := h2
  refine ⟨BitVec.eq_of_toNat_eq (by rw [hroot1, hroot2, hnsym]), fun i hi => ?_, fun x => ?_⟩
  · apply Option.some.inj
    rw [← hnode1 i hi, ← hnode2 i (hnsym ▸ hi), htable]
  · rw [hct1, hct2, htable]

/-- Settles O35: both tables pass the checks, and the model of a table is unique, or both fail the same check. -/
theorem buildIsDeterminedByTheTable : Obligations.BuildIsDeterminedByTheTable := by
  intro s1 s2 t1 t2 htable h1 h2
  have hnsym := nsym_eq_of_table_eq htable
  obtain ⟨hok1, -⟩ | ⟨e, info, hfault⟩ := execBuild_cases s1
  · have hok2 : TableOk s2.table := htable ▸ hok1
    obtain rfl := next_inj (h1.symm.trans (exec_build hok1))
    obtain rfl := next_inj (h2.symm.trans (exec_build hok2))
    exact ⟨rfl, rfl, rfl, rfl, fun _ => (built_holdsModel hok1).unique (built_holdsModel hok2) htable⟩
  · obtain rfl := next_inj (h1.symm.trans (exec_build_of_tableFault hfault))
    rw [hnsym, htable] at hfault
    obtain rfl := next_inj (h2.symm.trans (exec_build_of_tableFault hfault))
    exact ⟨rfl, rfl, rfl, rfl, fun hmv => Bool.noConfusion hmv⟩

/-! ### The checks of BUILD -/

/-- The entries before `i` pass the checks exactly when each of them is accepted (R141). -/
theorem entryFault_map_range (s : State) (i : Nat) :
    entryFault [] 0 ((List.range i).map s.ftEntry) = none ↔ ∀ j, j < i → s.EntryAccepted j := by
  rw [entryFault_none_iff]
  constructor
  · rintro ⟨hcount, hnodup, -⟩ j hj
    refine ⟨hcount _ (List.mem_map_of_mem (List.mem_range.2 hj)), fun m hm heq => ?_⟩
    rw [List.map_map] at hnodup
    have := List.inj_on_of_nodup_map hnodup (List.mem_range.2 (hm.trans hj)) (List.mem_range.2 hj) heq
    omega
  · intro hacc
    refine ⟨?_, ?_, by simp⟩
    · simp only [List.forall_mem_map, List.mem_range]
      exact fun j hj => (hacc j hj).1
    · rw [List.map_map, List.Nodup, List.pairwise_map]
      exact List.pairwise_lt_range.imp_of_mem fun _ hb hab => (hacc _ (List.mem_range.1 hb)).2 _ hab

/-- The table around its entry `i`. -/
theorem table_eq_append {i : Nat} (hi : i < s.nsym.toNat) :
    s.table = (List.range i).map s.ftEntry ++ s.ftEntry i :: s.table.drop (i + 1) := by
  have htake : s.table.take i = (List.range i).map s.ftEntry := by
    rw [State.table, ← List.map_take, List.take_range, min_eq_left hi.le]
  have hget : s.table[i]'(by rwa [length_table]) = s.ftEntry i := by simp [State.table]
  rw [← htake, ← hget, List.getElem_cons_drop, List.take_append_drop]

/-- A table of 1 to 256 entries fails as its first ill-formed entry does (R141). -/
theorem buildRejects_of_entryFault {kind i : Nat} (h1 : 1 ≤ s.nsym.toNat) (h2 : s.nsym.toNat ≤ 256)
    (hi : i < s.nsym.toNat)
    (h : entryFault [] 0 ((List.range i).map s.ftEntry ++ s.ftEntry i :: s.table.drop (i + 1)) =
      some (kind, ((List.range i).map s.ftEntry).length)) :
    BuildRejects s .badTable (badTableInfo kind i) := by
  rw [← table_eq_append hi, List.length_map, List.length_range] at h
  exact buildRejects_of_tableFault (by rw [tableFault, if_neg (by omega), if_neg (by omega), h])

/-- Settles O34: each ill-formed table fails the check that names it, and one whose entries all pass is well-formed. -/
theorem buildRejectsIllFormedTables : Obligations.BuildRejectsIllFormedTables := by
  intro s
  refine ⟨fun h0 => buildRejects_of_tableFault ?_, fun hbig => buildRejects_of_tableFault ?_,
    fun h1 h2 => ⟨fun i hi hacc => ?_, fun hacc => ?_⟩⟩
  · rw [tableFault, if_pos h0]
  · rw [tableFault, if_neg (by omega), if_pos hbig]
    rfl
  · have hpre := (entryFault_map_range s i).2 hacc
    constructor
    · intro hzero
      exact buildRejects_of_entryFault h1 h2 hi (entryFault_zero _ _ _ hpre hzero)
    · rintro hpos ⟨j, hj, hsym⟩
      have hdup : (s.ftEntry i).sym ∈ ((List.range i).map s.ftEntry).map FtEntry.sym :=
        hsym ▸ List.mem_map_of_mem (List.mem_map_of_mem (List.mem_range.2 hj))
      exact buildRejects_of_entryFault h1 h2 hi (entryFault_duplicate _ _ _ hpre hpos hdup)
  · have hnone := (entryFault_map_range s s.nsym.toNat).2 hacc
    obtain ⟨hcount, hnodup, -⟩ := (entryFault_none_iff [] 0 s.table).1 hnone
    have hok : TableOk s.table := ⟨by rwa [length_table], by rwa [length_table], hcount, hnodup⟩
    exact ⟨s.built, exec_build hok, built_completedOk s, rfl⟩

/-! ### A table carried from one engine to another -/

/-- A stored output that fits is what the host reads as the output (R27, R70). -/
theorem outputBytes_storeOutput {y : List Byte} (hfit : y.length ≤ s.params.bufBytes) :
    (s.storeOutput 0 y).complete.outputBytes = y := by
  have hlen : (s.storeOutput 0 y).outLen.toNat = y.length := by
    rw [outLen_storeOutput s 0 y (by omega), Nat.zero_add]
  have hread := map_obufAt_storeOutput s 0 y
  rwa [← List.range_eq_range', ← hlen] at hread

/-- FTSER of a table of at most 256 entries puts out its section: the largest one fits every buffer (R8, R221). -/
theorem outputBytes_of_ftser {t : State} (hn : s.nsym.toNat ≤ 256) (h : exec .ftser s = .next t) :
    t.outputBytes = sectionBytes s.table := by
  obtain rfl := next_inj (h.symm.trans (execFtser_ok s hn))
  refine outputBytes_storeOutput ?_
  have := s.params.sectionFits
  rw [length_sectionBytes, length_table]
  omega

/-- A window whose start moves up loses its first bytes (R69). -/
theorem window_of_advance {u v : State} {n : Nat} (hoff : v.inOff.toNat = u.inOff.toNat + n) (hlen : v.inLen = u.inLen)
    (hibuf : v.ibufAt = u.ibufAt) : v.window = u.window.drop n := by
  rw [State.window, State.window, ← List.map_drop, List.drop_range', State.windowLength, State.windowLength, hoff, hlen,
    hibuf, Nat.mul_one, Nat.sub_sub]

/-- What FTPARSE leaves of a state whose window starts with the section of `t` (R223, R225). -/
def State.parsed (u : State) (t : List FtEntry) : State :=
  ({ u.storeTable t with inOff := BitVec.ofNat 32 (u.inOff.toNat + 2 + 5 * t.length) } : State).complete

section Parsed

variable {u : State} {t : List FtEntry} {stream : List Byte}

theorem windowLength_of_section (hwin : u.window = sectionBytes t ++ stream) :
    u.windowLength = 2 + 5 * t.length + stream.length := by
  rw [← length_window, hwin, List.length_append, length_sectionBytes]

theorem exec_ftparse (ht : t.length ≤ 256) (hw : u.windowLegal = true) (hwin : u.window = sectionBytes t ++ stream) :
    exec .ftparse u = .next (u.parsed t) := by
  have hcount : be16 u.window 0 = t.length := by rw [hwin, be16_sectionBytes t ht]
  have hlen := windowLength_of_section hwin
  have hrun := execFtparse_ok u hw (by omega) (by omega) (by omega)
  rwa [hcount, hwin, parsedTable_sectionBytes] at hrun

theorem parsed_table (ht : t.length ≤ 256) : (u.parsed t).table = t := table_storeTable u t ht

/-- IN_OFF moves past the section and does not wrap, so the window is the stream (R225). -/
theorem parsed_window (hwin : u.window = sectionBytes t ++ stream) : (u.parsed t).window = stream := by
  have hlen := windowLength_of_section hwin
  have hoff : u.inOff.toNat + 2 + 5 * t.length < 2 ^ 32 := by
    have := u.inLen.isLt
    rw [State.windowLength] at hlen
    omega
  have hadvance : (u.parsed t).inOff.toNat = u.inOff.toNat + (2 + 5 * t.length) :=
    (Nat.mod_eq_of_lt hoff).trans (Nat.add_assoc _ _ _)
  rw [window_of_advance hadvance rfl rfl, hwin, ← length_sectionBytes, List.drop_left]

end Parsed

/-- Settles O57: FTSER puts out the section, FTPARSE gives its table back, and BUILD is a function of the table. -/
theorem sectionRoundTrip : Obligations.SectionRoundTrip := by
  intro s t u stream hn hser hw hwin
  rw [outputBytes_of_ftser hn hser] at hwin
  have hlen : s.table.length ≤ 256 := by rwa [length_table]
  have htable : (u.parsed s.table).table = s.table := parsed_table hlen
  refine ⟨u.parsed s.table, exec_ftparse hlen hw hwin, ⟨rfl, rfl, rfl, rfl, rfl⟩, nsym_eq_of_table_eq htable, htable,
    parsed_window hwin, fun b1 b2 h1 h2 => ?_⟩
  obtain ⟨hmv, -, -, -, hmodel⟩ := buildIsDeterminedByTheTable s _ b1 b2 htable.symm h1 h2
  exact ⟨hmv, hmodel⟩

end Sys2Proof.Machine
end

section
/-! The merge and the tree it makes (41_model_builder.md R142 to R146, R153): the two operations of the queue, and the
nodes as the engine reads them in any state that holds a model. -/

namespace Sys2Proof.Machine

/-! ### The queue -/

/-- Settles O36: extract-min succeeds on a non-empty queue and does what its law says. -/
theorem extractMinTakesTheLeastKey : Obligations.ExtractMinTakesTheLeastKey := by
  intro nodes q hne
  obtain ⟨m, q', h⟩ := extractMin_isSome (nodes := nodes) hne
  obtain ⟨hmem, hrest, hleast⟩ := extractMin_spec h
  exact ⟨m, q', h, hmem, hrest, fun j hj hjm => (keyBefore_iff nodes m j).1 (hleast j hj hjm)⟩

/-- Settles O37: a merge step exists from two members on, and its two members are the two extract-min takes in turn. -/
theorem mergeStepJoinsTheTwoLeast : Obligations.MergeStepJoinsTheTwoLeast := by
  intro nodes q hnodup
  refine ⟨fun hlt => mergeStep_none_iff.2 (by omega), fun hle => ?_⟩
  cases hstep : mergeStep nodes q with
  | none =>
    have := mergeStep_none_iff.1 hstep
    omega
  | some p =>
    obtain ⟨nodes', q'⟩ := p
    obtain ⟨a, b, ha, hb, rfl, rfl, hleast, hnext⟩ := mergeStep_spec hstep
    obtain ⟨hba, hbq⟩ := hnodup.mem_erase_iff.1 hb
    refine ⟨a, b, _, ha, hbq, hba.symm, fun j hj hja => (keyBefore_iff nodes a j).1 (hleast j hj hja),
      fun j hj hja hjb => (keyBefore_iff nodes b j).1 (hnext j (hnodup.mem_erase_iff.2 ⟨hja, hj⟩) hjb),
      rfl, ?_, fun j => ?_⟩
    · rw [List.length_append, List.length_singleton, List.length_erase_of_mem hb, List.length_erase_of_mem ha]
      omega
    · rw [List.mem_append, List.mem_singleton, (hnodup.erase a).mem_erase_iff, hnodup.mem_erase_iff]
      tauto

/-! ### The nodes of a held model -/

namespace State.HoldsModel

variable {s : State}

theorem grown (h : s.HoldsModel) : Grown s.table (buildNodes s.table) [rootOf s.table] :=
  buildNodes_grown s.table h.1.1 h.1.2.1

theorem length_nodes (h : s.HoldsModel) : (buildNodes s.table).length = 2 * s.nsym.toNat - 1 := by
  rw [length_buildNodes h.1, length_table]

theorem root_lt (h : s.HoldsModel) : s.root.toNat < (buildNodes s.table).length := by
  rw [h.root]
  exact h.grown.inQueue _ (List.mem_singleton_self _)

theorem nodeAt_leaf (h : s.HoldsModel) {i : Nat} (hi : i < s.nsym.toNat) : s.nodeAt i = leafOf (s.ftEntry i) := by
  have hi' : i < s.table.length := by rwa [length_table]
  have hleaf := h.grown.leaves i hi'
  rw [h.nodes i (by rw [h.length_nodes]; omega)] at hleaf
  rw [Option.some.inj hleaf]
  simp [State.table]

theorem weightAt_eq (h : s.HoldsModel) {i : Nat} (hi : i < (buildNodes s.table).length) :
    weightAt (buildNodes s.table) i = (s.nodeAt i).weight.toNat := by
  rw [weightAt, h.nodes i hi]

/-- A node above the leaves joins two nodes below it, the first in the order of R143 to the left (R145). -/
theorem nodeAt_internal (h : s.HoldsModel) {i : Nat} (hlo : s.nsym.toNat ≤ i) (hhi : i < 2 * s.nsym.toNat - 1) :
    (s.nodeAt i).leaf = false ∧ (s.nodeAt i).sym = 0 ∧ (s.nodeAt i).left.toNat < i ∧ (s.nodeAt i).right.toNat < i ∧
      (s.nodeAt i).weight.toNat = (s.nodeAt (s.nodeAt i).left.toNat).weight.toNat +
        (s.nodeAt (s.nodeAt i).right.toNat).weight.toNat ∧
      keyBefore (buildNodes s.table) (s.nodeAt i).left.toNat (s.nodeAt i).right.toNat = true := by
  have hi : i < (buildNodes s.table).length := h.length_nodes.symm ▸ hhi
  obtain ⟨-, hN⟩ := h.nsym
  obtain ⟨a, b, ha, hb, hkey, hnode, hweight⟩ := h.grown.internals i (by rwa [length_table]) hi
  have hnode : s.nodeAt i = internalOf (buildNodes s.table) a b := Option.some.inj ((h.nodes i hi).symm.trans hnode)
  have hleft : (s.nodeAt i).left.toNat = a := by
    rw [hnode]
    exact Nat.mod_eq_of_lt (by omega)
  have hright : (s.nodeAt i).right.toNat = b := by
    rw [hnode]
    exact Nat.mod_eq_of_lt (by omega)
  rw [h.weightAt_eq hi, h.weightAt_eq (ha.trans hi), h.weightAt_eq (hb.trans hi)] at hweight
  rw [hleft, hright]
  exact ⟨by rw [hnode]; rfl, by rw [hnode]; rfl, ha, hb, hweight, hkey⟩

theorem map_nodeAt (h : s.HoldsModel) : (List.range (2 * s.nsym.toNat - 1)).map s.nodeAt = buildNodes s.table := by
  rw [← h.length_nodes]
  refine List.ext_getElem (by simp) fun i _ hi => ?_
  rw [List.getElem_map, List.getElem_range]
  exact Option.some.inj ((h.nodes i hi).symm.trans (List.getElem?_eq_getElem hi))

/-- Every index but the root's is a child exactly once (R153). -/
theorem childIndices_perm (h : s.HoldsModel) :
    (childIndices ((List.range (2 * s.nsym.toNat - 1)).map s.nodeAt)).Perm (List.range (2 * s.nsym.toNat - 2)) := by
  obtain ⟨hpos, -⟩ := h.nsym
  have hparents := h.grown.parents
  rw [h.length_nodes, show 2 * s.nsym.toNat - 1 = 2 * s.nsym.toNat - 2 + 1 by omega, List.range_succ, rootOf,
    length_table] at hparents
  rw [h.map_nodeAt]
  exact (List.perm_append_right_iff _).1 hparents

theorem weight_root (h : s.HoldsModel) :
    (s.nodeAt s.root.toNat).weight.toNat = (s.table.map (fun e => e.count.toNat)).sum := by
  rw [← h.weightAt_eq h.root_lt, h.root, ← h.grown.weights, List.map_singleton, List.sum_singleton]

end State.HoldsModel

/-- Settles O38: the tree of the held model, node by node. -/
theorem builtTreeIsFull : Obligations.BuiltTreeIsFull := by
  intro s hok
  have h := built_holdsModel hok
  refine ⟨s.built, exec_build hok, built_completedOk s, h.2.1, fun i hi => h.nodeAt_leaf hi, fun i hlo hhi => ?_,
    h.childIndices_perm, h.weight_root⟩
  obtain ⟨hleaf, hsym, hleft, hright, hweight, hkey⟩ := h.nodeAt_internal hlo hhi
  have hi : i < (buildNodes s.table).length := h.length_nodes.symm ▸ hhi
  rw [keyBefore_iff, h.weightAt_eq (hleft.trans hi), h.weightAt_eq (hright.trans hi)] at hkey
  exact ⟨hleaf, hsym, hleft, hright, hweight, hkey⟩

end Sys2Proof.Machine
end

section
/-! Codewords as paths of the tree (41_model_builder.md R147 to R151; 43_decode.md R195 to R197): the codewords below a
node are the bit strings that lead from it to a leaf and meet no leaf before, in the code table, in its inverse and in
the decoder's walk. -/

namespace Sys2Proof.Machine

/-! ### Following a bit string -/

/-- No node on the way from node `i` along `c`, the last one left out, is a leaf. -/
def NoLeafBefore (node : Nat → Node) (i : Nat) (c : Bits) : Prop :=
  ∀ k, k < c.length → (node (follow node i (c.take k))).leaf = false

/-- The child of node `i` that a bit selects (R148). -/
def childOf (node : Nat → Node) (i : Nat) (b : Bool) : Nat := if b then (node i).right.toNat else (node i).left.toNat

section Follow

variable (node : Nat → Node) (i : Nat)

@[simp] theorem follow_nil : follow node i [] = i := rfl

theorem follow_cons (b : Bool) (c : Bits) : follow node i (b :: c) = follow node (childOf node i b) c := rfl

theorem follow_concat (c : Bits) (b : Bool) : follow node i (c ++ [b]) = childOf node (follow node i c) b := by
  induction c generalizing i with
  | nil => rfl
  | cons a c ih => exact ih (childOf node i a)

theorem noLeafBefore_nil : NoLeafBefore node i [] := fun _ hk => absurd hk (Nat.not_lt_zero _)

theorem noLeafBefore_cons (b : Bool) (c : Bits) :
    NoLeafBefore node i (b :: c) ↔ (node i).leaf = false ∧ NoLeafBefore node (childOf node i b) c := by
  constructor
  · intro h
    exact ⟨h 0 (Nat.succ_pos _), fun k hk => h (k + 1) (Nat.succ_lt_succ hk)⟩
  · rintro ⟨hi, h⟩ k hk
    cases k with
    | zero => exact hi
    | succ k => exact h k (Nat.lt_of_succ_lt_succ hk)

theorem noLeafBefore_concat (c : Bits) (b : Bool) :
    NoLeafBefore node i (c ++ [b]) ↔ NoLeafBefore node i c ∧ (node (follow node i c)).leaf = false := by
  induction c generalizing i with
  | nil => simp [noLeafBefore_cons, noLeafBefore_nil]
  | cons a c ih => rw [List.cons_append, noLeafBefore_cons, ih, noLeafBefore_cons, follow_cons, and_assoc]

end Follow

/-! ### The codewords below a node -/

section Paths

variable {nodes : List Node} {node : Nat → Node}

theorem childOf_lt (hc : Closed nodes) (hh : Holds node nodes) {i : Nat} (hi : i < nodes.length)
    (hleaf : (node i).leaf = false) (b : Bool) : childOf node i b < i := by
  obtain ⟨hleft, hright⟩ := hc i (node i) (hh i hi) hleaf
  cases b with
  | false => exact hleft
  | true => exact hright

/-- A bit string that meets no leaf leads down. -/
theorem follow_add_length_le (hc : Closed nodes) (hh : Holds node nodes) {i : Nat} (hi : i < nodes.length) {c : Bits}
    (h : NoLeafBefore node i c) : follow node i c + c.length ≤ i := by
  induction c generalizing i with
  | nil => exact le_refl i
  | cons b c ih =>
    obtain ⟨hleaf, hrest⟩ := (noLeafBefore_cons node i b c).1 h
    have hlt := childOf_lt hc hh hi hleaf b
    have := ih (hlt.trans hi) hrest
    rw [follow_cons, List.length_cons]
    omega

/-- A codeword below a node is a way that meets no leaf, followed by a codeword below the node it leads to (R148). -/
theorem mem_codesAt_append (hc : Closed nodes) (hh : Holds node nodes) {i : Nat} (hi : i < nodes.length) (x : Byte)
    (c d : Bits) :
    (x, c ++ d) ∈ codesAt nodes i ↔ NoLeafBefore node i c ∧ (x, d) ∈ codesAt nodes (follow node i c) := by
  induction c generalizing i with
  | nil => simp [noLeafBefore_nil]
  | cons b c ih =>
    rw [List.cons_append, mem_codesAt_cons hc (hh i hi), noLeafBefore_cons, and_assoc]
    exact and_congr_right fun hleaf => ih ((childOf_lt hc hh hi hleaf b).trans hi)

/-- The codewords below a node are the ways to the leaves below it (R148). -/
theorem mem_codesAt_iff_follow (hc : Closed nodes) (hh : Holds node nodes) {i : Nat} (hi : i < nodes.length) (x : Byte)
    (c : Bits) : (x, c) ∈ codesAt nodes i ↔
      (node (follow node i c)).leaf = true ∧ (node (follow node i c)).sym = x ∧ NoLeafBefore node i c := by
  rw [← List.append_nil c, mem_codesAt_append hc hh hi, List.append_nil, ← and_assoc, and_comm]
  refine and_congr_left fun hway => ?_
  have hlt := follow_add_length_le hc hh hi hway
  exact mem_codesAt_nil hc (hh _ (by omega)) x

/-- The walk and the scan in step (R195, R196): the cursor is where the accumulator leads, past no leaf. -/
theorem walk_follow_eq_scan {root : Nat} {inv : Bits → Option Byte} (hroot : (node root).leaf = false)
    (hinv : ∀ c x, inv c = some x ↔ (node (follow node root c)).leaf = true ∧ (node (follow node root c)).sym = x ∧
      NoLeafBefore node root c)
    (data acc : Bits) (hacc : NoLeafBefore node root acc) (hcur : (node (follow node root acc)).leaf = false) :
    walk node root (follow node root acc) data =
        ((scan inv acc data).1, follow node root (scan inv acc data).2) ∧
      NoLeafBefore node root (scan inv acc data).2 ∧ (node (follow node root (scan inv acc data).2)).leaf = false := by
  induction data generalizing acc with
  | nil => exact ⟨rfl, hacc, hcur⟩
  | cons b data ih =>
    have hway := (noLeafBefore_concat node root acc b).2 ⟨hacc, hcur⟩
    have hwalk : walk node root (follow node root acc) (b :: data) =
        if (node (follow node root (acc ++ [b]))).leaf then
          ((node (follow node root (acc ++ [b]))).sym :: (walk node root root data).1, (walk node root root data).2)
        else walk node root (follow node root (acc ++ [b])) data := by
      rw [follow_concat]
      rfl
    cases hleaf : (node (follow node root (acc ++ [b]))).leaf with
    | true =>
      have hsome := (hinv (acc ++ [b]) _).2 ⟨hleaf, rfl, hway⟩
      obtain ⟨hrest, hend⟩ := ih [] (noLeafBefore_nil node root) hroot
      rw [follow_nil] at hrest
      rw [hwalk, hleaf, if_pos rfl, hrest]
      simp only [scan, hsome]
      exact ⟨trivial, hend⟩
    | false =>
      have hnone : inv (acc ++ [b]) = none := by
        rw [Option.eq_none_iff_forall_ne_some]
        intro x hx
        have := ((hinv _ x).1 hx).1
        rw [hleaf] at this
        exact Bool.noConfusion this
      rw [hwalk, hleaf, if_neg Bool.false_ne_true]
      simp only [scan, hnone]
      exact ih (acc ++ [b]) hway hleaf

end Paths

/-! ### The codes of a held model -/

namespace State.HoldsModel

variable {s : State}

/-- The valid entries of the code table are the derived codewords (R149). -/
theorem codeword_iff_build (h : s.HoldsModel) (x : Byte) (c : Bits) :
    ((s.ctAt x).valid = true ∧ (s.ctAt x).code = c) ↔ (x, c) ∈ buildCodes s.table := by
  rw [h.2.2.2 x]
  exact ctEntryFor_iff h.1 x c

theorem codeword_iff_codesAt (h : s.HoldsModel) (x : Byte) (c : Bits) :
    ((s.ctAt x).valid = true ∧ (s.ctAt x).code = c) ↔ (x, c) ∈ codesAt (buildNodes s.table) s.root.toNat := by
  rw [h.codeword_iff_build, buildCodes_eq h.1, h.root]

/-- The codeword of a symbol is the way from the root to its leaf (R149). -/
theorem codeword_iff_follow (h : s.HoldsModel) (x : Byte) (c : Bits) :
    ((s.ctAt x).valid = true ∧ (s.ctAt x).code = c) ↔
      (s.nodeAt (follow s.nodeAt s.root.toNat c)).leaf = true ∧
        (s.nodeAt (follow s.nodeAt s.root.toNat c)).sym = x ∧ NoLeafBefore s.nodeAt s.root.toNat c :=
  (h.codeword_iff_codesAt x c).trans (mem_codesAt_iff_follow h.grown.closed h.nodes h.root_lt x c)

theorem mem_buildCodes (h : s.HoldsModel) {x : Byte} (hx : (s.ctAt x).valid = true) :
    (x, (s.ctAt x).code) ∈ buildCodes s.table := (h.codeword_iff_build x _).1 ⟨hx, rfl⟩

/-- No codeword begins with another symbol's (R151). -/
theorem prefix_free (h : s.HoldsModel) {x y : Byte} (hxy : x ≠ y) (hx : (s.ctAt x).valid = true)
    (hy : (s.ctAt y).valid = true) : ¬ (s.ctAt x).code <+: (s.ctAt y).code :=
  buildCodes_prefix_free h.1 hxy (h.mem_buildCodes hx) (h.mem_buildCodes hy)

theorem inverseCode_iff (h : s.HoldsModel) (c : Bits) (x : Byte) :
    inverseCode s.ctAt c = some x ↔ (s.ctAt x).valid = true ∧ (s.ctAt x).code = c := by
  refine Machine.inverseCode_iff s.ctAt (fun x y hx hy heq => ?_) c x
  by_contra hxy
  exact h.prefix_free hxy hx hy (heq ▸ List.prefix_rfl)

theorem code_length_lt (h : s.HoldsModel) {x : Byte} (hx : (s.ctAt x).valid = true) :
    (s.ctAt x).code.length < s.nsym.toNat := by
  have := buildCodes_length h.1 (h.mem_buildCodes hx)
  rwa [length_table] at this

theorem valid_iff (h : s.HoldsModel) (x : Byte) : (s.ctAt x).valid = true ↔ x ∈ s.table.map FtEntry.sym := by
  rw [h.2.2.2 x]
  exact ctEntryFor_valid h.1 x

theorem ctAt_of_invalid (h : s.HoldsModel) {x : Byte} (hx : (s.ctAt x).valid = false) : s.ctAt x = ⟨false, []⟩ := by
  rw [h.2.2.2 x] at hx ⊢
  unfold ctEntryFor at hx ⊢
  cases hc : codeFor (buildCodes s.table) x with
  | none => rfl
  | some c =>
    rw [hc] at hx
    exact Bool.noConfusion hx

/-- With two or more entries the root is an internal node (R151). -/
theorem root_not_leaf (h : s.HoldsModel) (h2 : 2 ≤ s.nsym.toNat) : (s.nodeAt s.root.toNat).leaf = false := by
  obtain ⟨e, he, hleaf⟩ := root_internal h.1 (by rwa [length_table])
  rw [← h.root, h.nodes _ h.root_lt] at he
  obtain rfl := Option.some.inj he
  exact hleaf

theorem code_ne_nil (h : s.HoldsModel) (h2 : 2 ≤ s.nsym.toNat) {x : Byte} (hx : (s.ctAt x).valid = true) :
    (s.ctAt x).code ≠ [] := by
  intro hnil
  have hleaf := ((h.codeword_iff_follow x []).1 ⟨hx, hnil⟩).1
  rw [follow_nil, h.root_not_leaf h2] at hleaf
  exact Bool.noConfusion hleaf

/-- As many symbols have codewords as the table has entries (R149). -/
theorem count_valid (h : s.HoldsModel) :
    ((List.range 256).filter (fun n => (s.ctAt (BitVec.ofNat 8 n)).valid)).length = s.nsym.toNat := by
  have hsyms : ((s.table.map FtEntry.sym).map BitVec.toNat).Nodup :=
    h.1.2.2.2.map fun _ _ => BitVec.eq_of_toNat_eq
  have hperm : ((List.range 256).filter fun n => (s.ctAt (BitVec.ofNat 8 n)).valid).Perm
      ((s.table.map FtEntry.sym).map BitVec.toNat) := by
    rw [List.perm_ext_iff_of_nodup (List.nodup_range.filter _) hsyms]
    intro n
    rw [List.mem_filter, List.mem_range, h.valid_iff, List.mem_map (f := BitVec.toNat)]
    constructor
    · rintro ⟨hn, hmem⟩
      exact ⟨_, hmem, BitVec.toNat_ofNat n 8 ▸ Nat.mod_eq_of_lt hn⟩
    · rintro ⟨x, hmem, rfl⟩
      exact ⟨x.isLt, by rwa [BitVec.ofNat_toNat, BitVec.setWidth_eq]⟩
  rw [hperm.length_eq, List.length_map, List.length_map, length_table]

/-- A way from the root that meets no leaf, its end included, is the start of a longer codeword (R197). -/
theorem exists_longer_code (h : s.HoldsModel) {c : Bits} (hway : NoLeafBefore s.nodeAt s.root.toNat c)
    (hend : (s.nodeAt (follow s.nodeAt s.root.toNat c)).leaf = false) :
    ∃ x, (s.ctAt x).valid = true ∧ c <+: (s.ctAt x).code ∧ c ≠ (s.ctAt x).code := by
  have hle := follow_add_length_le h.grown.closed h.nodes h.root_lt hway
  have hroot := h.root_lt
  obtain ⟨⟨x, d⟩, hmem⟩ :=
    List.exists_mem_of_ne_nil _ (h.grown.codesAt_ne_nil (follow s.nodeAt s.root.toNat c) (by omega))
  obtain ⟨hx, hcode⟩ := (h.codeword_iff_codesAt x (c ++ d)).2
    ((mem_codesAt_append h.grown.closed h.nodes hroot x c d).2 ⟨hway, hmem⟩)
  refine ⟨x, hx, hcode ▸ List.prefix_append c d, fun heq => ?_⟩
  have hleaf := ((h.codeword_iff_follow x c).1 ⟨hx, heq.symm⟩).1
  rw [hend] at hleaf
  exact Bool.noConfusion hleaf

end State.HoldsModel

/-! ### The claims about the codes -/

/-- Settles O39: the model BUILD leaves is held, and in a held model no codeword begins with another. -/
theorem builtCodeIsPrefixFree : Obligations.BuiltCodeIsPrefixFree := by
  intro s hok
  have h := built_holdsModel hok
  refine ⟨s.built, exec_build hok, built_completedOk s, rfl, fun x y hxy hx hy => h.prefix_free hxy hx hy,
    fun h1 x hx => ?_, fun h2 x hx => List.length_pos_iff.2 (h.code_ne_nil h2 hx)⟩
  have := h.code_length_lt hx
  rw [built_nsym, h1] at this
  exact List.length_eq_zero_iff.1 (by omega)

/-- Settles O40: the code table of the held model, each codeword the way to its leaf. -/
theorem codeTableIsTheLeafPaths : Obligations.CodeTableIsTheLeafPaths := by
  intro s hok
  have h := built_holdsModel hok
  refine ⟨s.built, exec_build hok, built_completedOk s, h.valid_iff, fun x hx => by rw [h.ctAt_of_invalid hx],
    h.count_valid, fun x hx => ⟨Nat.le_sub_one_of_lt (h.code_length_lt hx), ?_⟩⟩
  exact (h.codeword_iff_follow x _).1 ⟨hx, rfl⟩

/-- Settles O41: no two symbols share a codeword, and a codeword is the way to the leaf of its symbol. -/
theorem inverseCodeFollowsTheTree : Obligations.InverseCodeFollowsTheTree := by
  intro s h c x
  exact ⟨h.inverseCode_iff c x, (h.inverseCode_iff c x).trans (h.codeword_iff_follow x c)⟩

theorem statusWord_degen (s : State) : s.statusWord.getLsbD 4 = s.degen := by
  rw [statusWord_getLsbD]
  rfl

/-- Settles O42: with one entry the root is the only leaf, and a codeword shorter than the table is empty. -/
theorem singleEntryModelIsDegenerate : Obligations.SingleEntryModelIsDegenerate := by
  intro s h1 hcount
  have htable : s.table = [s.ftEntry 0] := by rw [State.table, h1]; rfl
  have hok : TableOk s.table := by rw [htable]; simpa [TableOk] using hcount
  have h := built_holdsModel hok
  have hvalid : ∀ x, (s.built.ctAt x).valid = true ↔ x = (s.ftEntry 0).sym := by
    intro x
    rw [h.valid_iff, built_table, htable, List.map_singleton, List.mem_singleton]
  have hdegen : s.built.degen = true := (h.degen rfl).2 h1
  have hcode : s.built.ctAt (s.ftEntry 0).sym = ⟨true, []⟩ := by
    have hv := (hvalid _).2 rfl
    have hlen := h.code_length_lt hv
    rw [built_nsym, h1] at hlen
    have hnil : (s.built.ctAt (s.ftEntry 0).sym).code = [] := List.length_eq_zero_iff.1 (by omega)
    rw [← hv, ← hnil]
  refine ⟨s.built, exec_build hok, built_completedOk s, rfl, ?_, hdegen, (statusWord_degen _).trans hdegen,
    h.nodeAt_leaf (i := 0) (by rw [built_nsym]; omega), hcode, by rw [hcode]; rfl, fun x hx => h.ctAt_of_invalid ?_⟩
  · have hroot := h.2.1
    rw [built_nsym, h1] at hroot
    exact BitVec.eq_of_toNat_eq hroot
  · exact Bool.eq_false_iff.2 fun hv => hx ((hvalid x).1 hv)

/-- Settles O48: the walk and the scan run in step from the root, and the accumulator stops short of a leaf. -/
theorem treeWalkComputesTheScan : Obligations.TreeWalkComputesTheScan := by
  intro s data acc out h h2 hscan
  obtain ⟨hwalk, hway, hend⟩ := walk_follow_eq_scan (h.root_not_leaf h2)
    (fun c x => (h.inverseCode_iff c x).trans (h.codeword_iff_follow x c)) data []
    (noLeafBefore_nil _ _) (h.root_not_leaf h2)
  simp only [hscan] at hwalk hway hend
  obtain ⟨x, hx, hprefix, hne⟩ := h.exists_longer_code hway hend
  refine ⟨hwalk, ⟨fun hnil => hnil ▸ rfl, fun hroot => ?_⟩, ?_, x, hx, hprefix, hne⟩
  · have := follow_add_length_le h.grown.closed h.nodes h.root_lt hway
    rw [hroot] at this
    exact List.length_eq_zero_iff.1 (by omega)
  · have hlt : acc.length < (s.ctAt x).code.length :=
      lt_of_le_of_ne hprefix.length_le fun hlen => hne (hprefix.eq_of_length hlen)
    have hcode := h.code_length_lt hx
    obtain ⟨-, hN⟩ := h.nsym
    omega

end Sys2Proof.Machine
end

section
/-! ENCODE of a window with a symbol that has no codeword, and the packed stream's own laws (42_encode.md R173 to R178):
the window splits at the first such symbol, and the padding is what the last byte ends in. -/

namespace Sys2Proof.Machine

/-! ### The first symbol without a codeword (R173) -/

/-- A window is what stands before one of its indices, the symbol there, and the rest (R69). -/
theorem window_split (s : State) {k : Nat} (hk : s.inOff.toNat ≤ k) (hlt : k < s.inLen.toNat) :
    s.window = (List.range' s.inOff.toNat (k - s.inOff.toNat)).map s.ibufAt ++
      s.ibufAt k :: (List.range' (k + 1) (s.inLen.toNat - (k + 1))).map s.ibufAt := by
  have hlen : s.windowLength = (k - s.inOff.toNat) + (s.inLen.toNat - (k + 1) + 1) := by
    unfold State.windowLength
    omega
  rw [State.window, hlen, ← List.range'_append_1, Nat.add_sub_cancel' hk, List.range'_succ, List.map_append, List.map_cons]

/-- Settles O44: split at `k`, the window fails to concatenate there, and ENCODE looks at no length before that. -/
theorem encodeReportsTheFirstUnknownSymbol : Obligations.EncodeReportsTheFirstUnknownSymbol := by
  intro s a k hm hw hk hlt hunknown hknown
  have hbefore : ∀ x ∈ (List.range' s.inOff.toNat (k - s.inOff.toNat)).map s.ibufAt, (s.ctAt x).valid = true := by
    simp only [List.forall_mem_map, List.mem_range'_1]
    intro j ⟨hj, hjk⟩
    exact hknown j hj (by omega)
  have hconcat : concatCodes s.ctAt s.inOff.toNat s.window = .error k := by
    rw [window_split s hk hlt, concatCodes_error _ _ _ _ _ hbefore hunknown, List.length_map, List.length_range',
      Nat.add_sub_cancel' hk]
  exact encodeFails_of_cut (execEncode_unknown s a hm hw hconcat)

/-! ### The packed stream (R174 to R178) -/

/-- Read from its end, `bits8` gives the bits of a byte from the least significant (R10). -/
theorem getElem?_reverse_bits8 (b : Byte) {k : Nat} (hk : k < 8) : (bits8 b).reverse[k]? = some (b.getLsbD k) := by
  interval_cases k <;> rfl

/-- Bytes whose bits end in at most eight zeros have those zeros at the low end of the last byte (R175). -/
theorem getLsbD_last_of_bitsOf_eq {w : List Byte} {last : Byte} {d : Bits} {p k : Nat}
    (h : bitsOf (w ++ [last]) = d ++ zeros p) (hp : p ≤ 8) (hk : k < p) : last.getLsbD k = false := by
  have hrev : (bits8 last).reverse ++ (bitsOf w).reverse = zeros p ++ d.reverse := by
    have := congrArg List.reverse h
    simpa [bitsOf, zeros] using this
  have hbit : ((bits8 last).reverse ++ (bitsOf w).reverse)[k]? = some (last.getLsbD k) := by
    rw [List.getElem?_append_left (by simp; omega), getElem?_reverse_bits8 last (by omega)]
  rw [hrev, List.getElem?_append_left (by simpa using hk), zeros, List.getElem?_replicate_of_lt hk] at hbit
  exact (Option.some.inj hbit).symm

/-- Settles O47: the stream is the header and the bytes of bits and padding, so the padding is the end of its last byte. -/
theorem packedStreamLaw : Obligations.PackedStreamLaw := by
  intro d
  obtain ⟨body, hstream, hlen, hbits⟩ := packStream_spec d
  obtain ⟨hheader, -, hdata⟩ := dataBits_packStream d hstream
  obtain rfl | ⟨init, last, rfl⟩ := body.eq_nil_or_concat'
  · rw [List.length_nil] at hlen
    omega
  have hlow : ∀ k, k < padCount d.length → last.getLsbD k = false := fun _ =>
    getLsbD_last_of_bitsOf_eq hbits (padCount_spec d.length).2.1
  refine ⟨length_packStream d, ?_, _, _, hstream, hheader, hbits, hdata, last, ?_, hlow, fun hwhole => ?_⟩
  · rw [length_packStream]
    omega
  · rw [hstream, ← List.cons_append, List.getLast?_append_of_ne_nil _ (by simp), List.getLast?_singleton]
  · refine BitVec.eq_of_getLsbD_eq fun k hk => ?_
    exact (hlow k (by unfold padCount; omega)).trans BitVec.getLsbD_zero.symm

end Sys2Proof.Machine
end

section
/-! DECODE (43_decode.md R190 to R204): what it answers on the general and on the degenerate path, and that it reads back
what ENCODE wrote. -/

namespace Sys2Proof.Machine

/-! ### The two ends of DECODE (R199, R203) -/

/-- What a DECODE that delivers `out` leaves (R199). -/
def State.decoded (s : State) (out : List Byte) : State := (s.storeOutput 0 out).complete

theorem decoded_completedOk (s : State) (out : List Byte) : CompletedOk (s.decoded out) := ⟨rfl, rfl, rfl, rfl, rfl⟩

theorem decoded_frame (s : State) (out : List Byte) :
    SameTable s (s.decoded out) ∧ SameModel s (s.decoded out) ∧ SameInput s (s.decoded out) ∧
      SameWindow s (s.decoded out) ∧ (s.decoded out).seqLen = s.seqLen ∧ SameSurroundings s (s.decoded out) :=
  ⟨⟨rfl, fun _ => rfl⟩, ⟨rfl, rfl, fun _ => rfl, fun _ => rfl⟩, fun _ => rfl, ⟨rfl, rfl⟩, rfl, ⟨rfl, rfl, rfl⟩⟩

theorem outputBytes_decoded {s : State} {out : List Byte} (hfit : out.length ≤ s.params.bufBytes) :
    (s.decoded out).outputBytes = out := outputBytes_storeOutput hfit

/-- A DECODE that empties the output and enters an error leaves what R262 says. -/
theorem decodeFails_of_cut {s : State} {e : HceError} {info : Word}
    (h : execDecode s = .next ((s.storeOutput 0 []).raise e info)) : DecodeFails s e info :=
  ⟨_, h, raise_completedWith _ e info, rfl, ⟨rfl, fun _ => rfl⟩, ⟨rfl, rfl, fun _ => rfl, fun _ => rfl⟩, fun _ => rfl,
    ⟨rfl, rfl⟩, rfl, ⟨rfl, rfl, rfl⟩⟩

/-! ### The general path (R195 to R197) -/

section General

variable {s : State} {data : Bits} {out : List Byte}

theorem decodeWalk_ok (hwalk : walk s.nodeAt s.root.toNat s.root.toNat data = (out, s.root.toNat))
    (hfit : out.length ≤ s.params.bufBytes) : s.decodeWalk data = .next (s.decoded out) := by
  simp only [State.decodeWalk, hwalk, ne_eq, not_true_eq_false, if_false, Nat.not_lt.2 hfit]
  rfl

theorem decodeWalk_overflow (hwalk : walk s.nodeAt s.root.toNat s.root.toNat data = (out, s.root.toNat))
    (hlong : s.params.bufBytes < out.length) : s.decodeWalk data = .next ((s.storeOutput 0 []).raise .range 2) := by
  simp only [State.decodeWalk, hwalk, ne_eq, not_true_eq_false, if_false, hlong, if_true]
  rfl

/-- Where the scan ends with an empty accumulator the walk ends at the root, with the same symbols (R196, R197). -/
theorem walk_of_scan (h : s.HoldsModel) (h2 : 2 ≤ s.nsym.toNat) (hend : (scan (inverseCode s.ctAt) [] data).2 = []) :
    walk s.nodeAt s.root.toNat s.root.toNat data = ((scan (inverseCode s.ctAt) [] data).1, s.root.toNat) := by
  obtain ⟨hsyms, hcursor⟩ := scan_eq_walk_of_holds s h h2 data
  exact Prod.ext hsyms.symm (hcursor.1 hend)

theorem State.HoldsModel.not_degen (h : s.HoldsModel) (hm : s.mv = true) (h2 : 2 ≤ s.nsym.toNat) : s.degen = false := by
  rw [Bool.eq_false_iff, ne_eq, h.degen hm]
  omega

end General

/-- Settles O49: the walk delivers the symbols of the scan, and they fit. -/
theorem decodeDeliversTheScannedSymbols : Obligations.DecodeDeliversTheScannedSymbols := by
  intro s header body hm h h2 hw hwin hp hend hfit
  have hexec := execDecode_walk s hm hw hwin hp (h.not_degen hm h2)
  exact ⟨_, hexec.trans (decodeWalk_ok (walk_of_scan h h2 hend) hfit), decoded_completedOk s _, outputBytes_decoded hfit,
    decoded_frame s _⟩

/-! ### The degenerate path (R198) -/

section Degenerate

variable {s : State} {header : Byte} {body : List Byte}

theorem decodeDegenerate_ok (hfit : s.seqLen.toNat ≤ s.params.bufBytes) :
    s.decodeDegenerate [] = .next (s.decoded (List.replicate s.seqLen.toNat (s.nodeAt 0).sym)) := by
  simp only [State.decodeDegenerate, ne_eq, not_true_eq_false, if_false, Nat.not_lt.2 hfit]
  rfl

theorem decodeDegenerate_overflow (hlong : s.params.bufBytes < s.seqLen.toNat) :
    s.decodeDegenerate [] = .next ((s.storeOutput 0 []).raise .range 2) := by
  simp only [State.decodeDegenerate, ne_eq, not_true_eq_false, if_false, hlong, if_true]
  rfl

/-- A body that is all padding holds no data (R193). -/
theorem dataBits_of_all_padding {p : Nat} (hp : p = 8 * body.length) : dataBits body p = [] := by
  rw [dataBits, hp, Nat.sub_self, List.take_zero]

theorem execDecode_degenerate_padding (hm : s.mv = true) (hw : s.windowLegal = true) (hwin : s.window = header :: body)
    (hp : header.toNat = 8 * body.length) (hd : s.degen = true) : execDecode s = s.decodeDegenerate [] := by
  rw [execDecode_degenerate s hm hw hwin hp.le hd, dataBits_of_all_padding hp]

end Degenerate

/-- Settles O51: no data bits are left, and SEQ_LEN copies fit. -/
theorem degenerateDecodeRepeatsTheSymbol : Obligations.DegenerateDecodeRepeatsTheSymbol := by
  intro s header body hm hroot hw hwin hp hfit
  have hd : s.degen = true := by rw [State.degen, hm, hroot]; rfl
  have hexec := execDecode_degenerate_padding hm hw hwin hp hd
  refine ⟨_, hexec.trans (decodeDegenerate_ok hfit), decoded_completedOk s _, outputBytes_decoded ?_, ?_,
    decoded_frame s _⟩
  · rwa [List.length_replicate]
  · simp [State.decoded]

/-- Settles O52: on either path the malformed-stream checks pass, and the output is longer than OBUF. -/
theorem decodeOverflowIsRangeError : Obligations.DecodeOverflowIsRangeError := by
  intro s header body hm hw hwin
  constructor
  · intro hp h h2 hend hlong
    have hexec := execDecode_walk s hm hw hwin hp (h.not_degen hm h2)
    exact decodeFails_of_cut (hexec.trans (decodeWalk_overflow (walk_of_scan h h2 hend) hlong))
  · intro hp hd hlong
    exact decodeFails_of_cut ((execDecode_degenerate_padding hm hw hwin hp hd).trans (decodeDegenerate_overflow hlong))

/-! ### What ENCODE wrote (R204) -/

/-- What a stored output adds is what stands behind its base (R27, R70). -/
theorem drop_outputBytes_storeOutput {s : State} {base : Nat} {y : List Byte}
    (hfit : base + y.length ≤ s.params.bufBytes) : (s.storeOutput base y).outputBytes.drop base = y := by
  rw [State.outputBytes, outLen_storeOutput s base y hfit, ← List.map_drop, List.range_eq_range', List.drop_range',
    Nat.add_sub_cancel_left, Nat.mul_one, Nat.zero_add, map_obufAt_storeOutput]

/-- Only a window whose symbols all have codewords concatenates (R173). -/
theorem valid_of_concatCodes {ct : Byte → CtEntry} {w : List Byte} {k : Nat} {d : Bits}
    (h : concatCodes ct k w = .ok d) : ∀ x ∈ w, (ct x).valid = true := by
  induction w generalizing k d with
  | nil => simp
  | cons y w ih =>
    cases hy : (ct y).valid with
    | false => simp [concatCodes, hy] at h
    | true =>
      cases hrest : concatCodes ct (k + 1) w with
      | error j => simp [concatCodes, hy, hrest] at h
      | ok d' => exact List.forall_mem_cons.2 ⟨hy, ih hrest⟩

/-- An ENCODE without error wrote the packed stream of its window's codewords behind the base, and the window's length to
SEQ_LEN (R170, R172, R177). -/
theorem encode_without_error {s t : State} {a : Bool} (h : exec (.encode a) s = .next t) (herr : t.err = false) :
    s.windowLegal = true ∧ t.seqLen.toNat = s.window.length ∧
      ∃ d, concatCodes s.ctAt s.inOff.toNat s.window = .ok d ∧ t.outputBytes.drop (s.encodeBase a) = packStream d := by
  cases exec_result h with
  | encodeNoModel | encodeRange | encodeUnknown | encodeOverflow => exact absurd herr Bool.noConfusion
  | encodeOk a d _ hw hconcat hfit =>
    refine ⟨hw, ?_, d, hconcat, drop_outputBytes_storeOutput hfit⟩
    rw [length_window]
    exact Nat.mod_eq_of_lt (windowLength_lt s)

namespace State.HoldsModel

variable {s u : State}

/-- What holds the model depends on how FT, NSYM, NODE, CT and ROOT read. -/
theorem of_same (h : s.HoldsModel) (htable : SameTable s u) (hmodel : SameModel s u) : u.HoldsModel := by
  obtain ⟨hnsym, hentry⟩ := htable
  obtain ⟨-, hroot, hnode, hct⟩ := hmodel
  have ht : u.table = s.table := by rw [State.table, State.table, hnsym, funext hentry]
  obtain ⟨hok, hr, hn, hc⟩ := h
  refine ⟨by rwa [ht], by rwa [hroot, hnsym], fun i hi => ?_, fun x => ?_⟩
  · rw [ht, hnode]
    exact hn i (hnsym ▸ hi)
  · rw [ht, hct]
    exact hc x

/-- In a model of one entry the one symbol with a codeword is that of NODE[0], and its codeword is empty (R147). -/
theorem eq_sym_of_single (h : s.HoldsModel) (h1 : s.nsym.toNat = 1) {x : Byte} (hx : (s.ctAt x).valid = true) :
    x = (s.nodeAt 0).sym ∧ (s.ctAt x).code = [] := by
  have hnil : (s.ctAt x).code = [] := by
    have := h.code_length_lt hx
    exact List.length_eq_zero_iff.1 (by omega)
  have hroot : s.root.toNat = 0 := by rw [h.2.1, h1]
  obtain ⟨-, hsym, -⟩ := (h.codeword_iff_follow x []).1 ⟨hx, hnil⟩
  rw [follow_nil, hroot] at hsym
  exact ⟨hsym.symm, hnil⟩

/-- A window that concatenates under a model of one entry repeats the one symbol and makes no bits (R147, R172). -/
theorem window_of_single (h : s.HoldsModel) (h1 : s.nsym.toNat = 1) {w : List Byte} {k : Nat} {d : Bits}
    (hconcat : concatCodes s.ctAt k w = .ok d) : w = List.replicate w.length (s.nodeAt 0).sym ∧ d = [] := by
  have hvalid := valid_of_concatCodes hconcat
  refine ⟨List.eq_replicate_of_mem fun x hx => (h.eq_sym_of_single h1 (hvalid x hx)).1, ?_⟩
  rw [concatCodes_ok _ _ _ hvalid, Except.ok.injEq] at hconcat
  rw [← hconcat, List.flatMap_eq_nil_iff]
  exact fun x hx => (h.eq_sym_of_single h1 (hvalid x hx)).2

/-- DECODE of the packed stream of `w`, with the length of `w` in SEQ_LEN, delivers `w`, by either path (R204). -/
theorem execDecode_packStream (h : s.HoldsModel) (hm : s.mv = true) (hw : s.windowLegal = true) {w : List Byte} {k : Nat}
    {d : Bits} (hconcat : concatCodes s.ctAt k w = .ok d) (hwin : s.window = packStream d)
    (hseq : s.seqLen.toNat = w.length) (hfit : w.length ≤ s.params.bufBytes) :
    execDecode s = .next (s.decoded w) := by
  obtain ⟨body, hstream, -, -⟩ := packStream_spec d
  obtain ⟨-, hp, hdata⟩ := dataBits_packStream d hstream
  have hwin := hwin.trans hstream
  obtain h1 | h2 : s.nsym.toNat = 1 ∨ 2 ≤ s.nsym.toNat := by
    have := h.nsym
    omega
  · obtain ⟨hrepeat, rfl⟩ := h.window_of_single h1 hconcat
    rw [execDecode_degenerate s hm hw hwin hp ((h.degen hm).2 h1), hdata, decodeDegenerate_ok (hseq ▸ hfit), hseq,
      ← hrepeat]
  · rw [execDecode_walk s hm hw hwin hp (h.not_degen hm h2), hdata]
    exact decodeWalk_ok (walk_of_holds s h h2 hconcat) hfit

end State.HoldsModel

/-- Settles O53: ENCODE wrote the packed stream of its window, and the second state decodes it under the same model. -/
theorem encodeThenDecodeRoundTrip : Obligations.EncodeThenDecodeRoundTrip := by
  intro s t u a hm h hencode herr htable hmodel hparams hw hwin hseq
  obtain ⟨hlegal, hlen, d, hconcat, hstream⟩ := encode_without_error hencode herr
  have hfit : s.window.length ≤ u.params.bufBytes := by
    rw [length_window, hparams]
    exact windowLength_le s hlegal
  have hu := h.of_same htable hmodel
  obtain ⟨hmv, -, -, hct⟩ := hmodel
  rw [← funext hct] at hconcat
  exact ⟨_, hu.execDecode_packStream (hmv.trans hm) hw hconcat (hwin.trans hstream) (hseq ▸ hlen) hfit,
    decoded_completedOk u _, outputBytes_decoded hfit⟩

end Sys2Proof.Machine
end

section
/-! FTSER and FTPARSE byte by byte (44_persisted_format.md R220 to R225): what stands where in the section FTSER writes, and
what the section FTPARSE reads says of the bytes in its window. -/

namespace Sys2Proof.Machine

/-! ### Big-endian fields (R10, R64) -/

theorem ofNat_div_two_pow_eq_extractLsb' (v : Word) (k : Nat) : BitVec.ofNat 8 (v.toNat / 2 ^ k) = v.extractLsb' k 8 := by
  rw [← Nat.shiftRight_eq_div_pow]
  rfl

/-- The four bytes of a big-endian word are its bits from the top down. -/
theorem toBe32_toNat (v : Word) :
    toBe32 v.toNat = [v.extractLsb' 24 8, v.extractLsb' 16 8, v.extractLsb' 8 8, v.extractLsb' 0 8] := by
  simp only [toBe32, ofNat_div_two_pow_eq_extractLsb']
  rfl

theorem toNat_append_byte {n : Nat} (x : BitVec n) (b : Byte) : (x ++ b).toNat = x.toNat * 2 ^ 8 + b.toNat := by
  rw [BitVec.toNat_append, ← Nat.shiftLeft_add_eq_or_of_lt b.isLt, Nat.shiftLeft_eq]

/-- A big-endian field reads as its four bytes side by side. -/
theorem ofNat_be32 (w : List Byte) (k : Nat) :
    BitVec.ofNat 32 (be32 w k) = w.getD k 0 ++ w.getD (k + 1) 0 ++ w.getD (k + 2) 0 ++ w.getD (k + 3) 0 := by
  have hvalue : (w.getD k 0 ++ w.getD (k + 1) 0 ++ w.getD (k + 2) 0 ++ w.getD (k + 3) 0).toNat = be32 w k := by
    simp only [toNat_append_byte, be32, byteAt]
    omega
  rw [← hvalue, BitVec.ofNat_toNat, BitVec.setWidth_eq]

/-! ### FTSER -/

/-- Byte `j` of entry `i` of a section (R220). -/
theorem getD_sectionBytes_entry {t : List FtEntry} {i j : Nat} (hi : i < t.length) (hj : j < 5) :
    (sectionBytes t).getD (2 + j + 5 * i) 0 = (entryBytes t[i]).getD j 0 := by
  have hentry := getD_flatMap_entryBytes t [] i j hi hj
  rw [List.append_nil] at hentry
  rw [sectionBytes, List.getD_append_right _ _ _ _ (by rw [length_toBe16]; omega), length_toBe16, ← hentry]
  congr 1
  omega

section Ftser

variable {s : State}

/-- FTSER delivers the section of the table as DECODE delivers its symbols: at OBUF index 0, changing nothing else (R221). -/
theorem exec_ftser (hn : s.nsym.toNat ≤ 256) : exec .ftser s = .next (s.decoded (sectionBytes s.table)) := execFtser_ok s hn

theorem obufAt_decoded {out : List Byte} {j : Nat} (hj : j < out.length) : (s.decoded out).obufAt j = out.getD j 0 := by
  have hread := obufAt_storeOutput s 0 out j hj
  rw [Nat.zero_add] at hread
  rw [List.getD_eq_getElem _ _ hj]
  exact hread

theorem length_sectionBytes_table (s : State) : (sectionBytes s.table).length = 2 + 5 * s.nsym.toNat := by
  rw [length_sectionBytes, length_table]

theorem outLen_decoded_section (hn : s.nsym.toNat ≤ 256) :
    (s.decoded (sectionBytes s.table)).outLen.toNat = 2 + 5 * s.nsym.toNat := by
  have hlen := length_sectionBytes_table s
  have := s.params.sectionFits
  have hout := outLen_storeOutput s 0 (sectionBytes s.table) (by omega)
  rwa [Nat.zero_add, hlen] at hout

/-- The first two bytes of the section are the count (R220). -/
theorem obufAt_decoded_count (hn : s.nsym.toNat ≤ 256) :
    ((s.decoded (sectionBytes s.table)).obufAt 0).toNat = s.nsym.toNat / 256 ∧
      ((s.decoded (sectionBytes s.table)).obufAt 1).toNat = s.nsym.toNat % 256 := by
  have hlen := length_sectionBytes_table s
  rw [obufAt_decoded (by omega), obufAt_decoded (by omega), ← length_table]
  refine ⟨Nat.mod_eq_of_lt ?_, rfl⟩
  rw [length_table]
  omega

/-- Byte `j` of entry `i` stands in OBUF at `2 + 5i + j` (R220). -/
theorem obufAt_decoded_entry {i j : Nat} (hi : i < s.nsym.toNat) (hj : j < 5) :
    (s.decoded (sectionBytes s.table)).obufAt (2 + j + 5 * i) = (entryBytes (s.ftEntry i)).getD j 0 := by
  have hlen := length_sectionBytes_table s
  have hget : s.table[i]'(by rwa [length_table]) = s.ftEntry i := by simp [State.table]
  rw [obufAt_decoded (by omega), getD_sectionBytes_entry (by rwa [length_table]) hj, hget]

end Ftser

/-- Settles O54: the section fits every buffer and is written byte by byte, and more than 256 entries is an error entry. -/
theorem ftserWritesTheSection : Obligations.FtserWritesTheSection := by
  intro s
  constructor
  · intro hn
    obtain ⟨hhigh, hlow⟩ := obufAt_decoded_count hn
    refine ⟨_, exec_ftser hn, decoded_completedOk s _, outLen_decoded_section hn, hhigh, hlow, fun i hi => ?_,
      decoded_frame s _⟩
    have hbyte : ∀ j, j < 5 → (s.decoded (sectionBytes s.table)).obufAt (2 + j + 5 * i) =
        ((s.ftEntry i).sym :: toBe32 (s.ftEntry i).count.toNat).getD j 0 := fun j hj => obufAt_decoded_entry hi hj
    rw [toBe32_toNat] at hbyte
    exact ⟨hbyte 0 (by decide), hbyte 1 (by decide), hbyte 2 (by decide), hbyte 3 (by decide), hbyte 4 (by decide)⟩
  · intro hn
    exact ⟨_, execFtser_bad s hn, raise_completedWith s _ _, raise_unchanged s _ _⟩

/-! ### FTPARSE -/

section Ftparse

variable {s : State}

/-- Byte `i` of the window is that of IBUF behind IN_OFF (R69). -/
theorem getD_window {i : Nat} (hi : i < s.windowLength) : s.window.getD i 0 = s.ibufAt (s.inOff.toNat + i) := by
  rw [List.getD_eq_getElem?_getD, getElem?_window s i hi, Option.getD_some]

/-- The count field of a window that holds it (R223). -/
theorem be16_window (h : 2 ≤ s.windowLength) :
    be16 s.window 0 = (s.ibufAt s.inOff.toNat).toNat * 256 + (s.ibufAt (s.inOff.toNat + 1)).toNat := by
  rw [be16, byteAt, byteAt, getD_window (by omega), getD_window (by omega)]
  rfl

/-- Entry `i` of a window that holds it, from its five bytes (R223). -/
theorem parsedEntry_window {i : Nat} (h : 2 + 5 * (i + 1) ≤ s.windowLength) :
    parsedEntry s.window i = ⟨s.ibufAt (s.inOff.toNat + 2 + 5 * i),
      s.ibufAt (s.inOff.toNat + 3 + 5 * i) ++ s.ibufAt (s.inOff.toNat + 4 + 5 * i) ++
        s.ibufAt (s.inOff.toNat + 5 + 5 * i) ++ s.ibufAt (s.inOff.toNat + 6 + 5 * i)⟩ := by
  have hbyte : ∀ k j, k = j + 5 * i → j < 7 → s.window.getD k 0 = s.ibufAt (s.inOff.toNat + j + 5 * i) := by
    rintro k j rfl hj
    rw [getD_window (by omega), Nat.add_assoc]
  rw [parsedEntry, ofNat_be32, hbyte _ 2 rfl (by decide), hbyte _ 3 rfl (by decide), hbyte _ 4 (by omega) (by decide),
    hbyte _ 5 (by omega) (by decide), hbyte _ 6 (by omega) (by decide)]

/-- FTPARSE of a whole section leaves the parsed state of its entries (R223). -/
theorem exec_ftparse_of_fits (hw : s.windowLegal = true) {n : Nat} (hcount : be16 s.window 0 = n) (hn : n ≤ 256)
    (hfits : 2 + 5 * n ≤ s.windowLength) : exec .ftparse s = .next (s.parsed (parsedTable s.window n)) := by
  subst hcount
  rw [State.parsed, length_parsedTable]
  exact execFtparse_ok s hw (by omega) hn hfits

variable {t : List FtEntry}

theorem nsym_parsed (ht : t.length ≤ 256) : (s.parsed t).nsym.toNat = t.length := by
  rw [← length_table, parsed_table ht]

theorem ftEntry_parsed (ht : t.length ≤ 256) {i : Nat} (hi : i < t.length) : (s.parsed t).ftEntry i = t[i] := by
  have hget : (s.parsed t).table[i]'(by rwa [parsed_table ht]) = (s.parsed t).ftEntry i := by simp [State.table]
  simp only [← hget, parsed_table ht]

/-- IN_OFF moves past a section that ends within IN_LEN, without wrapping (R225). -/
theorem inOff_parsed (h : s.inOff.toNat + 2 + 5 * t.length ≤ s.inLen.toNat) :
    (s.parsed t).inOff.toNat = s.inOff.toNat + 2 + 5 * t.length :=
  Nat.mod_eq_of_lt (h.trans_lt s.inLen.isLt)

end Ftparse

/-- Settles O55: the section fits the window, so FTPARSE stores the entries its bytes say and moves IN_OFF past them. -/
theorem ftparseReadsTheSection : Obligations.FtparseReadsTheSection := by
  intro s N hw hhead hN hmax hfits
  have hlength : 2 + 5 * N ≤ s.windowLength := by
    unfold State.windowLength
    omega
  have hcount : be16 s.window 0 = N := (be16_window (by omega)).trans hN.symm
  have hlen := length_parsedTable s.window N
  have hoff := inOff_parsed (hlen.symm ▸ hfits)
  rw [hlen] at hoff
  refine ⟨_, exec_ftparse_of_fits hw hcount hmax hlength, ⟨rfl, rfl, rfl, rfl, rfl⟩, (nsym_parsed (by omega)).trans hlen,
    rfl, fun i hi => ?_, hoff, hoff.trans_le hfits, rfl, rfl, fun _ => rfl, fun _ => rfl, fun _ => rfl,
    ⟨rfl, fun _ => rfl⟩, rfl, ⟨rfl, rfl, rfl⟩⟩
  have hentry : (s.parsed (parsedTable s.window N)).ftEntry i = parsedEntry s.window i := by
    rw [ftEntry_parsed (by omega) (by omega)]
    simp [parsedTable]
  rw [hentry, parsedEntry_window (by omega)]
  exact ⟨rfl, rfl⟩

end Sys2Proof.Machine
end

section
/-! The system commands (45_system.md R240, R241): an illegal command word is reported and changes nothing else, and CLEAR
zeroes the operand registers, ROOT and MV. -/

namespace Sys2Proof.Machine

/-! ### Illegal command words (R241, R259) -/

/-- The next step after `issue` is the engine's turn on the accepted state. -/
theorem step_issue (s : State) (w : Word) : step (s.issue w) = engineTurn (s.accept w) := waitTurn_zero (s.accept w)

theorem step_issue_of_illegal {w : Word} (h : ¬ ∃ i, decodeCmd w = .ok i) (s : State) :
    step (s.issue w) = .next ((s.accept w).raise .illegalCommand w) := by
  rw [step_issue, engineTurn_run (accept_phase s w)]
  exact runCommand_of_illegal h

/-- STATUS after an illegal word: DONE, ERR and code 8, with MV in bit 3 and DEGEN in bit 4 (R23). -/
theorem statusWord_of_illegalCommand {info : Word} {t : State} (h : CompletedWith .illegalCommand info t) :
    t.statusWord = if t.mv then (if t.root = 0 then 0x81E else 0x80E) else 0x806 := by
  obtain ⟨hp, hd, he, hc, -⟩ := h
  rw [State.statusWord, State.busy, State.degen, hp, hd, he, hc]
  cases t.mv with
  | false =>
    rw [if_neg Bool.false_ne_true, Bool.false_and]
    rfl
  | true =>
    rw [if_pos rfl]
    by_cases hroot : t.root = 0
    · rw [if_pos hroot, hroot]
      rfl
    · rw [if_neg hroot, beq_eq_false_iff_ne.2 hroot]
      rfl

/-- Settles O8: acceptance and error entry write the latch and the record only, and STATUS shows the record. -/
theorem illegalWordReportsAndChangesNothing : Obligations.IllegalWordReportsAndChangesNothing := by
  intro s w hw
  have hrecord := raise_completedWith (s.accept w) .illegalCommand w
  obtain ⟨hdata, -⟩ := raise_unchanged (s.accept w) .illegalCommand w
  exact ⟨_, step_issue_of_illegal (not_exists.2 hw) s, hrecord, rfl, hdata, rfl, rfl, rfl,
    statusWord_of_illegalCommand hrecord⟩

/-! ### CLEAR (R240) -/

/-- What CLEAR leaves: the operand registers, ROOT and MV zeroed, and the record of a completion without error. -/
def State.cleared (s : State) : State :=
  ({ s with inOff := 0, inLen := 0, outLen := 0, nsym := 0, seqLen := 0, root := 0, mv := false } : State).complete

theorem exec_clear (s : State) : exec .clear s = .next s.cleared := rfl

theorem cleared_completedOk (s : State) : CompletedOk s.cleared := ⟨rfl, rfl, rfl, rfl, rfl⟩

/-- STATUS after a completion without error and with no model: DONE alone (R23). -/
theorem statusWord_of_completedOk {t : State} (h : CompletedOk t) (hmv : t.mv = false) : t.statusWord = 0x00000002 := by
  obtain ⟨hp, hd, he, hc, -⟩ := h
  rw [State.statusWord, State.busy, State.degen, hp, hd, he, hc, hmv, Bool.false_and]
  rfl

/-- CLEAR writes no memory, and neither the latch, the parameters nor the host (R240). -/
theorem cleared_frame (s : State) : (∀ i, s.cleared.ftEntry i = s.ftEntry i) ∧ (∀ i, s.cleared.nodeAt i = s.nodeAt i) ∧
    (∀ x, s.cleared.ctAt x = s.ctAt x) ∧ SameInput s s.cleared ∧ (∀ k, s.cleared.obufAt k = s.obufAt k) ∧
    SameSurroundings s s.cleared :=
  ⟨fun _ => rfl, fun _ => rfl, fun _ => rfl, fun _ => rfl, fun _ => rfl, ⟨rfl, rfl, rfl⟩⟩

/-- Settles O29: CLEAR's completion holds the zeroed registers and the memories it had, and a running engine ignores the
word. -/
theorem clearResetsTheRegisters : Obligations.ClearResetsTheRegisters := by
  intro s
  have hok := cleared_completedOk s
  exact ⟨⟨s.cleared, exec_clear s, hok, statusWord_of_completedOk hok rfl, rfl, rfl, rfl, rfl, rfl, rfl, rfl, rfl,
    cleared_frame s⟩, fun hp => hostWrite_busy s hp _ _ _ _⟩

end Sys2Proof.Machine
end

section
/-! Errors (60_exceptions.md R250 to R262): which command raises which code, the causes of NoModelError, of FTPARSE's
FormatVersionError and of DECODE's MalformedStreamError, and the state an error leaves. -/

namespace Sys2Proof.Machine

/-! ### Every step answers a next state -/

theorem engineTurn_next (s : State) : ∃ t, engineTurn s = .next t := by
  cases hp : s.phase with
  | idle => exact ⟨s, engineTurn_idle hp⟩
  | run =>
    rw [engineTurn_run hp]
    exact runCommand_next s

theorem eventTurn_next (e : HostEvent) (s : State) : ∃ t, eventTurn e s = .next t := by
  cases e with
  | wait n =>
    obtain ⟨t, ht⟩ := engineTurn_next s
    exact ⟨_, waitTurn_of_next ht⟩
  | _ => exact ⟨_, rfl⟩

theorem step_next (s : State) : ∃ t, step s = .next t := by
  cases hp : s.host.pending with
  | nil =>
    rw [step_nil hp]
    exact engineTurn_next s
  | cons e rest =>
    rw [step_cons hp]
    exact eventTurn_next e _

/-- Settles O9: a step is a turn, and a turn is a command, an illegal word or an event, each of which answers a next state. -/
theorem everyStepAnswersNext : Obligations.EveryStepAnswersNext := fun s => ⟨step_next s, fun i => exec_next i s⟩

/-! ### The codes (R251) -/

/-- Settles O11: each result of a command that is an error entry names its kind, and the others have no error. -/
theorem errorCodesMatchTheirCommands : Obligations.ErrorCodesMatchTheirCommands := by
  refine ⟨rfl, fun i s t h => ⟨fun herr => ?_, fun herr => ?_⟩, fun s t hw h => ?_⟩
  · obtain ⟨-, -, -, hcode, -⟩ | ⟨e, info, -, -, htrue, -⟩ := (exec_result h).completed
    · exact hcode
    · exact absurd (herr.symm.trans htrue) Bool.false_ne_true
  · cases exec_result h with
    | clear | countOk | buildOk | encodeOk | decodeOk | ftserOk | ftparseOk => exact absurd herr Bool.false_ne_true
    | countRange => exact ⟨.range, rfl, .inl rfl⟩
    | buildError e info _ hkind =>
      obtain rfl | rfl := hkind
      · exact ⟨.emptyInput, rfl, rfl⟩
      · exact ⟨.badTable, rfl, .inl rfl⟩
    | encodeNoModel a => exact ⟨.noModel, rfl, .inl ⟨a, rfl⟩⟩
    | encodeUnknown a => exact ⟨.unknownSymbol, rfl, a, rfl⟩
    | encodeRange a | encodeOverflow a => exact ⟨.range, rfl, .inr (.inl ⟨a, rfl⟩)⟩
    | decodeNoModel => exact ⟨.noModel, rfl, .inr rfl⟩
    | decodeMalformed => exact ⟨.malformedStream, rfl, rfl⟩
    | decodeRange | decodeOverflow => exact ⟨.range, rfl, .inr (.inr (.inl rfl))⟩
    | ftserBad => exact ⟨.badTable, rfl, .inr rfl⟩
    | ftparseRange => exact ⟨.range, rfl, .inr (.inr (.inr rfl))⟩
    | ftparseFormat => exact ⟨.formatVersion, rfl, rfl⟩
  · obtain rfl := next_inj ((runCommand_of_illegal (not_exists.2 hw)).symm.trans h)
    exact ⟨rfl, rfl⟩

/-! ### NoModelError (R258) -/

/-- ENCODE and DECODE look at MV before anything else (R260). -/
theorem exec_of_noModel {s : State} (hm : s.mv = false) {i : Instr} (hi : i = .decode ∨ ∃ a, i = .encode a) :
    exec i s = .next (s.raise .noModel 0) := by
  obtain rfl | ⟨a, rfl⟩ := hi
  · exact execDecode_noModel s hm
  · exact execEncode_noModel s a hm

/-- Settles O46: MV is the first check, and an error entry alone changes only the record. -/
theorem encodeAndDecodeNeedAModel : Obligations.EncodeAndDecodeNeedAModel := fun s _ hi hm =>
  ⟨_, exec_of_noModel hm hi, raise_completedWith s _ _, rfl, raise_unchanged s _ _⟩

/-! ### FormatVersionError of FTPARSE (R224, R255) -/

/-- Settles O56: the three checks in their order, with the count field read from the window. -/
theorem ftparseRejectsTruncatedSections : Obligations.FtparseRejectsTruncatedSections := by
  intro s N hw hN
  have hlength : s.windowLength = s.inLen.toNat - s.inOff.toNat := rfl
  have hcount (h2 : 2 ≤ s.windowLength) : be16 s.window 0 = N := (be16_window h2).trans hN.symm
  refine ⟨fun hshort => ?_, fun hhead hmany => ?_, fun hhead hmax htrunc => ?_⟩
  · exact ⟨_, execFtparse_short s hw (by omega), raise_completedWith s _ _, raise_unchanged s _ _⟩
  · have h2 : 2 ≤ s.windowLength := by omega
    exact ⟨_, execFtparse_many s hw h2 (by rwa [hcount h2]), raise_completedWith s _ _, raise_unchanged s _ _⟩
  · have h2 : 2 ≤ s.windowLength := by omega
    have hfits : s.windowLength < 2 + 5 * be16 s.window 0 := by
      rw [hcount h2]
      omega
    exact ⟨_, execFtparse_truncated s hw h2 (by rwa [hcount h2]) hfits, raise_completedWith s _ _, raise_unchanged s _ _⟩

/-! ### MalformedStreamError of DECODE (R254) -/

section Malformed

variable {s : State} {data : Bits}

/-- A walk that ends off the root is a malformed stream, however long its output (R197). -/
theorem decodeWalk_malformed (hend : (walk s.nodeAt s.root.toNat s.root.toNat data).2 ≠ s.root.toNat) :
    s.decodeWalk data = .next ((s.storeOutput 0 []).raise .malformedStream 3) := by
  rw [State.decodeWalk, if_pos hend]
  rfl

/-- A degenerate model admits no data bits (R198). -/
theorem decodeDegenerate_malformed (hdata : data ≠ []) :
    s.decodeDegenerate data = .next ((s.storeOutput 0 []).raise .malformedStream 4) := by
  rw [State.decodeDegenerate, if_pos hdata]
  rfl

/-- A body longer than its padding holds data bits (R193). -/
theorem dataBits_ne_nil {body : List Byte} {p : Nat} (hp : p < 8 * body.length) : dataBits body p ≠ [] := by
  rw [← List.length_pos_iff, dataBits, List.length_take, length_bitsOf]
  omega

end Malformed

/-- Settles O50: each cause reaches its check, and every one of them empties the output before the error entry. -/
theorem decodeRejectsMalformedStreams : Obligations.DecodeRejectsMalformedStreams := by
  refine fun s hm hw => ⟨fun hempty => decodeFails_of_cut (execDecode_empty s hm hw hempty), fun header body hwin =>
    ⟨fun hp => decodeFails_of_cut (execDecode_padding s hm hw hwin hp), fun hp h h2 hend => ?_, fun hp hd => ?_⟩⟩
  · obtain ⟨-, hcursor⟩ := scan_eq_walk_of_holds s h h2 (dataBits body header.toNat)
    have hexec := execDecode_walk s hm hw hwin hp (h.not_degen hm h2)
    exact decodeFails_of_cut (hexec.trans (decodeWalk_malformed (mt hcursor.2 hend)))
  · have hexec := execDecode_degenerate s hm hw hwin hp.le hd
    exact decodeFails_of_cut (hexec.trans (decodeDegenerate_malformed (dataBits_ne_nil hp)))

/-! ### The state after an error (R262) -/

section AfterError

variable {s t : State} {i : Instr}

/-- No error changes FT, NSYM, the window's registers or SEQ_LEN. -/
theorem ExecResult.sameTable_of_error (h : ExecResult s i t) (herr : t.err = true) :
    SameTable s t ∧ SameWindow s t ∧ t.seqLen = s.seqLen := by
  cases h with
  | clear | countOk | buildOk | encodeOk | decodeOk | ftserOk | ftparseOk => exact absurd herr Bool.false_ne_true
  | _ => exact ⟨⟨rfl, fun _ => rfl⟩, ⟨rfl, rfl⟩, rfl⟩

/-- OUT_LEN after a cut at the base is OUT_LEN for the append form and 0 for the other (R177). -/
theorem outLen_storeOutput_encodeBase (s : State) (a : Bool) :
    (s.storeOutput (s.encodeBase a) []).outLen = if a then s.outLen else 0 := by
  cases a with
  | false => rfl
  | true => simp [State.encodeBase]

end AfterError

/-- Settles O60: an error entry is made on the state itself, on one without its model (BUILD), or on one whose output is
cut at the base (ENCODE, DECODE); the code and the detail word tell which. -/
theorem stateAfterAnError : Obligations.StateAfterAnError := by
  refine ⟨fun s t hw h => ?_, fun i s t h herr => ?_⟩
  · obtain rfl := next_inj ((runCommand_of_illegal (not_exists.2 hw)).symm.trans h)
    exact raise_unchanged s _ _
  · have hr := exec_result h
    obtain ⟨htable, hwindow, hseq⟩ := hr.sameTable_of_error herr
    refine ⟨htable, hr.sameInput, hwindow, hseq, hr.sameSurroundings, ?_⟩
    cases hr with
    | clear | countOk | buildOk | encodeOk | decodeOk | ftserOk | ftparseOk => exact absurd herr Bool.false_ne_true
    | countRange | ftserBad | ftparseRange | ftparseFormat => exact raise_unchanged s _ _
    | buildError => exact ⟨rfl, rfl, fun _ => rfl⟩
    | encodeNoModel | encodeRange | decodeNoModel | decodeRange =>
      exact ⟨⟨rfl, rfl, fun _ => rfl, fun _ => rfl⟩, fun _ => raise_unchanged s _ _,
        fun hcut => by simp [HceError.code] at hcut⟩
    | encodeUnknown a | encodeOverflow a =>
      exact ⟨⟨rfl, rfl, fun _ => rfl, fun _ => rfl⟩, fun huncut => by simp [HceError.code] at huncut,
        fun _ => ⟨outLen_storeOutput_encodeBase s a, obufAt_storeOutput_below s (s.encodeBase a) []⟩⟩
    | decodeMalformed | decodeOverflow =>
      exact ⟨⟨rfl, rfl, fun _ => rfl, fun _ => rfl⟩, fun huncut => by simp [HceError.code] at huncut, fun _ => rfl⟩

end Sys2Proof.Machine
end
